-- ==== Sys2Proof/Word.lean ====
section
/-! DEFINITION. The word types of FPCORE: raw stores, characters, command words and responses. -/

namespace Sys2Proof

/-- A 32-bit raw store (R6, R100): two's complement, bit 31 the sign. -/
abbrev Word := BitVec 32

/-- One character code of the text buffer (R25). -/
abbrev Byte := BitVec 8

/-- One 72-bit command word CMD[71:0] (R70). -/
abbrev Command := BitVec 72

/-- One 35-bit response word RSP[34:0] = (ERR, R) (R73). -/
abbrev Response := BitVec 35

end Sys2Proof
end

