-- ==== Sys2Proof/Syntax.lean ====
section
/-! DEFINITION. The 33 commands of FPCORE, one constructor per row of the opcode map (R74). A command carries the
operand fields it uses (R72, R75); an ignored field is no part of the term. -/

namespace Sys2Proof

/-- One command with its operands: `a` is field A, `b` is field B, both 32-bit patterns used as they stand (R72). -/
inductive Instr where
  | add (a b : Word)
  | sub (a b : Word)
  | mul (a b : Word)
  | div (a b : Word)
  | mod (a b : Word)
  | neg (a : Word)
  | abs (a : Word)
  | sign (a : Word)
  | floor (a : Word)
  | ceil (a : Word)
  | round (a : Word)
  | rndeven (a : Word)
  | cmplt (a b : Word)
  | cmpgt (a b : Word)
  | cmple (a b : Word)
  | cmpge (a b : Word)
  | cmpeq (a b : Word)
  /-- `a` is a two's-complement integer (R121) -/
  | fromint (a : Word)
  | toint (a : Word)
  /-- `a` is a constant index (R126) -/
  | ldc (a : Word)
  | sadd (a b : Word)
  | ssub (a b : Word)
  | smul (a b : Word)
  | sdiv (a b : Word)
  | smod (a b : Word)
  | sabs (a : Word)
  | sqrt (a : Word)
  | sin (a : Word)
  | cos (a : Word)
  | tan (a : Word)
  /-- field A is y, field B is x (R72) -/
  | atan2 (y x : Word)
  /-- the operand is the text in TXT (R211) -/
  | parse
  | tostr (a : Word)
  deriving DecidableEq, Repr

end Sys2Proof
end

