-- ==== Sys2Proof/Decode.lean ====
section
/-! DEFINITION. The command decoder, total on all 72-bit words (R77), and the encoder of the same opcode map (R71,
R74, R80). -/

namespace Sys2Proof

/-- Why a word is no command: its OP value is reserved (R76). -/
inductive DecodeError where
  | reservedOp (op : BitVec 8)
  deriving DecidableEq, Repr

/-- OP = CMD[71:64] (R71). -/
def Command.op (w : Command) : BitVec 8 := w.extractLsb' 64 8

/-- A = CMD[63:32] (R71). -/
def Command.fieldA (w : Command) : Word := w.extractLsb' 32 32

/-- B = CMD[31:0] (R71). -/
def Command.fieldB (w : Command) : Word := w.extractLsb' 0 32

/-- The word with the fields OP, A, B, most significant first (R71). -/
def Command.mk (op : BitVec 8) (a b : Word) : Command := op ++ (a ++ b)

/-- The opcode map (R74): each assigned OP value with the command it selects from the fields A and B. -/
def opcodeMap : List (BitVec 8 × (Word → Word → Instr)) :=
  [(0x01, fun a b => .add a b), (0x02, fun a b => .sub a b), (0x03, fun a b => .mul a b),
   (0x04, fun a b => .div a b), (0x05, fun a b => .mod a b), (0x06, fun a _ => .neg a),
   (0x07, fun a _ => .abs a), (0x08, fun a _ => .sign a), (0x09, fun a _ => .floor a),
   (0x0A, fun a _ => .ceil a), (0x0B, fun a _ => .round a), (0x0C, fun a _ => .rndeven a),
   (0x0D, fun a b => .cmplt a b), (0x0E, fun a b => .cmpgt a b), (0x0F, fun a b => .cmple a b),
   (0x10, fun a b => .cmpge a b), (0x11, fun a b => .cmpeq a b), (0x12, fun a _ => .fromint a),
   (0x13, fun a _ => .toint a), (0x14, fun a _ => .ldc a)] ++
  [(0x20, fun a b => .sadd a b), (0x21, fun a b => .ssub a b), (0x22, fun a b => .smul a b),
   (0x23, fun a b => .sdiv a b), (0x24, fun a b => .smod a b), (0x25, fun a _ => .sabs a)] ++
  [(0x30, fun a _ => .sqrt a), (0x31, fun a _ => .sin a), (0x32, fun a _ => .cos a),
   (0x33, fun a _ => .tan a), (0x34, fun y x => .atan2 y x)] ++
  [(0x40, fun _ _ => .parse), (0x41, fun a _ => .tostr a)]

/-- The decoder (R76, R77): OP alone selects the command, an unassigned OP is refused by name. -/
def decode (w : Command) : Except DecodeError Instr :=
  match opcodeMap.find? (fun row => row.1 == Command.op w) with
  | some row => .ok (row.2 (Command.fieldA w) (Command.fieldB w))
  | none => .error (.reservedOp (Command.op w))

/-- The encoder (R80): OP of R74, the operands as they stand, zero for an ignored field (R75). -/
def encode : Instr → Command
  | .add a b => Command.mk 0x01 a b
  | .sub a b => Command.mk 0x02 a b
  | .mul a b => Command.mk 0x03 a b
  | .div a b => Command.mk 0x04 a b
  | .mod a b => Command.mk 0x05 a b
  | .neg a => Command.mk 0x06 a 0
  | .abs a => Command.mk 0x07 a 0
  | .sign a => Command.mk 0x08 a 0
  | .floor a => Command.mk 0x09 a 0
  | .ceil a => Command.mk 0x0A a 0
  | .round a => Command.mk 0x0B a 0
  | .rndeven a => Command.mk 0x0C a 0
  | .cmplt a b => Command.mk 0x0D a b
  | .cmpgt a b => Command.mk 0x0E a b
  | .cmple a b => Command.mk 0x0F a b
  | .cmpge a b => Command.mk 0x10 a b
  | .cmpeq a b => Command.mk 0x11 a b
  | .fromint a => Command.mk 0x12 a 0
  | .toint a => Command.mk 0x13 a 0
  | .ldc a => Command.mk 0x14 a 0
  | .sadd a b => Command.mk 0x20 a b
  | .ssub a b => Command.mk 0x21 a b
  | .smul a b => Command.mk 0x22 a b
  | .sdiv a b => Command.mk 0x23 a b
  | .smod a b => Command.mk 0x24 a b
  | .sabs a => Command.mk 0x25 a 0
  | .sqrt a => Command.mk 0x30 a 0
  | .sin a => Command.mk 0x31 a 0
  | .cos a => Command.mk 0x32 a 0
  | .tan a => Command.mk 0x33 a 0
  | .atan2 y x => Command.mk 0x34 y x
  | .parse => Command.mk 0x40 0 0
  | .tostr a => Command.mk 0x41 a 0

/-- The command word a table word of `nbits` bits stands for: bit 0 least significant, the bits above `nbits` zero
(R13, R70). -/
def tableCommand (nbits w : Nat) : Command := BitVec.ofNat 72 (w % 2 ^ nbits)

/-- The instruction the decoder reads from a table word, none where it refuses. -/
def decodeTableWord (nbits w : Nat) : Option Instr := (decode (tableCommand nbits w)).toOption

end Sys2Proof
end

