-- ==== Sys2Proof/Config.lean ====
section
/-! DEFINITION. The build parameters of FPCORE (R6 to R12), the open parameter, and the free values the spec leaves open. -/

namespace Sys2Proof.Config

/-- `W`, the width of the raw store (R6). -/
def W : Nat := 32

/-- `F`, the number of fractional bits: 10 for this hardware (R7). -/
def F : Nat := 10

/-- `LUT_THRESHOLD` (R8). -/
def lutThreshold : Nat := 14

/-- `INTERP` for a build with `f` fractional bits (R8): true only for F = 16 among the legal values. -/
def interp (f : Nat) : Bool := lutThreshold < f

/-- `TXT_CAP`, the capacity of the text buffer in bytes (R11). -/
def txtCap : Nat := 64

/-- `FRAC_DIGITS`, the largest d with 10^d ≤ 2^F (R10): how many of 1, 2, … satisfy it. -/
def fracDigits (f : Nat) : Nat :=
  ((List.range f).filter fun d => 10 ^ (d + 1) ≤ 2 ^ f).length

/-- The open choice behind `LUT_SIZE_INTERP` (R9, U10): no body, so no proof can see it. Log entry 10. -/
opaque lutSizeInterpChoice : Fin 32767

/-- `LUT_SIZE_INTERP` at F = 16, somewhere in 2 .. 2^15 (R9). Unused at F = 10. Log entry 10. -/
def lutSizeInterp : Nat := 2 + lutSizeInterpChoice.val

/-- A word the spec leaves unspecified (U5): a free value, for each value of the state's counter. Log entry 3. -/
opaque unspecifiedWord : Nat → Word

/-- A text byte the spec leaves unspecified (U3, U5): a free value, for each value of the state's counter and
each index of the buffer. Log entry 3. -/
opaque unspecifiedByte : Nat → Nat → Byte

/-- What a build of the block fixes for the trigonometric rules: F, N = LUT_SIZE, the words of CONST, SIN_ROM and
TAN_ROM, and the wired-in constant ATAN_K (R12, R20, R196). -/
structure Build where
  /-- F (R7) -/
  fracBits : Nat
  /-- N = LUT_SIZE (R9) -/
  lutSize : Nat
  /-- CONST (R26) -/
  constRom : List Word
  /-- SIN_ROM (R177) -/
  sinRom : List Word
  /-- TAN_ROM (R178) -/
  tanRom : List Word
  /-- ATAN_K (R196) -/
  atanK : Word
  deriving DecidableEq, Repr

end Sys2Proof.Config
end

