-- ==== Sys2Proof/Machine/State.lean ====
section
/-! DEFINITION. The state of FPCORE (R20, R32) with its ports (R264), the reasons a step can stop, and the state
after reset (R260). Plain data. -/

namespace Sys2Proof.Machine

/-- The four error kinds (R240). They are statuses of a command that has ended, not stops of the machine. -/
inductive ErrorKind where
  | divideByZero
  | domainError
  | formatError
  | illegalCommand
  deriving DecidableEq, Repr

/-- The field ERR (R24): OK, or the kind the last command raised. The codes 5, 6, 7 are never produced (U8). -/
inductive Err where
  | ok
  | raised (k : ErrorKind)
  deriving DecidableEq, Repr

/-- The contents of TXT (R25, R50): (index, byte) pairs, indices strictly rising, no entry equal to what an unlisted
index reads as. -/
abbrev Memory := List Host.Cell

/-- The images the three read-only memories CONST, SIN_ROM, TAN_ROM can hold: their contents are fixed at the build
(R29, R30, R32), so the build's name says every word. Log entry 9. -/
inductive RomImage where
  /-- the contents at F = 10 (R28, R230, R231) -/
  | f10
  deriving DecidableEq, Repr

/-- What the host does at the ports (R264): the inputs of the block. -/
inductive HostAction where
  /-- present a command word on the command port (R265) -/
  | command (w : Command)
  /-- write the byte TXT[i] through the text port -/
  | writeTxt (i : Fin 64) (b : Byte)
  /-- read the byte TXT[i] through the text port -/
  | readTxt (i : Fin 64)
  /-- write TXT_LEN through the text port (R55) -/
  | writeLen (v : Nat)
  /-- read TXT_LEN through the text port -/
  | readLen
  /-- assert the reset input (R260) -/
  | reset
  deriving DecidableEq, Repr

/-- What the ports give back to the host (R264). -/
inductive HostReply where
  /-- the response after a command (R73) -/
  | response (w : Response)
  /-- the byte a text port read returned -/
  | txtByte (b : Byte)
  /-- the TXT_LEN a text port read returned -/
  | txtLen (n : BitVec 7)
  deriving DecidableEq, Repr

/-- The state of FPCORE and its ports. -/
structure State where
  /-- R, the result register (R23) -/
  r : Word
  /-- ERR (R24) -/
  err : Err
  /-- TXT (R25) -/
  txt : Memory
  /-- TXT_LEN, 7 bits (R25) -/
  txtLen : BitVec 7
  /-- CONST, SIN_ROM and TAN_ROM, by the image they hold (R20) -/
  rom : RomImage
  /-- the model's own: how many free values have been drawn (log entry 4) -/
  free : Nat
  /-- the host's coming actions, the next one first (log entry 5) -/
  inbox : List HostAction
  /-- what the ports have given back, the newest first (log entry 6) -/
  replies : List HostReply
  deriving DecidableEq, Repr

/-- Why a step can stop with a fault. No state a run from reset reaches meets one. -/
inductive Fault where
  /-- Raised by PARSE when TXT_LEN reaches past the 64 bytes of TXT: index 64 and above does not exist (R55), and
  TXT_LEN holds 0 to 64 only (R25). Safe: the machine stops where the spec gives no state. Log entry 12. -/
  | noSuchTxtIndex
  deriving DecidableEq, Repr

/-- Why a step can be refused. -/
inductive Refusal where
  /-- Raised by `exec` for an instruction that has no meaning yet (none is left). Safe: nothing is claimed of it. -/
  | notModelled (mnemonic : String)
  deriving DecidableEq, Repr

/-- The state after reset (R260): ERR = OK, TXT_LEN = 0, the ROMs at their build contents, no command in progress.
R = 0 and TXT all zero bytes are the DESIGN CHOICE that R261 permits (log entries 1 and 2); the counter's 0 is the
model's (log entry 4). -/
def State.reset : State where
  r := 0
  err := .ok
  txt := []
  txtLen := 0
  rom := .f10
  free := 0
  inbox := []
  replies := []

end Sys2Proof.Machine
end

