-- ==== Sys2Proof/Machine/Operands.lean ====
section
/-! DEFINITION. The operand reading of R72 and the integer primitives of R14 that every rule is written in. -/

namespace Sys2Proof.Machine

/-- `sext_32` (R14, R72): a 32-bit field read as a two's-complement integer. -/
def sext32 (x : Word) : Int := x.toInt

/-- `zext_32` (R14): a 32-bit field read as an unsigned integer. -/
def zext32 (x : Word) : Nat := x.toNat

/-- The 32-bit pattern whose signed reading is `s32(v)`, and whose unsigned reading is `u32(v)` (R14). -/
def s32 (v : Int) : Word := BitVec.ofInt 32 v

/-- `u32` on naturals (R14): what a 32-bit unsigned register keeps of `v`. -/
def u32 (v : Nat) : Nat := v % 2 ^ 32

/-- `asr(v, n)` (R14): floor(v / 2^n). -/
def asr (v : Int) (n : Nat) : Int := v / 2 ^ n

/-- `lsr(v, n)` (R14) on an unsigned 32-bit register. -/
def lsr (v n : Nat) : Nat := u32 v / 2 ^ n

/-- `shl(v, n)` (R14) on an unsigned 32-bit register: bits above bit 31 are lost. -/
def shl (v n : Nat) : Nat := u32 (v * 2 ^ n)

/-- MAX as an integer (R14, R27). -/
def maxInt : Int := 2147483647

/-- MIN as an integer (R14, R27). -/
def minInt : Int := -2147483648

/-- The raw store MAX (R28). -/
def wordMax : Word := 0x7FFFFFFF

/-- The raw store MIN (R28). -/
def wordMin : Word := 0x80000000

/-- `clamp(v)` (R14). -/
def clamp (v : Int) : Int := if maxInt < v then maxInt else if v < minInt then minInt else v

/-- The sign test of the rules: zero counts as non-negative (R141). -/
def isNeg (x : Word) : Bool := sext32 x < 0

/-- The magnitude of a raw store, 0 to 2^31; that of MIN is 2^31 (R19, R155). -/
def magnitude (x : Word) : Nat := (sext32 x).natAbs

/-- The raw store ONE = 2^F (R27). -/
def wordOne (f : Nat) : Word := s32 (2 ^ f)

/-- The raw store HALF = 2^(F-1) (R27). -/
def wordHalf (f : Nat) : Word := s32 (2 ^ (f - 1))

/-- The mask 2^F - 1 of the fraction bits (R111). -/
def fracMask (f : Nat) : Word := s32 (2 ^ f - 1)

end Sys2Proof.Machine
end

