-- ==== Sys2Proof/Machine/Flags.lean ====
section
/-! DEFINITION. The one status field of FPCORE, ERR, with its codes and the response word (R24, R73, R241), and the
sign-bit overflow detectors of the safe adder and subtractor (R141, R142). There are no arithmetic flags (R24). -/

namespace Sys2Proof.Machine

/-- The code of an error kind (R241). -/
def ErrorKind.code : ErrorKind → BitVec 3
  | .divideByZero => 1
  | .domainError => 2
  | .formatError => 3
  | .illegalCommand => 4

/-- The 3-bit contents of ERR (R24, R241). -/
def Err.code : Err → BitVec 3
  | .ok => 0
  | .raised k => k.code

/-- The response word RSP[34:0], ERR above R (R73). -/
def State.response (s : State) : Response := s.err.code ++ s.r

/-- Addition overflowed: "the operands share a sign different from the result's sign" (R141). -/
def addOverflows (a b r : Word) : Bool := isNeg a == isNeg b && isNeg r != isNeg a

/-- Subtraction overflowed: "operand signs differ and the result's sign differs from the minuend's sign" (R142). -/
def subOverflows (a b r : Word) : Bool := isNeg a != isNeg b && isNeg r != isNeg a

/-- MAX or MIN by a sign (R141, R142, R150): MIN when negative. -/
def saturated (neg : Bool) : Word := if neg then wordMin else wordMax

end Sys2Proof.Machine
end

