-- ==== Sys2Proof/Machine/Ops.lean ====
section
/-! DEFINITION. The named operations every meaning is written over: ending a command with a result or with an error
kind (R101, R243), access to TXT (R25, R50, R55), and its unspecified bytes (U3). -/

namespace Sys2Proof.Machine

/-- What a byte of TXT that nothing has written reads as. DESIGN CHOICE, permitted by R261; log entry 2. -/
def Memory.unlisted : Byte := 0

/-- The byte at index `i`. -/
def Memory.read : Memory → Nat → Byte
  | [], _ => Memory.unlisted
  | (k, b) :: m, i => if k = i then b else Memory.read m i

/-- Store `b` at index `i`, keeping the canonical form. -/
def Memory.write : Memory → Nat → Byte → Memory
  | [], i, b => if b = Memory.unlisted then [] else [(i, b)]
  | (k, c) :: m, i, b =>
    if k < i then (k, c) :: Memory.write m i b
    else if k = i then (if b = Memory.unlisted then m else (i, b) :: m)
    else (if b = Memory.unlisted then (k, c) :: m else (i, b) :: (k, c) :: m)

/-- Store the bytes at consecutive indices from `i` upward. -/
def Memory.writeAll : Memory → Nat → List Byte → Memory
  | m, _, [] => m
  | m, i, b :: bs => Memory.writeAll (Memory.write m i b) (i + 1) bs

/-- The canonical form: indices strictly rising and below TXT_CAP, no entry equal to the unlisted byte. -/
abbrev Memory.wf (m : Memory) : Prop :=
  m.Pairwise (fun c d => c.1 < d.1) ∧ ∀ c ∈ m, c.1 < Config.txtCap ∧ c.2 ≠ Memory.unlisted

/-- `MemRead(TXT, i, 1)` (R15): nothing above index 63 exists (R55). -/
def State.txtRead (s : State) (i : Nat) : Option Byte :=
  if i < Config.txtCap then some (s.txt.read i) else none

/-- The current text TXT[0 .. TXT_LEN-1] (R25), none when TXT_LEN reaches past the buffer. -/
def State.text (s : State) : Option (List Byte) :=
  (List.range s.txtLen.toNat).mapM s.txtRead

/-- The end of a command that completes with a result: R and ERR are written together (R23, R101). -/
def State.complete (s : State) (v : Word) : State := { s with r := v, err := .ok }

/-- `raise <Kind>`, taking an error: ERR is written and nothing else (R15, R243, R248). There is no return from it
and nothing to restore (R249): the next command overwrites ERR. -/
def State.raise (s : State) (k : ErrorKind) : State := { s with err := .raised k }

/-- The end of a command that either has a result or has met an error kind (R243). -/
def State.finish (s : State) : Except ErrorKind Word → State
  | .ok v => s.complete v
  | .error k => s.raise k

/-- Free bytes for the indices `n` to 63, drawn at the state's counter (U3). Log entry 3. -/
def State.freeBytesFrom (s : State) (n : Nat) : List Byte :=
  (List.range (Config.txtCap - n)).map fun j => Config.unspecifiedByte s.free (n + j)

/-- The end of a command that writes a text (R216, R25): TXT[0 .. n-1] are the characters, TXT[n .. 63] are left
unspecified, TXT_LEN = n, ERR = OK, and R is not written. -/
def State.completeText (s : State) (chars : List Byte) : State :=
  { s with
    txt := s.txt.writeAll 0 (chars ++ s.freeBytesFrom chars.length)
    txtLen := BitVec.ofNat 7 chars.length
    free := s.free + 1
    err := .ok }

/-- `MemRead` of a ROM word (R15, R50). The index rules R126 and R181 keep `i` inside the ROM; the zero stands for no
word of any ROM. -/
def romRead (rom : List Word) (i : Nat) : Word := rom.getD i 0

end Sys2Proof.Machine
end

