-- ==== Sys2Proof/Machine/Raw.lean ====
section
/-! DEFINITION. Raw arithmetic (40_raw_arithmetic.md): the pure functions of the rules, written for a general F (R7),
and the meanings of ADD, SUB, NEG, MUL, MOD, ABS, SIGN, the rounding helpers, the comparisons, FROMINT and TOINT at
this hardware's F. DIV is in Divider.lean, LDC in Constants.lean. -/

namespace Sys2Proof.Machine

/-- `add` (R102). -/
def addRaw (a b : Word) : Word := s32 (sext32 a + sext32 b)

/-- `sub` (R103). -/
def subRaw (a b : Word) : Word := s32 (sext32 a - sext32 b)

/-- `neg` (R104): NEG MIN = MIN. -/
def negRaw (a : Word) : Word := s32 (-sext32 a)

/-- `mul` (R105): the exact product, floored, then wrapped. -/
def mulRaw (f : Nat) (a b : Word) : Word := s32 (asr (sext32 a * sext32 b) f)

/-- The multiplier's datapath (R106): four partial products kept to 32 bits. It gives `mulRaw`. -/
def mulDatapath (f : Nat) (a b : Word) : Word :=
  let ahi := a.sshiftRight f
  let alo := a &&& fracMask f
  let bhi := b.sshiftRight f
  let blo := b &&& fracMask f
  let ll := (alo * blo) >>> f
  let lh := alo * bhi
  let hl := ahi * blo
  let hh := (ahi * bhi) <<< f
  ll + lh + hl + hh

/-- The remainder of R108 and R145 for a divisor that is not zero: truncating, with the sign of the dividend. -/
def remainder (a b : Word) : Word :=
  let q := (sext32 a).tdiv (sext32 b)
  s32 (sext32 a - q * sext32 b)

/-- `mod` (R108): the zero divisor is tested first. -/
def modRaw (a b : Word) : Except ErrorKind Word :=
  if b = 0 then .error .divideByZero else .ok (remainder a b)

/-- `abs` (R109): (x + mask) ^ mask with mask the sign spread over the word. ABS MIN = MIN. -/
def absRaw (a : Word) : Word :=
  let mask := s32 (asr (sext32 a) 31)
  s32 (sext32 a + sext32 mask) ^^^ mask

/-- `sign` (R110): the integer -1, 0 or 1. -/
def signRaw (a : Word) : Word :=
  s32 ((if 0 < sext32 a then 1 else 0) - (if sext32 a < 0 then 1 else 0))

/-- `floor` (R111): mask off the fraction bits. -/
def floorRaw (f : Nat) (a : Word) : Word := a &&& ~~~(fracMask f)

/-- The fraction bits of a raw store, 0 to 2^F - 1 (R112, R114). -/
def fraction (f : Nat) (a : Word) : Nat := zext32 (a &&& fracMask f)

/-- `ceil` (R112): floor, then one whole unit more if any fraction bit was set, wrapping. -/
def ceilRaw (f : Nat) (a : Word) : Word :=
  let fl := floorRaw f a
  if fraction f a ≠ 0 then s32 (sext32 fl + 2 ^ f) else fl

/-- `round` (R113): add HALF with wraparound, then floor. -/
def roundRaw (f : Nat) (a : Word) : Word := floorRaw f (s32 (sext32 a + 2 ^ (f - 1)))

/-- `rndeven` (R114): nearest whole unit, ties to the even one, wrapping. -/
def rndEvenRaw (f : Nat) (a : Word) : Word :=
  let fl := floorRaw f a
  let fr := fraction f a
  if 2 ^ (f - 1) < fr then s32 (sext32 fl + 2 ^ f)
  else if fr < 2 ^ (f - 1) then fl
  else if asr (sext32 fl) f % 2 = 1 then s32 (sext32 fl + 2 ^ f)
  else fl

/-- The result of a comparison in R (R115): 1 for true, 0 for false. -/
def truth (p : Bool) : Word := if p then 1 else 0

/-- `fromint` (R121): shift left by F, wrapping. -/
def fromIntRaw (f : Nat) (n : Word) : Word := s32 (sext32 n * 2 ^ f)

/-- `toint` (R122): arithmetic shift right by F, a floor. -/
def toIntRaw (f : Nat) (a : Word) : Word := s32 (asr (sext32 a) f)

/-- ADD (R102). -/
def execAdd (a b : Word) (s : State) : Host.Outcome State Fault Refusal := .next (s.complete (addRaw a b))

/-- SUB (R103). -/
def execSub (a b : Word) (s : State) : Host.Outcome State Fault Refusal := .next (s.complete (subRaw a b))

/-- MUL (R105). -/
def execMul (a b : Word) (s : State) : Host.Outcome State Fault Refusal :=
  .next (s.complete (mulRaw Config.F a b))

/-- MOD (R108): DivideByZero for a zero divisor. -/
def execMod (a b : Word) (s : State) : Host.Outcome State Fault Refusal := .next (s.finish (modRaw a b))

/-- NEG (R104). -/
def execNeg (a : Word) (s : State) : Host.Outcome State Fault Refusal := .next (s.complete (negRaw a))

/-- ABS (R109). -/
def execAbs (a : Word) (s : State) : Host.Outcome State Fault Refusal := .next (s.complete (absRaw a))

/-- SIGN (R110). -/
def execSign (a : Word) (s : State) : Host.Outcome State Fault Refusal := .next (s.complete (signRaw a))

/-- FLOOR (R111). -/
def execFloor (a : Word) (s : State) : Host.Outcome State Fault Refusal :=
  .next (s.complete (floorRaw Config.F a))

/-- CEIL (R112). -/
def execCeil (a : Word) (s : State) : Host.Outcome State Fault Refusal :=
  .next (s.complete (ceilRaw Config.F a))

/-- ROUND (R113). -/
def execRound (a : Word) (s : State) : Host.Outcome State Fault Refusal :=
  .next (s.complete (roundRaw Config.F a))

/-- RNDEVEN (R114). -/
def execRndEven (a : Word) (s : State) : Host.Outcome State Fault Refusal :=
  .next (s.complete (rndEvenRaw Config.F a))

/-- CMPLT (R115). -/
def execCmpLt (a b : Word) (s : State) : Host.Outcome State Fault Refusal :=
  .next (s.complete (truth (sext32 a < sext32 b)))

/-- CMPGT (R116). -/
def execCmpGt (a b : Word) (s : State) : Host.Outcome State Fault Refusal :=
  .next (s.complete (truth (sext32 b < sext32 a)))

/-- CMPLE (R117). -/
def execCmpLe (a b : Word) (s : State) : Host.Outcome State Fault Refusal :=
  .next (s.complete (truth (sext32 a ≤ sext32 b)))

/-- CMPGE (R118). -/
def execCmpGe (a b : Word) (s : State) : Host.Outcome State Fault Refusal :=
  .next (s.complete (truth (sext32 b ≤ sext32 a)))

/-- CMPEQ (R119): equality of the two patterns. -/
def execCmpEq (a b : Word) (s : State) : Host.Outcome State Fault Refusal :=
  .next (s.complete (truth (a == b)))

/-- FROMINT (R121). -/
def execFromInt (a : Word) (s : State) : Host.Outcome State Fault Refusal :=
  .next (s.complete (fromIntRaw Config.F a))

/-- TOINT (R122). -/
def execToInt (a : Word) (s : State) : Host.Outcome State Fault Refusal :=
  .next (s.complete (toIntRaw Config.F a))

end Sys2Proof.Machine
end

