-- ==== Sys2Proof/Machine/Safe.lean ====
section
/-! DEFINITION. Overflow-safe arithmetic (41_safe_arithmetic.md): SADD, SSUB, SMUL, SMOD, SABS. SDIV is in
Divider.lean. -/

namespace Sys2Proof.Machine

/-- `sadd` (R141): the sign-bit detector, clamped by the sign of the first operand. -/
def addSafe (a b : Word) : Word :=
  let r := addRaw a b
  if addOverflows a b r then saturated (isNeg a) else r

/-- `ssub` (R142): the sign-bit detector, clamped by the sign of the minuend. -/
def subSafe (a b : Word) : Word :=
  let r := subRaw a b
  if subOverflows a b r then saturated (isNeg a) else r

/-- `smul` (R143): the floored exact product, clamped. R144 leaves the detector free as long as its result is this;
log entry 15. -/
def mulSafe (f : Nat) (a b : Word) : Word := s32 (clamp (asr (sext32 a * sext32 b) f))

/-- `smod` (R145): the zero divisor first, then the pair MIN, -1, then the truncating remainder. -/
def modSafe (a b : Word) : Except ErrorKind Word :=
  if b = 0 then .error .divideByZero
  else if a = wordMin ∧ b = s32 (-1) then .ok 0
  else .ok (remainder a b)

/-- `sabs` (R146): MIN gives MAX, otherwise as `abs`. -/
def absSafe (a : Word) : Word := if a = wordMin then wordMax else absRaw a

/-- SADD (R141). -/
def execSAdd (a b : Word) (s : State) : Host.Outcome State Fault Refusal := .next (s.complete (addSafe a b))

/-- SSUB (R142). -/
def execSSub (a b : Word) (s : State) : Host.Outcome State Fault Refusal := .next (s.complete (subSafe a b))

/-- SMUL (R143). -/
def execSMul (a b : Word) (s : State) : Host.Outcome State Fault Refusal :=
  .next (s.complete (mulSafe Config.F a b))

/-- SMOD (R145): DivideByZero for a zero divisor. -/
def execSMod (a b : Word) (s : State) : Host.Outcome State Fault Refusal := .next (s.finish (modSafe a b))

/-- SABS (R146). -/
def execSAbs (a : Word) (s : State) : Host.Outcome State Fault Refusal := .next (s.complete (absSafe a))

end Sys2Proof.Machine
end

