-- ==== Sys2Proof/Machine/Divider.lean ====
section
/-! DEFINITION. The divider (42_divider.md): the closed formula of DIV and SDIV (R150, R151), which is the meaning, and
beside it the long-division engine with its leading-zero count and its restoring divide step (R152 to R154), which
R156 says gives the same result. -/

namespace Sys2Proof.Machine

/-- The quotient of R150 for a divisor that is not zero: round half up on the magnitude, saturate by the sign found
first. -/
def quotient (f : Nat) (a b : Word) : Word :=
  let neg := isNeg a != isNeg b
  let q2 := magnitude a * 2 ^ (f + 1) / magnitude b
  let m := (q2 + 1) / 2
  if maxInt < (m : Int) then saturated neg else s32 (if neg then -(m : Int) else m)

/-- `div` (R150): the zero divisor is tested before anything else. -/
def divRaw (f : Nat) (a b : Word) : Except ErrorKind Word :=
  if b = 0 then .error .divideByZero else .ok (quotient f a b)

/-- The safe division (R151): one engine serves both commands. -/
def divSafe (f : Nat) (a b : Word) : Except ErrorKind Word := divRaw f a b

/-! ### The engine. A register is a natural number; each write that the rule narrows is narrowed here. -/

/-- The four-bits-at-a-time loop of the leading-zero count (R153), at most `fuel` passes: the count and the shifted
word. -/
def clzFours : Nat → Nat → Nat → Nat × Nat
  | 0, n, x => (n, x)
  | fuel + 1, n, x => if x &&& 0xF0000000 = 0 then clzFours fuel (n + 4) (shl x 4) else (n, x)

/-- The one-bit-at-a-time loop of the leading-zero count (R153). -/
def clzOnes : Nat → Nat → Nat → Nat
  | 0, n, _ => n
  | fuel + 1, n, x => if x &&& 0x80000000 = 0 then clzOnes fuel (n + 1) (shl x 1) else n

/-- `clz32` (R153) of a word that is not zero. Eight passes of four bits and four of one bit suffice. -/
def clz32 (x : Nat) : Nat :=
  let p := clzFours 8 0 x
  clzOnes 4 p.1 p.2

/-- The bits `i - 1` down to 0 of the restoring divide step (R154): shift the partial remainder left, bring in the next
dividend bit, subtract the divisor, restore when negative. Partial remainder and quotient so far in, both out. -/
def restoringBits (x dv : Nat) : Nat → Nat → Nat → Nat × Nat
  | 0, rem, q => (rem, q)
  | i + 1, rem, q =>
    let rem' := 2 * rem + x / 2 ^ i % 2
    if rem' < dv then restoringBits x dv i rem' (2 * q) else restoringBits x dv i (rem' - dv) (2 * q + 1)

/-- The inner divide step (R154) on a 32-bit dividend: the remainder and the quotient digit. -/
def restoringDivide (x dv : Nat) : Nat × Nat := restoringBits x dv 32 0 0

/-- The divisor-reduction loop of R152: while divisible by 16 and at least four positions remain, drop four bits. -/
def reduceDivisor : Nat → Nat → Nat → Nat × Nat
  | 0, dv, pos => (dv, pos)
  | fuel + 1, dv, pos =>
    if dv &&& 0xF = 0 ∧ 4 ≤ pos then reduceDivisor fuel (lsr dv 4) (pos - 4) else (dv, pos)

/-- The main loop of R152: `none` is the digit-overflow exit, otherwise the 33-bit quotient accumulator at the end. -/
def digitLoop (dv : Nat) : Nat → Nat → Nat → Int → Option Nat
  | 0, _, quo, _ => some quo
  | fuel + 1, rem, quo, pos =>
    if rem = 0 ∨ pos < 0 then some quo
    else
      let sh := min (clz32 rem) pos.toNat
      let rem1 := u32 (rem * 2 ^ sh)
      let pos1 := pos.toNat - sh
      let p := restoringDivide rem1 dv
      if p.2 / 2 ^ (32 - pos1) ≠ 0 then none
      else digitLoop dv fuel (u32 (p.1 * 2)) ((quo + p.2 * 2 ^ pos1) % 2 ^ 33) ((pos1 : Int) - 1)

/-- The long-division engine (R152), with the loop bounds of R157. -/
def divEngine (f : Nat) (a b : Word) : Except ErrorKind Word :=
  if b = 0 then .error .divideByZero
  else
    let neg := (a ^^^ b) &&& 0x80000000 != 0
    let rem := zext32 (if isNeg a then negRaw a else a)
    let dv0 := zext32 (if isNeg b then negRaw b else b)
    let p := reduceDivisor ((f + 1) / 4) dv0 (f + 1)
    match digitLoop p.1 (f + 2) rem 0 p.2 with
    | none => .ok (saturated neg)
    | some quo =>
      let m := (quo + 1) / 2
      if maxInt < (m : Int) then .ok (saturated neg) else .ok (s32 (if neg then -(m : Int) else m))

/-- DIV (R150): DivideByZero for a zero divisor. -/
def execDiv (a b : Word) (s : State) : Host.Outcome State Fault Refusal :=
  .next (s.finish (divRaw Config.F a b))

/-- SDIV (R151): DivideByZero for a zero divisor. -/
def execSDiv (a b : Word) (s : State) : Host.Outcome State Fault Refusal :=
  .next (s.finish (divSafe Config.F a b))

end Sys2Proof.Machine
end

