-- ==== Sys2Proof/Machine/Sqrt.lean ====
section
/-! DEFINITION. The square root (43_sqrt.md): the closed formula of SQRT (R165), which is the meaning, and beside it
the digit-by-digit procedure with its correction term (R166, R167), which R168 says gives the same result. -/

namespace Sys2Proof.Machine

/-- The bits `k - 1` down to 0 of the integer square root: set each bit that keeps the square at most `n`. -/
def isqrtBits (n : Nat) : Nat → Nat → Nat
  | 0, r => r
  | k + 1, r => if (r + 2 ^ k) * (r + 2 ^ k) ≤ n then isqrtBits n k (r + 2 ^ k) else isqrtBits n k r

/-- `isqrt(n)` (R165), the largest r with r·r ≤ n, for n < 2^48: every radicand is below 2^47 (F ≤ 16). -/
def isqrt (n : Nat) : Nat := isqrtBits n 24 0

/-- The rounded root of R165 for a raw store that is not negative. -/
def rootNearest (f n : Nat) : Nat :=
  let m := n * 2 ^ f
  let r := isqrt m
  if r < m - r * r then r + 1 else r

/-- SQRT's function (R165): DomainError for a negative raw store. -/
def sqrtRaw (f : Nat) (a : Word) : Except ErrorKind Word :=
  if sext32 a < 0 then .error .domainError else .ok (s32 (rootNearest f (zext32 a)))

/-! ### The procedure. Registers `num`, `res`, `bit` are 32 bits; each write is narrowed. -/

/-- The skipping loop of R166: `while bit > num do bit = lsr(bit, 2)`. -/
def skipBits (num : Nat) : Nat → Nat → Nat
  | 0, bit => bit
  | fuel + 1, bit => if num < bit then skipBits num fuel (lsr bit 2) else bit

/-- The digit loop of R166, from `bit` down to 0: the registers `num` and `res` at its end. -/
def rootDigits : Nat → Nat → Nat → Nat → Nat × Nat
  | 0, num, res, _ => (num, res)
  | fuel + 1, num, res, bit =>
    if bit = 0 then (num, res)
    else if res + bit ≤ num then rootDigits fuel (num - (res + bit)) (lsr res 1 + bit) (lsr bit 2)
    else rootDigits fuel num (lsr res 1) (lsr bit 2)

/-- The second pass's starting registers `num`, `res`, `bit`: the shift by F (R166), or the correction term when the
remainder would overflow that shift (R167). -/
def rescale (f num res : Nat) : Nat × Nat × Nat :=
  if num < 2 ^ (32 - f) then (u32 (num * 2 ^ f), u32 (res * 2 ^ f), 2 ^ (f - 2))
  else (u32 ((num - res) * 2 ^ f - 2 ^ (f - 2)), u32 (res * 2 ^ (f - 1) + 2 ^ (f - 2)), 2 ^ (f - 4))

/-- The digit-by-digit procedure (R166, R167), with the loop bounds of R169. -/
def sqrtProcedure (f : Nat) (a : Word) : Except ErrorKind Word :=
  if sext32 a < 0 then .error .domainError
  else
    let num := zext32 a
    let first := rootDigits 16 num 0 (skipBits num 16 (2 ^ 30))
    let start := rescale f first.1 first.2
    let last := rootDigits (f / 2) start.1 start.2.1 start.2.2
    .ok (s32 (u32 (if last.2 < last.1 then last.2 + 1 else last.2) : Nat))

/-- SQRT (R165): DomainError below zero. -/
def execSqrt (a : Word) (s : State) : Host.Outcome State Fault Refusal :=
  .next (s.finish (sqrtRaw Config.F a))

end Sys2Proof.Machine
end

