-- ==== Sys2Proof/Machine/TanRom.lean ====
section
/-! DEFINITION. The words of TAN_ROM at F = 10, as R231 lists them (47_lut_rom_tan_f10.md): word i is floor(tan((π/2) · i / 1608) · 1024), the last word MAX. -/

namespace Sys2Proof.Machine

/-- TAN_ROM[0 .. 99] (R231). -/
def tanRomPart00 : List Nat :=
  [0, 1, 2, 3, 4, 5, 6, 7, 8, 9, 10, 11, 12, 13, 14, 15, 16, 17, 18, 19,
   20, 21, 22, 23, 24, 25, 26, 27, 28, 29, 30, 31, 32, 33, 34, 35, 36, 37, 38, 39,
   40, 41, 42, 43, 44, 45, 46, 47, 48, 49, 50, 51, 52, 53, 54, 55, 56, 57, 58, 59,
   60, 61, 62, 63, 64, 65, 66, 67, 68, 69, 70, 71, 72, 73, 74, 75, 76, 77, 78, 79,
   80, 81, 82, 83, 84, 85, 86, 87, 88, 89, 90, 91, 92, 93, 94, 95, 96, 97, 98, 99]

/-- TAN_ROM[100 .. 199] (R231). -/
def tanRomPart01 : List Nat :=
  [100, 101, 102, 103, 104, 105, 106, 107, 108, 109, 110, 111, 112, 113, 114, 115, 116, 117, 118, 119,
   120, 121, 122, 123, 124, 125, 126, 127, 128, 129, 130, 131, 132, 133, 134, 135, 136, 137, 138, 139,
   140, 141, 142, 143, 145, 146, 147, 148, 149, 150, 151, 152, 153, 154, 155, 156, 157, 158, 159, 160,
   161, 162, 163, 164, 165, 166, 167, 168, 169, 170, 171, 172, 173, 174, 175, 176, 177, 178, 179, 180,
   181, 182, 183, 185, 186, 187, 188, 189, 190, 191, 192, 193, 194, 195, 196, 197, 198, 199, 200, 201]

/-- TAN_ROM[200 .. 299] (R231). -/
def tanRomPart02 : List Nat :=
  [202, 203, 204, 205, 206, 207, 208, 209, 210, 212, 213, 214, 215, 216, 217, 218, 219, 220, 221, 222,
   223, 224, 225, 226, 227, 228, 229, 230, 231, 232, 234, 235, 236, 237, 238, 239, 240, 241, 242, 243,
   244, 245, 246, 247, 248, 249, 250, 251, 253, 254, 255, 256, 257, 258, 259, 260, 261, 262, 263, 264,
   265, 266, 267, 269, 270, 271, 272, 273, 274, 275, 276, 277, 278, 279, 280, 281, 282, 284, 285, 286,
   287, 288, 289, 290, 291, 292, 293, 294, 295, 297, 298, 299, 300, 301, 302, 303, 304, 305, 306, 307]

/-- TAN_ROM[300 .. 399] (R231). -/
def tanRomPart03 : List Nat :=
  [308, 310, 311, 312, 313, 314, 315, 316, 317, 318, 319, 321, 322, 323, 324, 325, 326, 327, 328, 329,
   330, 332, 333, 334, 335, 336, 337, 338, 339, 340, 342, 343, 344, 345, 346, 347, 348, 349, 350, 352,
   353, 354, 355, 356, 357, 358, 359, 361, 362, 363, 364, 365, 366, 367, 368, 370, 371, 372, 373, 374,
   375, 376, 378, 379, 380, 381, 382, 383, 384, 385, 387, 388, 389, 390, 391, 392, 393, 395, 396, 397,
   398, 399, 400, 402, 403, 404, 405, 406, 407, 408, 410, 411, 412, 413, 414, 415, 417, 418, 419, 420]

/-- TAN_ROM[400 .. 499] (R231). -/
def tanRomPart04 : List Nat :=
  [421, 422, 424, 425, 426, 427, 428, 430, 431, 432, 433, 434, 435, 437, 438, 439, 440, 441, 443, 444,
   445, 446, 447, 448, 450, 451, 452, 453, 454, 456, 457, 458, 459, 460, 462, 463, 464, 465, 466, 468,
   469, 470, 471, 473, 474, 475, 476, 477, 479, 480, 481, 482, 484, 485, 486, 487, 488, 490, 491, 492,
   493, 495, 496, 497, 498, 500, 501, 502, 503, 504, 506, 507, 508, 509, 511, 512, 513, 514, 516, 517,
   518, 519, 521, 522, 523, 525, 526, 527, 528, 530, 531, 532, 533, 535, 536, 537, 539, 540, 541, 542]

/-- TAN_ROM[500 .. 599] (R231). -/
def tanRomPart05 : List Nat :=
  [544, 545, 546, 547, 549, 550, 551, 553, 554, 555, 557, 558, 559, 560, 562, 563, 564, 566, 567, 568,
   570, 571, 572, 573, 575, 576, 577, 579, 580, 581, 583, 584, 585, 587, 588, 589, 591, 592, 593, 595,
   596, 597, 599, 600, 601, 603, 604, 605, 607, 608, 610, 611, 612, 614, 615, 616, 618, 619, 620, 622,
   623, 625, 626, 627, 629, 630, 631, 633, 634, 636, 637, 638, 640, 641, 643, 644, 645, 647, 648, 650,
   651, 652, 654, 655, 657, 658, 659, 661, 662, 664, 665, 666, 668, 669, 671, 672, 674, 675, 677, 678]

/-- TAN_ROM[600 .. 699] (R231). -/
def tanRomPart06 : List Nat :=
  [679, 681, 682, 684, 685, 687, 688, 690, 691, 692, 694, 695, 697, 698, 700, 701, 703, 704, 706, 707,
   709, 710, 712, 713, 715, 716, 718, 719, 720, 722, 723, 725, 726, 728, 730, 731, 733, 734, 736, 737,
   739, 740, 742, 743, 745, 746, 748, 749, 751, 752, 754, 755, 757, 759, 760, 762, 763, 765, 766, 768,
   769, 771, 773, 774, 776, 777, 779, 780, 782, 784, 785, 787, 788, 790, 792, 793, 795, 796, 798, 800,
   801, 803, 804, 806, 808, 809, 811, 813, 814, 816, 818, 819, 821, 822, 824, 826, 827, 829, 831, 832]

/-- TAN_ROM[700 .. 799] (R231). -/
def tanRomPart07 : List Nat :=
  [834, 836, 837, 839, 841, 842, 844, 846, 847, 849, 851, 853, 854, 856, 858, 859, 861, 863, 864, 866,
   868, 870, 871, 873, 875, 877, 878, 880, 882, 883, 885, 887, 889, 890, 892, 894, 896, 898, 899, 901,
   903, 905, 906, 908, 910, 912, 914, 915, 917, 919, 921, 923, 924, 926, 928, 930, 932, 934, 935, 937,
   939, 941, 943, 945, 946, 948, 950, 952, 954, 956, 958, 960, 961, 963, 965, 967, 969, 971, 973, 975,
   977, 978, 980, 982, 984, 986, 988, 990, 992, 994, 996, 998, 1000, 1002, 1004, 1006, 1008, 1010, 1012, 1014]

/-- TAN_ROM[800 .. 899] (R231). -/
def tanRomPart08 : List Nat :=
  [1016, 1018, 1020, 1022, 1024, 1026, 1028, 1030, 1032, 1034, 1036, 1038, 1040, 1042, 1044, 1046, 1048, 1050, 1052, 1054,
   1056, 1058, 1060, 1062, 1064, 1066, 1068, 1071, 1073, 1075, 1077, 1079, 1081, 1083, 1085, 1087, 1090, 1092, 1094, 1096,
   1098, 1100, 1102, 1105, 1107, 1109, 1111, 1113, 1116, 1118, 1120, 1122, 1124, 1127, 1129, 1131, 1133, 1135, 1138, 1140,
   1142, 1144, 1147, 1149, 1151, 1153, 1156, 1158, 1160, 1163, 1165, 1167, 1169, 1172, 1174, 1176, 1179, 1181, 1183, 1186,
   1188, 1190, 1193, 1195, 1198, 1200, 1202, 1205, 1207, 1209, 1212, 1214, 1217, 1219, 1221, 1224, 1226, 1229, 1231, 1234]

/-- TAN_ROM[900 .. 999] (R231). -/
def tanRomPart09 : List Nat :=
  [1236, 1239, 1241, 1244, 1246, 1248, 1251, 1253, 1256, 1258, 1261, 1264, 1266, 1269, 1271, 1274, 1276, 1279, 1281, 1284,
   1287, 1289, 1292, 1294, 1297, 1299, 1302, 1305, 1307, 1310, 1313, 1315, 1318, 1321, 1323, 1326, 1329, 1331, 1334, 1337,
   1339, 1342, 1345, 1348, 1350, 1353, 1356, 1359, 1361, 1364, 1367, 1370, 1372, 1375, 1378, 1381, 1384, 1387, 1389, 1392,
   1395, 1398, 1401, 1404, 1407, 1409, 1412, 1415, 1418, 1421, 1424, 1427, 1430, 1433, 1436, 1439, 1442, 1445, 1448, 1451,
   1454, 1457, 1460, 1463, 1466, 1469, 1472, 1475, 1478, 1481, 1484, 1488, 1491, 1494, 1497, 1500, 1503, 1506, 1510, 1513]

/-- TAN_ROM[1000 .. 1099] (R231). -/
def tanRomPart10 : List Nat :=
  [1516, 1519, 1522, 1526, 1529, 1532, 1535, 1539, 1542, 1545, 1548, 1552, 1555, 1558, 1562, 1565, 1568, 1572, 1575, 1578,
   1582, 1585, 1589, 1592, 1595, 1599, 1602, 1606, 1609, 1613, 1616, 1620, 1623, 1627, 1630, 1634, 1637, 1641, 1644, 1648,
   1652, 1655, 1659, 1662, 1666, 1670, 1673, 1677, 1681, 1685, 1688, 1692, 1696, 1699, 1703, 1707, 1711, 1715, 1718, 1722,
   1726, 1730, 1734, 1738, 1742, 1745, 1749, 1753, 1757, 1761, 1765, 1769, 1773, 1777, 1781, 1785, 1789, 1793, 1797, 1801,
   1806, 1810, 1814, 1818, 1822, 1826, 1831, 1835, 1839, 1843, 1847, 1852, 1856, 1860, 1865, 1869, 1873, 1878, 1882, 1886]

/-- TAN_ROM[1100 .. 1199] (R231). -/
def tanRomPart11 : List Nat :=
  [1891, 1895, 1900, 1904, 1909, 1913, 1918, 1922, 1927, 1931, 1936, 1940, 1945, 1950, 1954, 1959, 1963, 1968, 1973, 1978,
   1982, 1987, 1992, 1997, 2001, 2006, 2011, 2016, 2021, 2026, 2031, 2036, 2041, 2046, 2051, 2056, 2061, 2066, 2071, 2076,
   2081, 2086, 2091, 2097, 2102, 2107, 2112, 2118, 2123, 2128, 2133, 2139, 2144, 2150, 2155, 2160, 2166, 2171, 2177, 2182,
   2188, 2194, 2199, 2205, 2210, 2216, 2222, 2228, 2233, 2239, 2245, 2251, 2257, 2262, 2268, 2274, 2280, 2286, 2292, 2298,
   2304, 2310, 2316, 2323, 2329, 2335, 2341, 2347, 2354, 2360, 2366, 2373, 2379, 2385, 2392, 2398, 2405, 2411, 2418, 2425]

/-- TAN_ROM[1200 .. 1299] (R231). -/
def tanRomPart12 : List Nat :=
  [2431, 2438, 2445, 2451, 2458, 2465, 2472, 2479, 2485, 2492, 2499, 2506, 2513, 2520, 2527, 2534, 2542, 2549, 2556, 2563,
   2571, 2578, 2585, 2593, 2600, 2608, 2615, 2623, 2630, 2638, 2645, 2653, 2661, 2669, 2676, 2684, 2692, 2700, 2708, 2716,
   2724, 2732, 2740, 2749, 2757, 2765, 2774, 2782, 2790, 2799, 2807, 2816, 2824, 2833, 2842, 2850, 2859, 2868, 2877, 2886,
   2895, 2904, 2913, 2922, 2931, 2940, 2950, 2959, 2968, 2978, 2987, 2997, 3006, 3016, 3026, 3036, 3045, 3055, 3065, 3075,
   3085, 3095, 3106, 3116, 3126, 3136, 3147, 3157, 3168, 3178, 3189, 3200, 3211, 3222, 3233, 3244, 3255, 3266, 3277, 3288]

/-- TAN_ROM[1300 .. 1399] (R231). -/
def tanRomPart13 : List Nat :=
  [3300, 3311, 3323, 3334, 3346, 3357, 3369, 3381, 3393, 3405, 3417, 3429, 3442, 3454, 3466, 3479, 3492, 3504, 3517, 3530,
   3543, 3556, 3569, 3582, 3595, 3609, 3622, 3636, 3649, 3663, 3677, 3691, 3705, 3719, 3733, 3748, 3762, 3777, 3791, 3806,
   3821, 3836, 3851, 3866, 3882, 3897, 3913, 3928, 3944, 3960, 3976, 3992, 4009, 4025, 4041, 4058, 4075, 4092, 4109, 4126,
   4143, 4161, 4178, 4196, 4214, 4232, 4250, 4268, 4287, 4306, 4324, 4343, 4362, 4382, 4401, 4420, 4440, 4460, 4480, 4500,
   4521, 4541, 4562, 4583, 4604, 4626, 4647, 4669, 4691, 4713, 4735, 4758, 4780, 4803, 4826, 4850, 4873, 4897, 4921, 4945]

/-- TAN_ROM[1400 .. 1499] (R231). -/
def tanRomPart14 : List Nat :=
  [4970, 4994, 5019, 5044, 5070, 5095, 5121, 5147, 5174, 5201, 5228, 5255, 5282, 5310, 5338, 5366, 5395, 5424, 5453, 5483,
   5512, 5543, 5573, 5604, 5635, 5667, 5698, 5730, 5763, 5796, 5829, 5863, 5897, 5931, 5966, 6001, 6037, 6073, 6109, 6146,
   6183, 6221, 6259, 6297, 6337, 6376, 6416, 6457, 6498, 6539, 6581, 6624, 6667, 6711, 6755, 6800, 6845, 6891, 6938, 6985,
   7033, 7081, 7131, 7180, 7231, 7282, 7334, 7387, 7440, 7494, 7549, 7605, 7662, 7719, 7778, 7837, 7897, 7958, 8020, 8082,
   8146, 8211, 8277, 8344, 8412, 8481, 8551, 8622, 8695, 8769, 8844, 8920, 8997, 9076, 9157, 9238, 9322, 9406, 9492, 9580]

/-- TAN_ROM[1500 .. 1599] (R231). -/
def tanRomPart15 : List Nat :=
  [9670, 9761, 9853, 9948, 10044, 10142, 10242, 10345, 10449, 10555, 10663, 10774, 10887, 11002, 11120, 11240, 11363, 11488, 11617, 11748,
   11882, 12019, 12160, 12304, 12451, 12601, 12756, 12914, 13076, 13242, 13413, 13587, 13767, 13951, 14140, 14335, 14535, 14740, 14951, 15169,
   15392, 15623, 15860, 16105, 16357, 16617, 16886, 17164, 17450, 17747, 18053, 18371, 18700, 19040, 19394, 19760, 20141, 20536, 20948, 21376,
   21822, 22287, 22772, 23279, 23809, 24363, 24944, 25553, 26192, 26865, 27572, 28318, 29106, 29938, 30819, 31754, 32747, 33804, 34931, 36136,
   37428, 38815, 40308, 41921, 43669, 45568, 47640, 49909, 52405, 55164, 58230, 61656, 65510, 69878, 74870, 80630, 87350, 95292, 104821, 116469]

/-- TAN_ROM[1600 .. 1608] (R231). -/
def tanRomPart16 : List Nat :=
  [131028, 149748, 174706, 209648, 262061, 349416, 524125, 1048252, 2147483647]

/-- All 1609 numbers of TAN_ROM (R231). -/
def tanRomNumbers : List Nat :=
  tanRomPart00 ++
  (tanRomPart01 ++
  (tanRomPart02 ++
  (tanRomPart03 ++
  (tanRomPart04 ++
  (tanRomPart05 ++
  (tanRomPart06 ++
  (tanRomPart07 ++
  (tanRomPart08 ++
  (tanRomPart09 ++
  (tanRomPart10 ++
  (tanRomPart11 ++
  (tanRomPart12 ++
  (tanRomPart13 ++
  (tanRomPart14 ++
  (tanRomPart15 ++
  (tanRomPart16))))))))))))))))

/-- TAN_ROM at F = 10: the 32-bit patterns of the listed numbers (R231). -/
def tanRomF10 : List Word := tanRomNumbers.map (BitVec.ofNat 32)

end Sys2Proof.Machine
end

