-- ==== Sys2Proof/Machine/Constants.lean ====
section
/-! DEFINITION. The constant memory CONST (R26 to R28), the build that the ROM image names (R12, R20), and LDC (R126). -/

namespace Sys2Proof.Machine

/-- CONST at F = 10, index 0 to 11 (R28): ZERO, ONE, TWO, HALF, PRECISION, MAX, MIN, PI, PI2, PIO2, PI_INV,
PIO2_INV. -/
def constRomF10 : List Word :=
  [0x00000000, 0x00000400, 0x00000800, 0x00000200, 0x00000001, 0x7FFFFFFF, 0x80000000,
   0x00000C90, 0x00001922, 0x00000648, 0x00000146, 0x0000028B]

/-- The build at F = 10: N = PIO2 + 1 = 1609 (R9), ATAN_K = 287 (R196). -/
def buildF10 : Config.Build where
  fracBits := Config.F
  lutSize := 1609
  constRom := constRomF10
  sinRom := sinRomF10
  tanRom := tanRomF10
  atanK := 287

/-- The contents a ROM image stands for. -/
def RomImage.build : RomImage → Config.Build
  | .f10 => buildF10

/-- PI, read by name (R26). -/
def piOf (bd : Config.Build) : Word := romRead bd.constRom 7

/-- PI2, read by name (R26). -/
def pi2Of (bd : Config.Build) : Word := romRead bd.constRom 8

/-- PIO2, read by name (R26). -/
def pio2Of (bd : Config.Build) : Word := romRead bd.constRom 9

/-- PIO2_INV, read by name (R26). -/
def pio2InvOf (bd : Config.Build) : Word := romRead bd.constRom 11

/-- `N = LUT_SIZE` of a build with `f` fractional bits whose constant π/2 is `pio2` (R9): PIO2 + 1, or the open
parameter when the build interpolates. -/
def lutSizeOf (f : Nat) (pio2 : Word) : Nat :=
  if Config.interp f then Config.lutSizeInterp else zext32 pio2 + 1

/-- LDC's function (R126): the index, read as unsigned, must not exceed 11. -/
def loadConst (bd : Config.Build) (a : Word) : Except ErrorKind Word :=
  if 11 < zext32 a then .error .illegalCommand else .ok (romRead bd.constRom (zext32 a))

/-- LDC (R126). -/
def execLdc (a : Word) (s : State) : Host.Outcome State Fault Refusal :=
  .next (s.finish (loadConst s.rom.build a))

end Sys2Proof.Machine
end

