-- ==== Sys2Proof/Machine/Trig.lean ====
section
/-! DEFINITION. The trigonometric subsystem (44_trig.md): the table lookup, direct and interpolated (R180 to R184),
the quadrant reduction with SIN, COS and TAN (R186, R188, R189), and ATAN2 (R192). The functions take the build, so
that they serve every legal F; the meanings use the build of the ROM image fitted. -/

namespace Sys2Proof.Machine

/-- `cl(i)` (R181): an index clamped into 0 .. N - 1. -/
def clampIndex (n : Nat) (i : Int) : Nat :=
  if i < 0 then 0 else if (n : Int) - 1 < i then n - 1 else i.toNat

/-- The direct lookup (R182), used when INTERP is false. -/
def lookupDirect (n : Nat) (table : List Word) (r : Word) (rev : Bool) : Word :=
  let i := if rev then ((n : Int) - 1) - sext32 r else sext32 r
  romRead table (clampIndex n i)

/-- IDX_SCALE (R184): the table steps per radian. -/
def indexScale (f n : Nat) (pio2Inv : Word) : Word :=
  mulRaw f (fromIntRaw f (s32 ((n : Int) - 1))) pio2Inv

/-- The interpolated lookup (R183), used when INTERP is true; every operation is a raw one. -/
def lookupInterpolated (f n : Nat) (pio2Inv : Word) (table : List Word) (r : Word) (rev : Bool) : Word :=
  let fidx := mulRaw f r (indexScale f n pio2Inv)
  let near := rndEvenRaw f fidx
  let i0 := sext32 (toIntRaw f near)
  let err := subRaw fidx near
  let sg := sext32 (signRaw err)
  let w := absRaw err
  let j0 := if rev then ((n : Int) - 1) - i0 else i0
  let j1 := if rev then j0 - sg else j0 + sg
  let t0 := romRead table (clampIndex n j0)
  let t1 := romRead table (clampIndex n j1)
  addRaw t0 (mulRaw f (subRaw t1 t0) w)

/-- `lookup(T, r, rev)` (R180). -/
def lookup (bd : Config.Build) (table : List Word) (r : Word) (rev : Bool) : Word :=
  if Config.interp bd.fracBits then
    lookupInterpolated bd.fracBits bd.lutSize (pio2InvOf bd) table r rev
  else lookupDirect bd.lutSize table r rev

/-- A folded angle with its mirror flags: `fv` flip-vertical, `fh` flip-horizontal (R19, R186). -/
structure Folded where
  r : Word
  fv : Bool
  fh : Bool
  deriving DecidableEq, Repr

/-- The sine's quadrant reduction (R186, R191). Its constant divisor PI2 is not zero (R175). -/
def foldSine (bd : Config.Build) (a : Word) : Folded :=
  let r0 := remainder a (pi2Of bd)
  let r1 := if sext32 r0 < 0 then addRaw r0 (pi2Of bd) else r0
  let fv : Bool := sext32 (piOf bd) < sext32 r1
  let r2 := if fv then subRaw r1 (piOf bd) else r1
  let fh : Bool := sext32 (pio2Of bd) < sext32 r2
  let r3 := if fh then subRaw r2 (pio2Of bd) else r2
  { r := r3, fv := fv, fh := fh }

/-- `sin` (R186). -/
def sinRaw (bd : Config.Build) (a : Word) : Word :=
  let g := foldSine bd a
  let v := lookup bd bd.sinRom g.r g.fh
  if g.fv then negRaw v else v

/-- `cos` (R188): the sign-dependent phase shift, then the sine. -/
def cosRaw (bd : Config.Build) (a : Word) : Word :=
  sinRaw bd (if sext32 a < 0 then addRaw a (pio2Of bd) else subRaw (pio2Of bd) a)

/-- The tangent's reduction (R189, R191): the folded angle and the accumulated sign flip. -/
def foldTangent (bd : Config.Build) (a : Word) : Word × Bool :=
  let r0 := remainder a (piOf bd)
  let ng : Bool := sext32 r0 < 0
  let r1 := if ng then negRaw r0 else r0
  if sext32 (pio2Of bd) < sext32 r1 then (subRaw (piOf bd) r1, !ng) else (r1, ng)

/-- `tan` (R189). -/
def tanRaw (bd : Config.Build) (a : Word) : Word :=
  let g := foldTangent bd a
  let v := lookup bd bd.tanRom g.1 false
  if g.2 then negRaw v else v

/-- `atan2` (R192): y in field A, x in field B. Its divisors are never zero, so the quotient is used directly. -/
def atan2Raw (bd : Config.Build) (y x : Word) : Word :=
  let f := bd.fracBits
  if x = 0 then
    if 0 < sext32 y then pio2Of bd
    else if sext32 y < 0 then negRaw (pio2Of bd)
    else 0
  else
    let z := quotient f y x
    if -(2 ^ f : Int) < sext32 z ∧ sext32 z < 2 ^ f then
      let den := addSafe (wordOne f) (mulSafe f bd.atanK (mulSafe f z z))
      let t := quotient f z den
      if sext32 x < 0 then
        if sext32 y < 0 then subRaw t (piOf bd) else addRaw t (piOf bd)
      else t
    else
      let den := addSafe (mulSafe f z z) bd.atanK
      if den = wordMax then
        if sext32 y < 0 then negRaw (pio2Of bd) else pio2Of bd
      else
        let t := subRaw (pio2Of bd) (quotient f z den)
        if sext32 y < 0 then subRaw t (piOf bd) else t

/-- SIN (R186). -/
def execSin (a : Word) (s : State) : Host.Outcome State Fault Refusal :=
  .next (s.complete (sinRaw s.rom.build a))

/-- COS (R188). -/
def execCos (a : Word) (s : State) : Host.Outcome State Fault Refusal :=
  .next (s.complete (cosRaw s.rom.build a))

/-- TAN (R189). -/
def execTan (a : Word) (s : State) : Host.Outcome State Fault Refusal :=
  .next (s.complete (tanRaw s.rom.build a))

/-- ATAN2 (R192). -/
def execAtan2 (y x : Word) (s : State) : Host.Outcome State Fault Refusal :=
  .next (s.complete (atan2Raw s.rom.build y x))

end Sys2Proof.Machine
end

