-- ==== Sys2Proof/Machine/Text.lean ====
section
/-! DEFINITION. Decimal text conversion (45_conversion.md): the parser of PARSE (R212, R213) and the converter of
TOSTR (R216). The character codes are those R25 gives. -/

namespace Sys2Proof.Machine

/-- The code of `0`; the digits `0` to `9` are 0x30 to 0x39 (R25). -/
def charZero : Byte := 0x30

/-- The code of `+` (R25). -/
def charPlus : Byte := 0x2B

/-- The code of `-` (R25). -/
def charMinus : Byte := 0x2D

/-- The code of `.` (R25). -/
def charPoint : Byte := 0x2E

/-- The code of `,` (R25). -/
def charComma : Byte := 0x2C

/-- The character is one of `0` to `9`. -/
def isDigit (c : Byte) : Bool := 0x30 ≤ c.toNat && c.toNat ≤ 0x39

/-- The character is one of the two equivalent separators (R212). -/
def isSeparator (c : Byte) : Bool := c == charPoint || c == charComma

/-- The character of a decimal digit (R216). -/
def digitChar (d : Nat) : Byte := BitVec.ofNat 8 (0x30 + d)

/-- The value of a text of digits as an unsigned decimal integer, unbounded (R212). -/
def decimalValue (t : List Byte) : Nat := t.foldl (fun v c => 10 * v + (c.toNat - 0x30)) 0

/-- The optional leading sign taken off (R212): whether it was `-`, and the rest. -/
def splitSign : List Byte → Bool × List Byte
  | [] => (false, [])
  | c :: t => if c = charMinus then (true, t) else if c = charPlus then (false, t) else (false, c :: t)

/-- The integer part `ip`, and the fractional part `fp` when a separator stands in the text (R212). -/
def splitParts (t : List Byte) : List Byte × Option (List Byte) :=
  if t.any isSeparator then
    (t.takeWhile (fun c => !isSeparator c), some (t.dropWhile (fun c => !isSeparator c)).tail)
  else (t, none)

/-- The fraction `fr` (R212, R215): the first D digits kept, one rounded division, 0 when none is kept. The divisor is
never zero (R214). -/
def fractionValue (f : Nat) (fp : List Byte) : Word :=
  let ft := fp.take (Config.fracDigits f)
  if ft.isEmpty then 0
  else quotient f (fromIntRaw f (s32 (decimalValue ft : Int))) (fromIntRaw f (s32 (10 ^ ft.length : Int)))

/-- `parse(t)` (R212): FormatError for the five causes of R213. -/
def parseText (f : Nat) (t : List Byte) : Except ErrorKind Word :=
  let negv := (splitSign t).1
  let body := (splitSign t).2
  if 1 < body.countP isSeparator then .error .formatError
  else
    let ip := (splitParts body).1
    let fp := (splitParts body).2
    if fp = some [] then .error .formatError
    else if ip = [] then .error .formatError
    else if ¬ (ip.all isDigit ∧ (fp.getD []).all isDigit) then .error .formatError
    else
      let iv := decimalValue ip
      if 2 ^ (31 - f) - 1 < iv then .error .formatError
      else
        let val := fromIntRaw f (s32 (iv : Int))
        let fr := fractionValue f (fp.getD [])
        .ok (if negv then subRaw (negRaw val) fr else addRaw val fr)

/-- The decimal digits of a number, most significant first, the single digit 0 for 0, in front of `acc`; `fuel` digits
at most (R216). -/
def decimalDigits : Nat → Nat → List Byte → List Byte
  | 0, _, acc => acc
  | fuel + 1, n, acc =>
    if n / 10 = 0 then digitChar (n % 10) :: acc
    else decimalDigits fuel (n / 10) (digitChar (n % 10) :: acc)

/-- The fraction loop of R216: one digit for each pass, until the fraction is used up; at most F passes (R217). -/
def fractionDigits (f : Nat) : Nat → Nat → List Byte
  | 0, _ => []
  | fuel + 1, fr =>
    if fr = 0 then []
    else digitChar (fr * 10 / 2 ^ f) :: fractionDigits f fuel (fr * 10 % 2 ^ f)

/-- The text of a raw store (R216): its exact decimal expansion. -/
def textOf (f : Nat) (a : Word) : List Byte :=
  let m := magnitude a
  let fr := m % 2 ^ f
  (if sext32 a < 0 then [charMinus] else []) ++ decimalDigits 10 (m / 2 ^ f) [] ++
    (if fr = 0 then [] else charPoint :: fractionDigits f f fr)

/-- PARSE (R211): the text TXT[0 .. TXT_LEN-1]; FormatError as R213 says. -/
def execParse (s : State) : Host.Outcome State Fault Refusal :=
  match s.text with
  | some t => .next (s.finish (parseText Config.F t))
  | none => .fault .noSuchTxtIndex

/-- TOSTR (R216): writes TXT and TXT_LEN, not R. -/
def execToStr (a : Word) (s : State) : Host.Outcome State Fault Refusal :=
  .next (s.completeText (textOf Config.F a))

end Sys2Proof.Machine
end

