-- ==== Sys2Proof/Machine/Dispatch.lean ====
section
/-! DEFINITION. The meaning of each command: one arm a constructor, one call a meaning. -/

namespace Sys2Proof.Machine

/-- Execute one decoded command (R57, R243). -/
def exec (i : Instr) (s : State) : Host.Outcome State Fault Refusal :=
  match i with
  | .add a b => Sys2Proof.Machine.execAdd a b s
  | .sub a b => Sys2Proof.Machine.execSub a b s
  | .mul a b => Sys2Proof.Machine.execMul a b s
  | .div a b => Sys2Proof.Machine.execDiv a b s
  | .mod a b => Sys2Proof.Machine.execMod a b s
  | .neg a => Sys2Proof.Machine.execNeg a s
  | .abs a => Sys2Proof.Machine.execAbs a s
  | .sign a => Sys2Proof.Machine.execSign a s
  | .floor a => Sys2Proof.Machine.execFloor a s
  | .ceil a => Sys2Proof.Machine.execCeil a s
  | .round a => Sys2Proof.Machine.execRound a s
  | .rndeven a => Sys2Proof.Machine.execRndEven a s
  | .cmplt a b => Sys2Proof.Machine.execCmpLt a b s
  | .cmpgt a b => Sys2Proof.Machine.execCmpGt a b s
  | .cmple a b => Sys2Proof.Machine.execCmpLe a b s
  | .cmpge a b => Sys2Proof.Machine.execCmpGe a b s
  | .cmpeq a b => Sys2Proof.Machine.execCmpEq a b s
  | .fromint a => Sys2Proof.Machine.execFromInt a s
  | .toint a => Sys2Proof.Machine.execToInt a s
  | .ldc a => Sys2Proof.Machine.execLdc a s
  | .sadd a b => Sys2Proof.Machine.execSAdd a b s
  | .ssub a b => Sys2Proof.Machine.execSSub a b s
  | .smul a b => Sys2Proof.Machine.execSMul a b s
  | .sdiv a b => Sys2Proof.Machine.execSDiv a b s
  | .smod a b => Sys2Proof.Machine.execSMod a b s
  | .sabs a => Sys2Proof.Machine.execSAbs a s
  | .sqrt a => Sys2Proof.Machine.execSqrt a s
  | .sin a => Sys2Proof.Machine.execSin a s
  | .cos a => Sys2Proof.Machine.execCos a s
  | .tan a => Sys2Proof.Machine.execTan a s
  | .atan2 y x => Sys2Proof.Machine.execAtan2 y x s
  | .parse => Sys2Proof.Machine.execParse s
  | .tostr a => Sys2Proof.Machine.execToStr a s

end Sys2Proof.Machine
end

