-- ==== Sys2Proof/Machine/Ports.lean ====
section
/-! DEFINITION. The ports of FPCORE (R264 to R267): accepting a command and presenting its response, the host's
accesses through the text port, and the reset input. -/

namespace Sys2Proof.Machine

/-- Give something back to the host at a port. -/
def State.reply (s : State) (x : HostReply) : State := { s with replies := x :: s.replies }

/-- Present the response of the command that has just ended (R73, R265). -/
def State.respond (s : State) : State := s.reply (.response s.response)

/-- Accept one command word and execute it to its response (R265). Decoding comes first: a reserved OP raises
IllegalCommand whatever the rest holds (R76, R247). -/
def serveCommand (w : Command) (s : State) : Host.Outcome State Fault Refusal :=
  match decode w with
  | .error _ => .next (s.raise .illegalCommand).respond
  | .ok i =>
    match exec i s with
    | .next t => .next t.respond
    | .fault x => .fault x
    | .refused x => .refused x

/-- The reset input (R260, U5): ERR = 0, TXT_LEN = 0, R and the bytes of TXT unspecified, the ROMs untouched, no
response. Log entries 3 and 13. -/
def State.assertReset (s : State) : State :=
  { s with
    r := Config.unspecifiedWord s.free
    err := .ok
    txt := s.txt.writeAll 0 (s.freeBytesFrom 0)
    txtLen := 0
    free := s.free + 1 }

/-- Serve one action of the host. The text port moves single bytes and TXT_LEN; a TXT_LEN above 64 is stored as 64
(R55, R264). -/
def serve (x : HostAction) (s : State) : Host.Outcome State Fault Refusal :=
  match x with
  | .command w => serveCommand w s
  | .writeTxt i b => .next { s with txt := s.txt.write i.val b }
  | .readTxt i => .next (s.reply (.txtByte (s.txt.read i.val)))
  | .writeLen v => .next { s with txtLen := BitVec.ofNat 7 (min v Config.txtCap) }
  | .readLen => .next (s.reply (.txtLen s.txtLen))
  | .reset => .next s.assertReset

/-- Put a command word on the command port, ahead of everything the host still has to do. -/
def State.present (s : State) (w : Command) : State := { s with inbox := .command w :: s.inbox }

end Sys2Proof.Machine
end

