-- ==== Sys2Proof/Machine/Step.lean ====
section
/-! DEFINITION. One step of the machine: the block serves the host's next action, or idles. -/

namespace Sys2Proof.Machine

/-- One step. With nothing presented the block is idle and holds its state (R256); otherwise it takes the host's next
action and serves it, a command to its response (R57, R265, R270). Log entry 5. -/
def step (s : State) : Host.Outcome State Fault Refusal :=
  match s.inbox with
  | [] => .next s
  | x :: rest => serve x { s with inbox := rest }

/-- The state with a command word of the opcode table's numbering on the command port, so that the very next step
executes it. Log entry 5. -/
def State.withFetchWord (s : State) (nbits w : Nat) : State := s.present (tableCommand nbits w)

end Sys2Proof.Machine
end

