-- ==== Sys2Proof/Safety.lean ====
section
/-! DEFINITION. What counts as a legal state and as the ending of a command, in the terms statements use. -/

namespace Sys2Proof.Machine

/-- A legal state: TXT in canonical form within its 64 bytes, and TXT_LEN at most 64 (R25, R55). -/
abbrev State.wf (s : State) : Prop := s.txt.wf ∧ s.txtLen.toNat ≤ Config.txtCap

/-- The command ends in a next state that holds `v` in R and OK in ERR and is otherwise the old state (R23, R101). -/
def Completes (i : Instr) (s : State) (v : Word) : Prop :=
  exec i s = .next { s with r := v, err := .ok }

/-- The command ends in a next state that holds the error kind in ERR and is otherwise the old state (R243). -/
def Raises (i : Instr) (s : State) (k : ErrorKind) : Prop :=
  exec i s = .next { s with err := .raised k }

/-- Every word with this OP value decodes to the command `i` makes of its fields A and B. -/
def DecodesTo (op : BitVec 8) (i : Word → Word → Instr) : Prop :=
  ∀ a b : Word, decode (Command.mk op a b) = .ok (i a b)

/-- The value of a text of decimal digits, most significant first (R212, R216). -/
def digitsValue (t : List Byte) : Nat := Nat.ofDigits 10 (t.reverse.map fun c => c.toNat - 0x30)

/-- Every character is one of `0` to `9`. -/
def AllDigits (t : List Byte) : Prop := ∀ c ∈ t, isDigit c = true

/-- The texts PARSE reads as numbers, but for the range of the integer part (R212, R213): an optional sign, an integer
part of one or more digits, and optionally one separator with a fractional part of one or more digits. -/
def IsDecimalText (t : List Byte) (neg : Bool) (ip : List Byte) (fp : Option (List Byte)) : Prop :=
  ip ≠ [] ∧ AllDigits ip ∧ (∀ x, fp = some x → x ≠ [] ∧ AllDigits x) ∧
    ∃ sg tl, t = sg ++ ip ++ tl ∧
      (if neg then sg = [charMinus] else sg = [] ∨ sg = [charPlus]) ∧
      (match fp with
        | none => tl = []
        | some x => ∃ c, isSeparator c = true ∧ tl = c :: x)

/-- The quotient of two integers rounded to nearest, ties away from zero (R127, R150). -/
def roundDiv (n d : Int) : Int :=
  n.sign * d.sign * ((2 * n.natAbs + d.natAbs) / (2 * d.natAbs) : Nat)

/-- The OP values R74 assigns. -/
def assignedOps : List (BitVec 8) :=
  [0x01, 0x02, 0x03, 0x04, 0x05, 0x06, 0x07, 0x08, 0x09, 0x0A, 0x0B, 0x0C, 0x0D, 0x0E, 0x0F, 0x10, 0x11, 0x12, 0x13,
   0x14, 0x20, 0x21, 0x22, 0x23, 0x24, 0x25, 0x30, 0x31, 0x32, 0x33, 0x34, 0x40, 0x41]

end Sys2Proof.Machine
end

