-- ==== Sys2Proof/WellFormed.lean ====
section
/-! DEFINITION. The checks a well-formed command and a legal build meet. The operand types leave one check on a
command: the constant index of LDC. An ill-formed LDC still decodes and executes (it raises IllegalCommand, R126);
the check is the assembler's (R79), log entry 18. -/

namespace Sys2Proof

/-- The index of LDC names one of the twelve constants (R26, R79); every operand value of every other command is legal
(R100). -/
def Instr.wellFormed : Instr → Bool
  | .add _ _ => true
  | .sub _ _ => true
  | .mul _ _ => true
  | .div _ _ => true
  | .mod _ _ => true
  | .neg _ => true
  | .abs _ => true
  | .sign _ => true
  | .floor _ => true
  | .ceil _ => true
  | .round _ => true
  | .rndeven _ => true
  | .cmplt _ _ => true
  | .cmpgt _ _ => true
  | .cmple _ _ => true
  | .cmpge _ _ => true
  | .cmpeq _ _ => true
  | .fromint _ => true
  | .toint _ => true
  | .ldc a => a.toNat ≤ 11
  | .sadd _ _ => true
  | .ssub _ _ => true
  | .smul _ _ => true
  | .sdiv _ _ => true
  | .smod _ _ => true
  | .sabs _ => true
  | .sqrt _ => true
  | .sin _ => true
  | .cos _ => true
  | .tan _ => true
  | .atan2 _ _ => true
  | .parse => true
  | .tostr _ => true

/-- The legal values of F: even, 2 to 16 (R7). -/
def legalFracBits (f : Nat) : Bool := 2 ≤ f && f ≤ 16 && f % 2 == 0

/-- The legal sizes of an interpolated table (R9): 2 ≤ N ≤ 2^(31-F). -/
def legalLutSizeInterp (f n : Nat) : Bool := 2 ≤ n && n ≤ 2 ^ (31 - f)

end Sys2Proof
end

