-- ==== Sys2Proof/Certificates/Slice0/Obligations.lean ====
section
/-! DEFINITION. The statements about FPCORE for the provers. `Completes i s v` says that the command ends in the state
`s` with R = `v` and ERR = OK and every other field as it was; `Raises i s k` says the same with ERR = `k` and R as it
was. Both are next states of `exec`, so each statement with such a conclusion says where the command completes and what
it leaves unchanged: TXT, TXT_LEN, the ROM image and the model's own fields. -/

open Sys2Proof Sys2Proof.Machine

/-! ### Raw arithmetic -/

/-- R102, R103, R104: ADD, SUB and NEG wrap modulo 2^32; NEG ignores B. -/
def Obligations.AddSubNegWrapAround : Prop :=
  DecodesTo 0x01 .add ∧ DecodesTo 0x02 .sub ∧ DecodesTo 0x06 (fun a _ => .neg a) ∧
  ∀ (a b : Word) (s : State),
    (∃ v, Completes (.add a b) s v ∧ v.toInt = (a.toInt + b.toInt).bmod (2 ^ 32)) ∧
    (∃ v, Completes (.sub a b) s v ∧ v.toInt = (a.toInt - b.toInt).bmod (2 ^ 32)) ∧
    (∃ v, Completes (.neg a) s v ∧ v.toInt = (-a.toInt).bmod (2 ^ 32))

/-- R105: MUL is the exact product over 2^10, floored (`/` on integers with a positive divisor), then wrapped. -/
def Obligations.MulFloorsThenWraps : Prop :=
  DecodesTo 0x03 .mul ∧
  ∀ (a b : Word) (s : State),
    ∃ v, Completes (.mul a b) s v ∧ v.toInt = (a.toInt * b.toInt / 1024).bmod (2 ^ 32)

/-- R106: for every legal F and every operand pair the four-partial-product datapath gives MUL's result. -/
def Obligations.MulDatapathGivesTheFlooredProduct : Prop :=
  ∀ f, legalFracBits f = true → ∀ a b : Word, mulDatapath f a b = mulRaw f a b

/-- R108: MOD by zero raises DivideByZero; otherwise the truncating remainder, below the divisor in magnitude, with the
sign of the dividend or zero. -/
def Obligations.ModIsTheTruncatingRemainder : Prop :=
  DecodesTo 0x05 .mod ∧
  ∀ (a b : Word) (s : State),
    (b = 0 → Raises (.mod a b) s .divideByZero) ∧
    (b ≠ 0 → ∃ v, Completes (.mod a b) s v ∧ v.toInt = a.toInt.tmod b.toInt ∧
      v.toInt.natAbs < b.toInt.natAbs ∧ (v = 0 ∨ v.toInt.sign = a.toInt.sign))

/-- R109: ABS is the branchless (x + mask) ^ mask; a itself when a ≥ 0, the wrapped negation when a < 0. -/
def Obligations.AbsIsTheBranchlessIdentity : Prop :=
  DecodesTo 0x07 (fun a _ => .abs a) ∧
  ∀ (a : Word) (s : State),
    ∃ v, Completes (.abs a) s v ∧ v = (a + a.sshiftRight 31) ^^^ a.sshiftRight 31 ∧
      (0 ≤ a.toInt → v = a) ∧ (a.toInt < 0 → v.toInt = (-a.toInt).bmod (2 ^ 32))

/-- R110: SIGN is the integer -1, 0 or 1. -/
def Obligations.SignIsAPlainInteger : Prop :=
  DecodesTo 0x08 (fun a _ => .sign a) ∧
  ∀ (a : Word) (s : State), ∃ v, Completes (.sign a) s v ∧ v.toInt = a.toInt.sign

/-- R111: FLOOR masks off the fraction bits and gives the largest multiple of ONE not above a. R112: CEIL adds one whole
unit to that, wrapping, when a fraction bit was set. -/
def Obligations.FloorAndCeilToWholeUnits : Prop :=
  DecodesTo 0x09 (fun a _ => .floor a) ∧ DecodesTo 0x0A (fun a _ => .ceil a) ∧
  ∀ (a : Word) (s : State),
    (∃ v, Completes (.floor a) s v ∧ v = a &&& 0xFFFFFC00 ∧ v.toInt % 1024 = 0 ∧ v.toInt ≤ a.toInt ∧
      ∀ k : Int, 1024 * k ≤ a.toInt → 1024 * k ≤ v.toInt) ∧
    (∃ v, Completes (.ceil a) s v ∧
      v.toInt = (1024 * (a.toInt / 1024) + if a.toInt % 1024 = 0 then 0 else 1024).bmod (2 ^ 32))

/-- R113: ROUND adds HALF with wraparound, then floors: ties go up. -/
def Obligations.RoundSendsTiesUp : Prop :=
  DecodesTo 0x0B (fun a _ => .round a) ∧
  ∀ (a : Word) (s : State),
    ∃ v, Completes (.round a) s v ∧ v.toInt = (1024 * ((a.toInt + 512) / 1024)).bmod (2 ^ 32)

/-- R114: RNDEVEN goes to the nearest whole unit, a tie to the even one, wrapping. -/
def Obligations.RndEvenSendsTiesToEven : Prop :=
  DecodesTo 0x0C (fun a _ => .rndeven a) ∧
  ∀ (a : Word) (s : State),
    ∃ v, Completes (.rndeven a) s v ∧
      v.toInt = (1024 * (a.toInt / 1024 +
        if 512 < a.toInt % 1024 ∨ (a.toInt % 1024 = 512 ∧ a.toInt / 1024 % 2 = 1) then 1 else 0)).bmod (2 ^ 32)

/-- R115 to R119: the comparisons leave 1 or 0 by the signed order of the raw stores, CMPEQ by the patterns. -/
def Obligations.ComparisonsLeaveOneOrZero : Prop :=
  DecodesTo 0x0D .cmplt ∧ DecodesTo 0x0E .cmpgt ∧ DecodesTo 0x0F .cmple ∧ DecodesTo 0x10 .cmpge ∧
  DecodesTo 0x11 .cmpeq ∧
  ∀ (a b : Word) (s : State),
    Completes (.cmplt a b) s (if a.toInt < b.toInt then 1 else 0) ∧
    Completes (.cmpgt a b) s (if a.toInt > b.toInt then 1 else 0) ∧
    Completes (.cmple a b) s (if a.toInt ≤ b.toInt then 1 else 0) ∧
    Completes (.cmpge a b) s (if a.toInt ≥ b.toInt then 1 else 0) ∧
    Completes (.cmpeq a b) s (if a = b then 1 else 0)

/-- R121: FROMINT shifts left by F, wrapping. R122: TOINT is the floor by 2^F. TOINT undoes FROMINT for every integer in
range, and FROMINT of TOINT is FLOOR. -/
def Obligations.FromIntAndToIntShiftByF : Prop :=
  DecodesTo 0x12 (fun a _ => .fromint a) ∧ DecodesTo 0x13 (fun a _ => .toint a) ∧
  ∀ (a : Word) (s : State),
    (∃ v, Completes (.fromint a) s v ∧ v.toInt = (a.toInt * 1024).bmod (2 ^ 32) ∧
      (-2097152 ≤ a.toInt → a.toInt ≤ 2097151 → Completes (.toint v) s a)) ∧
    (∃ v w, Completes (.toint a) s v ∧ v.toInt = a.toInt / 1024 ∧
      Completes (.fromint v) s w ∧ Completes (.floor a) s w)

/-- R126 with the contents of R28: LDC of an index up to 11 leaves that constant; a larger index, read as unsigned,
raises IllegalCommand. -/
def Obligations.LdcReadsTheTwelveConstants : Prop :=
  DecodesTo 0x14 (fun a _ => .ldc a) ∧
  ∀ (s : State),
    (∀ p ∈ ([(0, 0), (1, 1024), (2, 2048), (3, 512), (4, 1), (5, 0x7FFFFFFF), (6, 0x80000000), (7, 3216), (8, 6434),
      (9, 1608), (10, 326), (11, 651)] : List (Word × Word)), Completes (.ldc p.1) s p.2) ∧
    (∀ a : Word, 11 < a.toNat → Raises (.ldc a) s .illegalCommand)

/-- R27, R221, R196: the five trigonometric constants and ATAN_K are what the parser's function returns for the
beginnings of their decimal literals (only the first three fraction digits matter). -/
def Obligations.TrigConstantsAreParsedLiterals : Prop :=
  let lit (n : List Nat) : List Byte := n.map (BitVec.ofNat 8)
  parseText Config.F (lit [0x33, 0x2E, 0x31, 0x34, 0x31, 0x35, 0x39]) = .ok (romRead constRomF10 7) ∧
  parseText Config.F (lit [0x36, 0x2E, 0x32, 0x38, 0x33, 0x31, 0x38]) = .ok (romRead constRomF10 8) ∧
  parseText Config.F (lit [0x31, 0x2E, 0x35, 0x37, 0x30, 0x37, 0x39]) = .ok (romRead constRomF10 9) ∧
  parseText Config.F (lit [0x30, 0x2E, 0x33, 0x31, 0x38, 0x33, 0x30]) = .ok (romRead constRomF10 10) ∧
  parseText Config.F (lit [0x30, 0x2E, 0x36, 0x33, 0x36, 0x36, 0x31]) = .ok (romRead constRomF10 11) ∧
  parseText Config.F (lit [0x30, 0x2E, 0x32, 0x38]) = .ok buildF10.atanK

/-! ### Safe arithmetic -/

/-- R141, R142: SADD and SSUB give the exact sum and difference clamped to [MIN, MAX], and that is what the sign-bit
detector with its clamp gives. -/
def Obligations.SaddAndSsubClamp : Prop :=
  DecodesTo 0x20 .sadd ∧ DecodesTo 0x21 .ssub ∧
  ∀ (a b : Word) (s : State),
    (∃ v, Completes (.sadd a b) s v ∧ v.toInt = max (-2147483648) (min 2147483647 (a.toInt + b.toInt)) ∧
      v = if (a.toInt < 0 ↔ b.toInt < 0) ∧ ¬ ((a + b).toInt < 0 ↔ a.toInt < 0)
        then (if a.toInt < 0 then 0x80000000 else 0x7FFFFFFF) else a + b) ∧
    (∃ v, Completes (.ssub a b) s v ∧ v.toInt = max (-2147483648) (min 2147483647 (a.toInt - b.toInt)) ∧
      v = if ¬ (a.toInt < 0 ↔ b.toInt < 0) ∧ ¬ ((a - b).toInt < 0 ↔ a.toInt < 0)
        then (if a.toInt < 0 then 0x80000000 else 0x7FFFFFFF) else a - b)

/-- R143: SMUL is the floored exact product clamped to [MIN, MAX], to MAX when the signs agree and to MIN when they
differ, and it agrees with MUL whenever the floored product is in range. -/
def Obligations.SmulClampsTheFlooredProduct : Prop :=
  DecodesTo 0x22 .smul ∧
  ∀ (a b : Word) (s : State),
    ∃ v, Completes (.smul a b) s v ∧
      v.toInt = max (-2147483648) (min 2147483647 (a.toInt * b.toInt / 1024)) ∧
      (2147483647 < a.toInt * b.toInt / 1024 → (a.toInt < 0 ↔ b.toInt < 0)) ∧
      (a.toInt * b.toInt / 1024 < -2147483648 → ¬ (a.toInt < 0 ↔ b.toInt < 0)) ∧
      (-2147483648 ≤ a.toInt * b.toInt / 1024 → a.toInt * b.toInt / 1024 ≤ 2147483647 → Completes (.mul a b) s v)

/-- R145: SMOD by zero raises DivideByZero, MIN by -1 gives 0, and SMOD and MOD are one function on every pair. -/
def Obligations.SmodIsMod : Prop :=
  DecodesTo 0x24 .smod ∧
  ∀ (a b : Word) (s : State),
    exec (.smod a b) s = exec (.mod a b) s ∧
    (b = 0 → Raises (.smod a b) s .divideByZero) ∧
    (b ≠ 0 → ∃ v, Completes (.smod a b) s v ∧ v.toInt = a.toInt.tmod b.toInt) ∧
    Completes (.smod 0x80000000 0xFFFFFFFF) s 0

/-- R146: SABS is the clamped absolute value, and the same as ABS except for MIN. -/
def Obligations.SabsClampsTheAbsoluteValue : Prop :=
  DecodesTo 0x25 (fun a _ => .sabs a) ∧
  ∀ (a : Word) (s : State),
    ∃ v, Completes (.sabs a) s v ∧ v.toInt = min 2147483647 (a.toInt.natAbs : Int) ∧
      (a ≠ 0x80000000 → Completes (.abs a) s v)

/-- R140: where the true result fits in range, the safe command leaves the same state as its raw twin. -/
def Obligations.SafeCommandsAgreeWithRawInRange : Prop :=
  ∀ (a b : Word) (s : State),
    (-2147483648 ≤ a.toInt + b.toInt → a.toInt + b.toInt ≤ 2147483647 →
      exec (.sadd a b) s = exec (.add a b) s) ∧
    (-2147483648 ≤ a.toInt - b.toInt → a.toInt - b.toInt ≤ 2147483647 →
      exec (.ssub a b) s = exec (.sub a b) s) ∧
    (-2147483648 ≤ a.toInt * b.toInt / 1024 → a.toInt * b.toInt / 1024 ≤ 2147483647 →
      exec (.smul a b) s = exec (.mul a b) s) ∧
    exec (.sdiv a b) s = exec (.div a b) s

/-! ### Division -/

/-- R150: DIV by zero raises DivideByZero; otherwise the magnitude |a|·2^10 / |b| rounded half up, saturated by the sign
of the quotient. -/
def Obligations.DivRoundsHalfAwayAndSaturates : Prop :=
  DecodesTo 0x04 .div ∧
  ∀ (a b : Word) (s : State),
    (b = 0 → Raises (.div a b) s .divideByZero) ∧
    (b ≠ 0 → ∃ v, Completes (.div a b) s v ∧
      let m := (2 * (a.toInt.natAbs * 1024) + b.toInt.natAbs) / (2 * b.toInt.natAbs)
      if 2147483647 < m then v = (if (a.toInt < 0 ↔ b.toInt < 0) then 0x7FFFFFFF else 0x80000000)
      else v.toInt = if (a.toInt < 0 ↔ b.toInt < 0) then (m : Int) else -(m : Int))

/-- R151: SDIV has its own opcode and is DIV on every operand pair. -/
def Obligations.SdivIsDiv : Prop :=
  DecodesTo 0x23 .sdiv ∧
  ∀ (a b : Word) (s : State),
    exec (.sdiv a b) s = exec (.div a b) s ∧
    (b = 0 → Raises (.sdiv a b) s .divideByZero) ∧
    (b ≠ 0 → ∃ v, Completes (.sdiv a b) s v ∧ Completes (.div a b) s v)

/-- R152, R156: for every legal F and every operand pair the long-division engine, with its bounded loops, gives what the
closed formula of DIV gives, the zero divisor included. -/
def Obligations.DivisionEngineComputesTheFormula : Prop :=
  ∀ f, legalFracBits f = true → ∀ a b : Word, divEngine f a b = divRaw f a b

/-- R153: the two-loop leading-zero count of a non-zero 32-bit word is the number of zero bits above its highest one
bit. -/
def Obligations.LeadingZeroCountIsRight : Prop :=
  ∀ x : Nat, 0 < x → x < 2 ^ 32 → clz32 x ≤ 31 ∧ 2 ^ 31 ≤ x * 2 ^ clz32 x ∧ x * 2 ^ clz32 x < 2 ^ 32

/-- R154: the restoring divide step gives the exact remainder and floor quotient of a 32-bit dividend. -/
def Obligations.RestoringStepDividesExactly : Prop :=
  ∀ x dv : Nat, x < 2 ^ 32 → 0 < dv → restoringDivide x dv = (x % dv, x / dv)

/-! ### Square root -/

/-- R165: SQRT of a negative raw store raises DomainError; otherwise the result is the raw store nearest to the square
root of a·2^10, and never exceeds 1482910. -/
def Obligations.SqrtRoundsToNearest : Prop :=
  DecodesTo 0x30 (fun a _ => .sqrt a) ∧
  ∀ (a : Word) (s : State),
    (a.toInt < 0 → Raises (.sqrt a) s .domainError) ∧
    (0 ≤ a.toInt → ∃ v, Completes (.sqrt a) s v ∧ 0 ≤ v.toInt ∧ v.toInt ≤ 1482910 ∧
      a.toInt * 1024 ≤ v.toInt * v.toInt + v.toInt ∧
      (v = 0 ∨ v.toInt * v.toInt - v.toInt < a.toInt * 1024))

/-- R166, R167, R168: for every legal F the digit-by-digit procedure, with its correction term, gives what the closed
formula of SQRT gives. -/
def Obligations.SqrtProcedureComputesTheRoot : Prop :=
  ∀ f, legalFracBits f = true → ∀ a : Word, sqrtProcedure f a = sqrtRaw f a

/-! ### Trigonometry -/

/-- R186, R182, R181 at F = 10: SIN folds the angle modulo 6434, about 3216 and about 1608, reads SIN_ROM at the clamped
(when mirrored, reversed) index, and negates when flipped vertically; so it is exactly periodic with period 6434. -/
def Obligations.SinFoldsAndReadsTheTable : Prop :=
  DecodesTo 0x31 (fun a _ => .sin a) ∧
  (∀ (a b : Word) (s : State), b.toInt = a.toInt + 6434 → ∃ v, Completes (.sin a) s v ∧ Completes (.sin b) s v) ∧
  ∀ (a : Word) (s : State),
    ∃ v, Completes (.sin a) s v ∧
      let r0 := a.toInt.tmod 6434
      let r1 := if r0 < 0 then r0 + 6434 else r0
      let r2 := if 3216 < r1 then r1 - 3216 else r1
      let i := if 1608 < r2 then max 0 (1608 - (r2 - 1608)) else r2
      let w : Int := (sinRomNumbers.getD i.toNat 0 : Nat)
      v.toInt = if 3216 < r1 then -w else w

/-- R187: before the lookup the reduced angle is 0 .. PIO2 unmirrored or 1 .. PIO2 + 1 mirrored, all of these are reached,
and PIO2 + 1 only from operands congruent to 6433 or to -1. -/
def Obligations.SineReductionReachesExactlyTheTable : Prop :=
  (∀ a : Word, let g := foldSine buildF10 a
    (g.fh = false ∧ 0 ≤ g.r.toInt ∧ g.r.toInt ≤ 1608 ∨ g.fh = true ∧ 1 ≤ g.r.toInt ∧ g.r.toInt ≤ 1609) ∧
    (g.r.toInt = 1609 ↔ a.toInt % 6434 = 6433)) ∧
  (∀ r : Int, 0 ≤ r → r ≤ 1608 → ∃ a : Word, (foldSine buildF10 a).fh = false ∧ (foldSine buildF10 a).r.toInt = r) ∧
  (∀ r : Int, 1 ≤ r → r ≤ 1609 → ∃ a : Word, (foldSine buildF10 a).fh = true ∧ (foldSine buildF10 a).r.toInt = r)

/-- From R177, R186, R188, R190: SIN and COS complete on every operand with a result in [-ONE, ONE]. -/
def Obligations.SinAndCosStayWithinOne : Prop :=
  ∀ (a : Word) (s : State),
    (∃ v, Completes (.sin a) s v ∧ -1024 ≤ v.toInt ∧ v.toInt ≤ 1024) ∧
    (∃ v, Completes (.cos a) s v ∧ -1024 ≤ v.toInt ∧ v.toInt ≤ 1024)

/-- R188: COS is the SIN of the phase-shifted angle, whose shift never wraps, and is exactly even except at MIN. -/
def Obligations.CosShiftsIntoSinAndIsEven : Prop :=
  DecodesTo 0x32 (fun a _ => .cos a) ∧
  ∀ (a : Word) (s : State),
    ∃ t v : Word, t.toInt = (if a.toInt < 0 then a.toInt + 1608 else 1608 - a.toInt) ∧
      Completes (.cos a) s v ∧ Completes (.sin t) s v ∧ (a ≠ 0x80000000 → Completes (.cos (-a)) s v)

/-- R189 at F = 10: TAN folds the magnitude modulo 3216 about 1608 and applies the accumulated sign flip to the TAN_ROM
word; so it is exactly odd on every operand but MIN. -/
def Obligations.TanFoldsAndReadsTheTable : Prop :=
  DecodesTo 0x33 (fun a _ => .tan a) ∧
  (∀ (a : Word) (s : State), a ≠ 0x80000000 →
    ∃ v w, Completes (.tan a) s v ∧ Completes (.tan (-a)) s w ∧ w.toInt = -v.toInt) ∧
  ∀ (a : Word) (s : State),
    ∃ v, Completes (.tan a) s v ∧
      let r := a.toInt.tmod 3216
      let m := r.natAbs
      let w : Int := (tanRomNumbers.getD (if 1608 < m then 3216 - m else m) 0 : Nat)
      v.toInt = if (r < 0 ↔ 1608 < m) then w else -w

/-- R230, R231: SIN i and TAN i read back word i of their ROM for 0 ≤ i ≤ 1608. -/
def Obligations.SinAndTanReadBackTheRoms : Prop :=
  ∀ (i : Nat) (s : State), i ≤ 1608 →
    Completes (.sin (BitVec.ofNat 32 i)) s (BitVec.ofNat 32 (sinRomNumbers.getD i 0)) ∧
    Completes (.tan (BitVec.ofNat 32 i)) s (BitVec.ofNat 32 (tanRomNumbers.getD i 0))

/-- R230, R231: the lengths, sums, exclusive-ors and order of the two listings. -/
def Obligations.RomListingsMeetTheirChecksums : Prop :=
  sinRomNumbers.length = 1609 ∧ sinRomNumbers.foldl (· + ·) 0 = 1047947 ∧
  sinRomNumbers.foldl (fun x y => x ^^^ y) 0 = 0x44D ∧ sinRomNumbers.IsChain (· ≤ ·) ∧
  sinRomNumbers.getLast? = some 1024 ∧
  tanRomNumbers.length = 1609 ∧ tanRomNumbers.foldl (· + ·) 0 = 2155353562 ∧
  tanRomNumbers.foldl (fun x y => x ^^^ y) 0 = 0x7FF21C10 ∧ tanRomNumbers.IsChain (· ≤ ·) ∧
  tanRomNumbers.getLast? = some 0x7FFFFFFF

/-- R176, R177: every word of SIN_ROM is the floor of the real sine of its sample angle times 2^10. -/
def Obligations.SinRomIsTheFlooredRealSine : Prop :=
  ∀ i : Nat, i ≤ 1608 →
    ((sinRomNumbers.getD i 0 : Nat) : Int) = ⌊Real.sin (Real.pi / 2 * i / 1608) * 1024⌋

/-- R176, R178: every word of TAN_ROM but the last is the floor of the real tangent of its sample angle times 2^10, none
of them above MAX, and the last word is MAX. -/
def Obligations.TanRomIsTheFlooredRealTangent : Prop :=
  (∀ i : Nat, i < 1608 →
    ((tanRomNumbers.getD i 0 : Nat) : Int) = ⌊Real.tan (Real.pi / 2 * i / 1608) * 1024⌋ ∧
    ⌊Real.tan (Real.pi / 2 * i / 1608) * 1024⌋ ≤ 2147483647) ∧
  tanRomNumbers.getD 1608 0 = 2147483647

/-- R183, R184 at F = 16: for every legal table size, every table of non-negative entries, every angle and both
directions, with i0 the rounded index of the angle, the lookup reads the word at i0 (reversed: N - 1 - i0), clamped, and
its neighbour on the side of the rounding error, clamped, and gives the floored linear interpolation between the two,
which lies between them. The index is the exact r times (N - 1) times 41720 over 2^16, floored, for every angle from 0 to
102950, and below 32767.5 steps its rounding does not wrap either; from 32767.5 steps up the rounded index wraps,
although R183 says no operation does, and the first clause says what the lookup gives there too (log entry 10). -/
def Obligations.InterpolatedLookupStaysBetweenNeighbours : Prop :=
  ∀ (n : Nat) (table : List Word) (r : Word) (rev : Bool),
    legalLutSizeInterp 16 n = true → table.length = n → (∀ x ∈ table, 0 ≤ x.toInt) →
    let fidx := mulRaw 16 r (indexScale 16 n 41720)
    let near := rndEvenRaw 16 fidx
    let i0 := (toIntRaw 16 near).toInt
    let err := (subRaw fidx near).toInt
    let j0 := if rev then (n : Int) - 1 - i0 else i0
    let j1 := if rev then j0 - err.sign else j0 + err.sign
    let t0 := (romRead table (clampIndex n j0)).toInt
    let t1 := (romRead table (clampIndex n j1)).toInt
    let v := (lookupInterpolated 16 n 41720 table r rev).toInt
    (clampIndex n j0 < n ∧ clampIndex n j1 < n ∧ err.natAbs ≤ 32768 ∧
      v = t0 + (t1 - t0) * (err.natAbs : Int) / 65536 ∧ min t0 t1 ≤ v ∧ v ≤ max t0 t1) ∧
    (0 ≤ r.toInt → r.toInt ≤ 102950 →
      fidx.toInt = r.toInt * (((n : Int) - 1) * 41720) / 65536 ∧
      (fidx.toInt < 2147450880 → near.toInt = 65536 * i0 ∧ fidx.toInt = near.toInt + err))

/-- R193: with x = 0, ATAN2 answers by the sign of y alone: PIO2, its negation, or 0. -/
def Obligations.Atan2OnTheYAxis : Prop :=
  DecodesTo 0x34 .atan2 ∧
  ∀ (y : Word) (s : State),
    (0 < y.toInt → Completes (.atan2 y 0) s 1608) ∧
    (y.toInt < 0 → ∃ v, Completes (.atan2 y 0) s v ∧ v.toInt = -1608) ∧
    (y = 0 → Completes (.atan2 y 0) s 0)

/-- R192, R194, R195, R197 at F = 10, in exact integers: with z what DIV y, x leaves, ATAN2 takes the rational
approximation for |z| < ONE and the complementary form otherwise, answers a saturated denominator with PIO2 by the sign
of y, and corrects the quadrant by PI. -/
def Obligations.Atan2FollowsTheRationalApproximation : Prop :=
  ∀ (y x : Word) (s : State), x ≠ 0 →
    ∃ z v, Completes (.div y x) s z ∧ Completes (.atan2 y x) s v ∧
      let q := z.toInt
      if -1024 < q ∧ q < 1024 then
        let t := roundDiv (q * 1024) (1024 + 287 * (q * q / 1024) / 1024)
        v.toInt = if x.toInt < 0 then (if y.toInt < 0 then t - 3216 else t + 3216) else t
      else
        let den := min (q * q / 1024 + 287) 2147483647
        if den = 2147483647 then v.toInt = (if y.toInt < 0 then -1608 else 1608)
        else v.toInt = 1608 - roundDiv (q * 1024) den - (if y.toInt < 0 then 3216 else 0)

/-- R192: ATAN2 completes on every operand pair with a result in [-PI, PI]. -/
def Obligations.Atan2StaysWithinPI : Prop :=
  ∀ (y x : Word) (s : State), ∃ v, Completes (.atan2 y x) s v ∧ -3216 ≤ v.toInt ∧ v.toInt ≤ 3216

/-! ### Text -/

/-- R211, R212, R213 at F = 10: PARSE completes on exactly the decimal texts whose integer part is at most 2097151, with
the integer part scaled plus the first three fraction digits rounded once, under the one sign; on every other text it
raises FormatError. It changes neither TXT nor TXT_LEN. -/
def Obligations.ParseReadsExactlyTheDecimalTexts : Prop :=
  DecodesTo 0x40 (fun _ _ => .parse) ∧
  ∀ (s : State) (t : List Byte), s.text = some t →
    (∀ neg ip fp, IsDecimalText t neg ip fp → digitsValue ip ≤ 2097151 →
      ∃ v, Completes .parse s v ∧
        let k := (fp.getD []).take 3
        let fr := (2 * (digitsValue k * 1024) + 10 ^ k.length) / (2 * 10 ^ k.length)
        v.toInt = if neg then -((digitsValue ip * 1024 + fr : Nat) : Int) else (digitsValue ip * 1024 + fr : Nat)) ∧
    ((∀ neg ip fp, IsDecimalText t neg ip fp → 2097151 < digitsValue ip) → Raises .parse s .formatError)

/-- R214: for every legal F the fraction of a text of digits is below ONE, and no text is parsed to a raw store outside
[-MAX, MAX]; PARSE never leaves MIN. -/
def Obligations.ParseNeverLeavesMin : Prop :=
  (∀ f, legalFracBits f = true →
    (∀ fp, AllDigits fp → 0 ≤ (fractionValue f fp).toInt ∧ (fractionValue f fp).toInt < 2 ^ f) ∧
    (∀ t v, parseText f t = .ok v → -2147483647 ≤ v.toInt)) ∧
  (∀ (s : State) (v : Word), Completes .parse s v → v ≠ 0x80000000)

/-- R216: TOSTR completes on every raw store. The text is the exact decimal expansion of a / 2^10: a `-` when negative,
the integer digits without leading zeros, and, when the value is not whole, a point and the fraction digits, whose last
is 5. R is not written; nothing is said of the bytes of TXT behind the text, which are unspecified. -/
def Obligations.TostrWritesTheExactExpansion : Prop :=
  DecodesTo 0x41 (fun a _ => .tostr a) ∧
  ∀ (a : Word) (s : State), s.wf →
    ∃ t sg ip fp, exec (.tostr a) s = .next t ∧
      t = { s with err := .ok, txt := t.txt, txtLen := t.txtLen, free := t.free } ∧
      t.text = some (sg ++ ip ++ fp) ∧ t.txtLen.toNat = (sg ++ ip ++ fp).length ∧
      sg = (if a.toInt < 0 then [charMinus] else []) ∧
      ip ≠ [] ∧ AllDigits ip ∧ digitsValue ip = a.toInt.natAbs / 1024 ∧
      (ip = [charZero] ∨ ip.head? ≠ some charZero) ∧
      (if a.toInt.natAbs % 1024 = 0 then fp = []
       else ∃ ds, fp = charPoint :: ds ∧ AllDigits ds ∧ ds.getLast? = some 0x35 ∧
         digitsValue ds * 1024 = a.toInt.natAbs % 1024 * 10 ^ ds.length)

/-- R217, R11: over every legal F no text of TOSTR exceeds 28 characters, and at F = 10 none exceeds 19. -/
def Obligations.TostrTextsFitTheBuffer : Prop :=
  (∀ f, legalFracBits f = true → ∀ a : Word, (textOf f a).length ≤ 28) ∧
  (∀ a : Word, (textOf Config.F a).length ≤ 19)

/-- R218: TOSTR and then PARSE leave R = x for every multiple of 128 but MIN, whose text PARSE rejects. -/
def Obligations.TostrThenParseReturnsTheValue : Prop :=
  ∀ (s : State), s.wf →
    (∀ a : Word, a.toInt % 128 = 0 → a ≠ 0x80000000 →
      ∃ t, exec (.tostr a) s = .next t ∧ Completes .parse t a) ∧
    (∃ t, exec (.tostr 0x80000000) s = .next t ∧ Raises .parse t .formatError)

/-! ### Errors and frames -/

/-- R242, R247: the commands that raise, each with its kind and its condition, the check before anything else. PARSE
stands here for the empty text alone; its other causes (R213) are in ParseReadsExactlyTheDecimalTexts (O39). -/
def Obligations.EachErrorKindIsRaised : Prop :=
  ∀ (a : Word) (s : State),
    Raises (.div a 0) s .divideByZero ∧ Raises (.sdiv a 0) s .divideByZero ∧
    Raises (.mod a 0) s .divideByZero ∧ Raises (.smod a 0) s .divideByZero ∧
    (a.toInt < 0 → Raises (.sqrt a) s .domainError) ∧
    (s.txtLen = 0 → Raises .parse s .formatError) ∧
    (11 < a.toNat → Raises (.ldc a) s .illegalCommand)

/-- R242: no command raises any other kind, and none raises on other operands (for PARSE, which texts raise is a
statement of its own). -/
def Obligations.NothingElseRaises : Prop :=
  ∀ (i : Instr) (s t : State) (k : ErrorKind), exec i s = .next t → t.err = .raised k →
    (k = .divideByZero ∧ ∃ a, i = .div a 0 ∨ i = .sdiv a 0 ∨ i = .mod a 0 ∨ i = .smod a 0) ∨
    (k = .domainError ∧ ∃ a, i = .sqrt a ∧ a.toInt < 0) ∨
    (k = .formatError ∧ i = .parse) ∨
    (k = .illegalCommand ∧ ∃ a, i = .ldc a ∧ 11 < a.toNat)

/-- R243, R23, R101: a command that raises changes ERR alone; one that does not ends with ERR = OK and, TOSTR apart,
changes R and ERR alone; TOSTR does not change R. No command changes the ROMs or the model's port fields. -/
def Obligations.CommandsChangeOnlyWhatTheyEndWith : Prop :=
  ∀ (i : Instr) (s t : State), exec i s = .next t →
    ((∃ k, t.err = .raised k) → t = { s with err := t.err }) ∧
    (t.err = .ok → (∀ a, i ≠ .tostr a) → t = { s with r := t.r, err := .ok }) ∧
    (∀ a, i = .tostr a → t.r = s.r) ∧
    t.rom = s.rom ∧ t.inbox = s.inbox ∧ t.replies = s.replies

/-- R23, R59, R249: no command reads R or ERR: from two states that differ only in these, a command ends with the same
error kind, the same text buffer, and (when it has a result) the same R. -/
def Obligations.CommandsReadNeitherRNorErr : Prop :=
  ∀ (i : Instr) (s t : State) (x : Word) (e : Err), exec i s = .next t →
    ∃ u, exec i { s with r := x, err := e } = .next u ∧ u.err = t.err ∧ u.txt = t.txt ∧ u.txtLen = t.txtLen ∧
      (t.err = .ok → (∀ a, i ≠ .tostr a) → u.r = t.r)

/-! ### Encoding -/

/-- R71, R74, R75, R80: for every command with every operand, decoding its encoding gives it back. -/
def Obligations.DecodeOfEncodeIsTheCommand : Prop := ∀ i : Instr, decode (encode i) = .ok i

/-- R77, R75: when a word decodes, the command's encoding has the word's OP, and the word's A and B wherever the command
uses them: the two words differ at most in ignored fields. -/
def Obligations.EncodeOfDecodeKeepsUsedFields : Prop :=
  ∀ (w : Command) (i : Instr), decode w = .ok i →
    Command.op (encode i) = Command.op w ∧
    (Command.op w ≠ 0x40 → Command.fieldA (encode i) = Command.fieldA w) ∧
    (Command.op w ∈ ([0x01, 0x02, 0x03, 0x04, 0x05, 0x0D, 0x0E, 0x0F, 0x10, 0x11, 0x20, 0x21, 0x22, 0x23, 0x24, 0x34] :
      List (BitVec 8)) → Command.fieldB (encode i) = Command.fieldB w)

/-- R75: the fields a command ignores change nothing. -/
def Obligations.IgnoredFieldsChangeNothing : Prop :=
  (∀ op ∈ ([0x06, 0x07, 0x08, 0x09, 0x0A, 0x0B, 0x0C, 0x12, 0x13, 0x14, 0x25, 0x30, 0x31, 0x32, 0x33, 0x41] :
    List (BitVec 8)), ∀ a b c : Word, decode (Command.mk op a b) = decode (Command.mk op a c)) ∧
  (∀ a b c d : Word, decode (Command.mk 0x40 a b) = decode (Command.mk 0x40 c d))

/-- R76: exactly the 223 OP values outside the map are reserved; a word with a reserved OP is refused by the decoder by
its OP, and executing it writes ERR = IllegalCommand, presents the response with the old R, and changes nothing else; of
the commands only LDC with an index above 11 ends so. -/
def Obligations.ReservedOpsAreIllegalCommands : Prop :=
  ((List.range 256).filter fun n => BitVec.ofNat 8 n ∉ assignedOps).length = 223 ∧
  (∀ w : Command, Command.op w ∉ assignedOps ↔ decode w = .error (.reservedOp (Command.op w))) ∧
  (∀ (i : Instr) (s t : State), exec i s = .next t → t.err = .raised .illegalCommand →
    ∃ a : Word, i = .ldc a ∧ 11 < a.toNat) ∧
  ∀ (w : Command) (s : State) (rest : List HostAction), Command.op w ∉ assignedOps → s.inbox = .command w :: rest →
    step s = .next { s with
      err := .raised .illegalCommand
      inbox := rest
      replies := .response (BitVec.ofNat 3 4 ++ s.r) :: s.replies }

/-- R80: the five words written out in the rule decode to the commands they stand for. -/
def Obligations.WrittenOutWordsDecode : Prop :=
  decode 0x030000060000000800 = .ok (.mul 1536 2048) ∧
  decode 0x300000100000000000 = .ok (.sqrt 4096) ∧
  decode 0x3400000400FFFFFC00 = .ok (.atan2 1024 0xFFFFFC00) ∧
  decode 0x140000000700000000 = .ok (.ldc 7) ∧
  decode 0x400000000000000000 = .ok .parse

/-! ### The step and the ports -/

/-- R57, R265: with a command word at the head of the host's actions that decodes to `i`, a step is `exec i` on the state
with that action taken, with the response {ERR, R} of the ending presented. With nothing presented the block is idle and
a step holds its state (R256). -/
def Obligations.StepRunsTheDecodedCommand : Prop :=
  (∀ s : State, s.inbox = [] → step s = .next s) ∧
  ∀ (s : State) (w : Command) (rest : List HostAction) (i : Instr),
    s.inbox = .command w :: rest → decode w = .ok i →
    step s = match exec i { s with inbox := rest } with
      | .next t => .next { t with replies := .response t.response :: t.replies }
      | .fault x => .fault x
      | .refused x => .refused x

/-- R73, R241: the response carries ERR's code in bits 34 to 32 and R in bits 31 to 0. -/
def Obligations.ResponseCarriesErrAndR : Prop :=
  ∀ s : State, s.response.extractLsb' 0 32 = s.r ∧
    s.response.extractLsb' 32 3 =
      (match s.err with
        | .ok => 0
        | .raised .divideByZero => 1
        | .raised .domainError => 2
        | .raised .formatError => 3
        | .raised .illegalCommand => 4)

/-- R55, R264: the text port. A byte write changes that byte alone; a TXT_LEN above 64 is stored as 64; the reads return
TXT[i] and TXT_LEN and change nothing of the block. -/
def Obligations.TextPortReadsAndWrites : Prop :=
  ∀ (s : State) (rest : List HostAction), s.wf →
    (∀ i b, s.inbox = .writeTxt i b :: rest → ∃ t, step s = .next t ∧ t = { s with inbox := rest, txt := t.txt } ∧
      t.txt.read i.val = b ∧ ∀ j, j ≠ i.val → t.txt.read j = s.txt.read j) ∧
    (∀ v, s.inbox = .writeLen v :: rest → ∃ t, step s = .next t ∧ t = { s with inbox := rest, txtLen := t.txtLen } ∧
      t.txtLen.toNat = min v 64) ∧
    (∀ i : Fin 64, s.inbox = .readTxt i :: rest →
      step s = .next { s with inbox := rest, replies := .txtByte (s.txt.read i.val) :: s.replies }) ∧
    (s.inbox = .readLen :: rest →
      step s = .next { s with inbox := rest, replies := .txtLen s.txtLen :: s.replies })

/-- R260: the reset input leaves ERR = OK and TXT_LEN = 0, does not touch the ROMs and gives no response. Nothing is said
of R and of TXT, which are unspecified. -/
def Obligations.ResetInputClearsErrAndLength : Prop :=
  ∀ (s : State) (rest : List HostAction), s.inbox = .reset :: rest →
    ∃ t, step s = .next t ∧ t.err = .ok ∧ t.txtLen = 0 ∧ t.rom = s.rom ∧ t.inbox = rest ∧ t.replies = s.replies

/-- R260 in the state after reset: ERR = OK, TXT_LEN = 0, no command in progress, and PARSE raises FormatError for the
empty text (R261). Nothing is said of R and of TXT. -/
def Obligations.ResetStateHasOkAndEmptyText : Prop :=
  State.reset.err = .ok ∧ State.reset.txtLen = 0 ∧ State.reset.inbox = [] ∧ Raises .parse State.reset .formatError

/-- The invariant of R25 and R55 holds after reset (that TXT is canonical there rests on log entry 2, the model's
choice). -/
def Obligations.ResetStateIsLegal : Prop := State.reset.wf

/-- R25, R55: TXT stays in canonical form within its 64 bytes and TXT_LEN stays at most 64 over every step, from every
legal state. -/
def Obligations.StepKeepsTheStateLegal : Prop := ∀ s t : State, s.wf → step s = .next t → t.wf

/-- R265, R243, R270: from every legal state a step answers a next state, never a fault or a refusal; and when it accepts
a command, exactly one response is presented, {ERR, R} as the command leaves them, a raising command included. -/
def Obligations.EveryCommandEndsWithOneResponse : Prop :=
  ∀ s : State, s.wf → ∃ t, step s = .next t ∧
    ∀ w rest, s.inbox = .command w :: rest → t.inbox = rest ∧ t.replies = .response t.response :: s.replies
end

