-- ==== Sys2Proof/Laws/Decode.lean ====
section
/-! SUPPORT. The fields of a command word put together from its fields, and a word taken apart. -/

namespace Sys2Proof

/-- The bits of a command word, by field (R71). -/
theorem Command.getLsbD_mk (op : BitVec 8) (a b : Word) (i : Nat) :
    BitVec.getLsbD (Command.mk op a b) i =
      if i < 64 then (if i < 32 then b.getLsbD i else a.getLsbD (i - 32)) else op.getLsbD (i - 64) := by
  have h1 : (a ++ b).getLsbD i = if i < 32 then b.getLsbD i else a.getLsbD (i - 32) := by
    rw [BitVec.getLsbD_append]
  have h2 : (op ++ (a ++ b)).getLsbD i = if i < 64 then (a ++ b).getLsbD i else op.getLsbD (i - 64) :=
    BitVec.getLsbD_append
  rw [← h1, ← h2]
  rfl

@[simp] theorem Command.op_mk (op : BitVec 8) (a b : Word) : Command.op (Command.mk op a b) = op := by
  ext i hi
  rw [← BitVec.getLsbD_eq_getElem, ← BitVec.getLsbD_eq_getElem]
  rw [Command.op, BitVec.getLsbD_extractLsb', Command.getLsbD_mk]
  simp [hi]

@[simp] theorem Command.fieldA_mk (op : BitVec 8) (a b : Word) : Command.fieldA (Command.mk op a b) = a := by
  ext i hi
  rw [← BitVec.getLsbD_eq_getElem, ← BitVec.getLsbD_eq_getElem]
  rw [Command.fieldA, BitVec.getLsbD_extractLsb', Command.getLsbD_mk]
  simp [hi, show 32 + i < 64 by omega]

@[simp] theorem Command.fieldB_mk (op : BitVec 8) (a b : Word) : Command.fieldB (Command.mk op a b) = b := by
  ext i hi
  rw [← BitVec.getLsbD_eq_getElem, ← BitVec.getLsbD_eq_getElem]
  rw [Command.fieldB, BitVec.getLsbD_extractLsb', Command.getLsbD_mk]
  simp [hi, show i < 64 by omega]

/-- A command word is its three fields. -/
theorem Command.mk_fields (w : Command) :
    Command.mk (Command.op w) (Command.fieldA w) (Command.fieldB w) = w := by
  apply BitVec.eq_of_getLsbD_eq
  intro i hi
  rw [Command.getLsbD_mk]
  simp only [Command.op, Command.fieldA, Command.fieldB, BitVec.getLsbD_extractLsb']
  by_cases h1 : i < 64
  · by_cases h2 : i < 32
    · simp [h1, h2]
    · simp [h1, h2, show i - 32 < 32 by omega, show 32 + (i - 32) = i by omega]
  · simp [h1, show i - 64 < 8 by omega, show 64 + (i - 64) = i by omega]

/-- What the decoder answers on a word put together from its fields. -/
theorem decode_mk (op : BitVec 8) (a b : Word) :
    decode (Command.mk op a b) =
      match opcodeMap.find? (fun row => row.1 == op) with
      | some row => .ok (row.2 a b)
      | none => .error (.reservedOp op) := by
  simp only [decode, Command.op_mk, Command.fieldA_mk, Command.fieldB_mk] <;> rfl

end Sys2Proof
end

