-- ==== Sys2Proof/Laws/State.lean ====
section
/-! SUPPORT. One lemma per field per named update of the state, so that no later proof unfolds a record update. -/

namespace Sys2Proof.Machine

/-! ### Ending with a result -/

@[simp] theorem State.complete_r (s : State) (v : Word) : (s.complete v).r = v := rfl
@[simp] theorem State.complete_err (s : State) (v : Word) : (s.complete v).err = .ok := rfl
@[simp] theorem State.complete_txt (s : State) (v : Word) : (s.complete v).txt = s.txt := rfl
@[simp] theorem State.complete_txtLen (s : State) (v : Word) : (s.complete v).txtLen = s.txtLen := rfl
@[simp] theorem State.complete_rom (s : State) (v : Word) : (s.complete v).rom = s.rom := rfl
@[simp] theorem State.complete_free (s : State) (v : Word) : (s.complete v).free = s.free := rfl
@[simp] theorem State.complete_inbox (s : State) (v : Word) : (s.complete v).inbox = s.inbox := rfl
@[simp] theorem State.complete_replies (s : State) (v : Word) : (s.complete v).replies = s.replies := rfl

/-! ### Ending with an error kind -/

@[simp] theorem State.raise_r (s : State) (k : ErrorKind) : (s.raise k).r = s.r := rfl
@[simp] theorem State.raise_err (s : State) (k : ErrorKind) : (s.raise k).err = .raised k := rfl
@[simp] theorem State.raise_txt (s : State) (k : ErrorKind) : (s.raise k).txt = s.txt := rfl
@[simp] theorem State.raise_txtLen (s : State) (k : ErrorKind) : (s.raise k).txtLen = s.txtLen := rfl
@[simp] theorem State.raise_rom (s : State) (k : ErrorKind) : (s.raise k).rom = s.rom := rfl
@[simp] theorem State.raise_free (s : State) (k : ErrorKind) : (s.raise k).free = s.free := rfl
@[simp] theorem State.raise_inbox (s : State) (k : ErrorKind) : (s.raise k).inbox = s.inbox := rfl
@[simp] theorem State.raise_replies (s : State) (k : ErrorKind) : (s.raise k).replies = s.replies := rfl

@[simp] theorem State.finish_ok (s : State) (v : Word) : s.finish (.ok v) = s.complete v := rfl
@[simp] theorem State.finish_error (s : State) (k : ErrorKind) : s.finish (.error k) = s.raise k := rfl

/-! ### Ending with a text -/

@[simp] theorem State.completeText_r (s : State) (t : List Byte) : (s.completeText t).r = s.r := rfl
@[simp] theorem State.completeText_err (s : State) (t : List Byte) : (s.completeText t).err = .ok := rfl
@[simp] theorem State.completeText_txt (s : State) (t : List Byte) :
    (s.completeText t).txt = s.txt.writeAll 0 (t ++ s.freeBytesFrom t.length) := rfl
@[simp] theorem State.completeText_txtLen (s : State) (t : List Byte) :
    (s.completeText t).txtLen = BitVec.ofNat 7 t.length := rfl
@[simp] theorem State.completeText_rom (s : State) (t : List Byte) : (s.completeText t).rom = s.rom := rfl
@[simp] theorem State.completeText_free (s : State) (t : List Byte) : (s.completeText t).free = s.free + 1 := rfl
@[simp] theorem State.completeText_inbox (s : State) (t : List Byte) : (s.completeText t).inbox = s.inbox := rfl
@[simp] theorem State.completeText_replies (s : State) (t : List Byte) :
    (s.completeText t).replies = s.replies := rfl

/-! ### The ports -/

@[simp] theorem State.reply_r (s : State) (x : HostReply) : (s.reply x).r = s.r := rfl
@[simp] theorem State.reply_err (s : State) (x : HostReply) : (s.reply x).err = s.err := rfl
@[simp] theorem State.reply_txt (s : State) (x : HostReply) : (s.reply x).txt = s.txt := rfl
@[simp] theorem State.reply_txtLen (s : State) (x : HostReply) : (s.reply x).txtLen = s.txtLen := rfl
@[simp] theorem State.reply_rom (s : State) (x : HostReply) : (s.reply x).rom = s.rom := rfl
@[simp] theorem State.reply_free (s : State) (x : HostReply) : (s.reply x).free = s.free := rfl
@[simp] theorem State.reply_inbox (s : State) (x : HostReply) : (s.reply x).inbox = s.inbox := rfl
@[simp] theorem State.reply_replies (s : State) (x : HostReply) : (s.reply x).replies = x :: s.replies := rfl

theorem State.respond_eq (s : State) : s.respond = s.reply (.response s.response) := rfl

@[simp] theorem State.assertReset_err (s : State) : s.assertReset.err = .ok := rfl
@[simp] theorem State.assertReset_txtLen (s : State) : s.assertReset.txtLen = 0 := rfl
@[simp] theorem State.assertReset_txt (s : State) :
    s.assertReset.txt = s.txt.writeAll 0 (s.freeBytesFrom 0) := by simp only [State.assertReset]
@[simp] theorem State.assertReset_rom (s : State) : s.assertReset.rom = s.rom := rfl
@[simp] theorem State.assertReset_free (s : State) : s.assertReset.free = s.free + 1 := rfl
@[simp] theorem State.assertReset_inbox (s : State) : s.assertReset.inbox = s.inbox := rfl
@[simp] theorem State.assertReset_replies (s : State) : s.assertReset.replies = s.replies := rfl

@[simp] theorem State.present_inbox (s : State) (w : Command) :
    (s.present w).inbox = .command w :: s.inbox := rfl

/-- Presenting a word and taking it off the port again is the old state. -/
@[simp] theorem State.present_take (s : State) (w : Command) :
    { s.present w with inbox := s.inbox } = s := rfl

/-- There is one ROM image. -/
theorem RomImage.eq_f10 (m : RomImage) : m = .f10 := by cases m; rfl

@[simp] theorem RomImage.build_eq (m : RomImage) : m.build = buildF10 := by cases m; rfl

end Sys2Proof.Machine
end

