-- ==== Sys2Proof/Laws/Memory.lean ====
section
/-! SUPPORT. The laws of TXT: a read after a write, and every memory operation keeps the canonical form. -/

namespace Sys2Proof.Machine

@[simp] theorem Memory.read_nil (i : Nat) : Memory.read [] i = Memory.unlisted := rfl

@[simp] theorem Memory.read_cons (k : Nat) (b : Byte) (m : Memory) (i : Nat) :
    Memory.read ((k, b) :: m) i = if k = i then b else Memory.read m i := rfl

/-- The canonical form, one cell at a time. -/
theorem Memory.wf_cons {k : Nat} {b : Byte} {m : Memory} :
    Memory.wf ((k, b) :: m) ↔
      (∀ c ∈ m, k < c.1) ∧ k < Config.txtCap ∧ b ≠ Memory.unlisted ∧ Memory.wf m := by
  simp only [Memory.wf, List.pairwise_cons, List.forall_mem_cons]
  tauto

/-- In canonical form an index below the first one is unlisted. -/
theorem Memory.read_of_lt {m : Memory} {i : Nat} (h : ∀ c ∈ m, i < c.1) :
    Memory.read m i = Memory.unlisted := by
  induction m with
  | nil => rfl
  | cons c m ih =>
    obtain ⟨k, b⟩ := c
    have hk : i < k := h (k, b) (List.mem_cons_self ..)
    rw [Memory.read_cons, if_neg (by omega)]
    exact ih fun c hc => h c (List.mem_cons_of_mem _ hc)

/-- The indices a write leaves are the old ones and the one written. -/
theorem Memory.mem_write {m : Memory} {i : Nat} {b : Byte} {c : Host.Cell}
    (h : c ∈ Memory.write m i b) : c ∈ m ∨ (c = (i, b) ∧ b ≠ Memory.unlisted) := by
  induction m with
  | nil =>
    simp only [Memory.write] at h
    split at h <;> simp_all
  | cons d m ih =>
    obtain ⟨k, e⟩ := d
    simp only [Memory.write] at h
    split at h
    · rcases List.mem_cons.1 h with h | h
      · exact .inl (h ▸ List.mem_cons_self ..)
      · exact (ih h).imp (List.mem_cons_of_mem _) id
    · split at h <;> split at h <;> simp_all
      all_goals tauto

/-- A write below TXT_CAP keeps the canonical form. -/
theorem Memory.write_wf {m : Memory} {i : Nat} {b : Byte} (hm : Memory.wf m) (hi : i < Config.txtCap) :
    Memory.wf (Memory.write m i b) := by
  induction m with
  | nil =>
    simp only [Memory.write]
    split
    · exact hm
    · exact Memory.wf_cons.2 ⟨by simp, hi, by assumption, by simp [Memory.wf]⟩
  | cons d m ih =>
    obtain ⟨k, e⟩ := d
    obtain ⟨hlt, hk, he, hm'⟩ := Memory.wf_cons.1 hm
    simp only [Memory.write]
    split
    · refine Memory.wf_cons.2 ⟨fun c hc => ?_, hk, he, ih hm'⟩
      rcases Memory.mem_write hc with h | ⟨h, -⟩
      · exact hlt c h
      · rw [h]; assumption
    · split
      · split
        · exact hm'
        · exact Memory.wf_cons.2 ⟨fun c hc => by have := hlt c hc; omega, hi, by assumption, hm'⟩
      · split
        · exact hm
        · refine Memory.wf_cons.2 ⟨fun c hc => ?_, hi, by assumption, hm⟩
          rcases List.mem_cons.1 hc with h | h
          · rw [h]; simp only; omega
          · have := hlt c h; omega

/-- Reading the index just written gives the byte written. -/
theorem Memory.read_write_same {m : Memory} (hm : Memory.wf m) (i : Nat) (b : Byte) :
    Memory.read (Memory.write m i b) i = b := by
  induction m with
  | nil => by_cases h : b = Memory.unlisted <;> simp [Memory.write, h]
  | cons d m ih =>
    obtain ⟨k, e⟩ := d
    obtain ⟨hlt, -, -, hm'⟩ := Memory.wf_cons.1 hm
    simp only [Memory.write]
    split
    · rw [Memory.read_cons, if_neg (by omega)]; exact ih hm'
    · split
      · rename_i hki
        split
        · rename_i hb
          rw [hb, Memory.read_of_lt fun c hc => hki ▸ hlt c hc]
        · simp
      · split
        · rename_i hb
          rw [Memory.read_cons, if_neg (by assumption), hb,
            Memory.read_of_lt fun c hc => by have := hlt c hc; omega]
        · simp

/-- Reading another index gives what it gave before. -/
theorem Memory.read_write_other {m : Memory} {i j : Nat} (b : Byte) (h : i ≠ j) :
    Memory.read (Memory.write m i b) j = Memory.read m j := by
  induction m with
  | nil => by_cases hb : b = Memory.unlisted <;> simp [Memory.write, hb, h]
  | cons d m ih =>
    obtain ⟨k, e⟩ := d
    simp only [Memory.write]
    split
    · rw [Memory.read_cons, Memory.read_cons, ih]
    · split
      · rename_i hki
        split <;> simp [hki, h]
      · split <;> simp [h]

/-- Writing a run of bytes inside TXT keeps the canonical form. -/
theorem Memory.writeAll_wf {bs : List Byte} {m : Memory} {i : Nat} (hm : Memory.wf m)
    (hi : i + bs.length ≤ Config.txtCap) : Memory.wf (Memory.writeAll m i bs) := by
  induction bs generalizing m i with
  | nil => exact hm
  | cons b bs ih =>
    simp only [List.length_cons] at hi
    exact ih (Memory.write_wf hm (by omega)) (by omega)

/-- Below the run nothing changes. -/
theorem Memory.read_writeAll_lt {bs : List Byte} {m : Memory} {i j : Nat} (h : j < i) :
    Memory.read (Memory.writeAll m i bs) j = Memory.read m j := by
  induction bs generalizing m i with
  | nil => rfl
  | cons b bs ih =>
    rw [Memory.writeAll, ih (by omega), Memory.read_write_other b (by omega)]

/-- Above the run nothing changes. -/
theorem Memory.read_writeAll_ge {bs : List Byte} {m : Memory} {i j : Nat} (h : i + bs.length ≤ j) :
    Memory.read (Memory.writeAll m i bs) j = Memory.read m j := by
  induction bs generalizing m i with
  | nil => rfl
  | cons b bs ih =>
    simp only [List.length_cons] at h
    rw [Memory.writeAll, ih (by omega), Memory.read_write_other b (by omega)]

/-- Inside the run the bytes written are read, where the run lies inside TXT. -/
theorem Memory.read_writeAll_mem {bs : List Byte} {m : Memory} {i k : Nat} (hm : Memory.wf m)
    (hi : i + bs.length ≤ Config.txtCap) (hk : k < bs.length) :
    Memory.read (Memory.writeAll m i bs) (i + k) = bs[k] := by
  induction bs generalizing m i k with
  | nil => simp at hk
  | cons b bs ih =>
    simp only [List.length_cons] at hi hk
    cases k with
    | zero =>
      rw [Memory.writeAll, Memory.read_writeAll_lt (by omega)]
      exact Memory.read_write_same hm _ _
    | succ k =>
      have := ih (m := Memory.write m i b) (i := i + 1) (k := k) (Memory.write_wf hm (by omega)) (by omega)
        (by omega)
      rw [Memory.writeAll, ← Nat.add_assoc, Nat.add_right_comm, this]
      rfl

/-- The free bytes drawn fill TXT from `n` upward. -/
@[simp] theorem State.length_freeBytesFrom (s : State) (n : Nat) :
    (s.freeBytesFrom n).length = Config.txtCap - n := by simp [State.freeBytesFrom]

/-- TXT at reset is in canonical form. -/
theorem State.reset_txt_wf : Memory.wf State.reset.txt := by decide

end Sys2Proof.Machine
end

