-- ==== Sys2Proof/Laws/Ops.lean ====
section
/-! SUPPORT. For each shared operation, once, everything it can do: the integer primitives, the endings of a command,
the text buffer, `exec`, and the service of a host action. -/

namespace Sys2Proof.Machine

/-! ### Integer primitives -/

/-- `s32` wraps modulo 2^32 into the signed range (R14). -/
@[simp] theorem toInt_s32 (v : Int) : (s32 v).toInt = v.bmod (2 ^ 32) := BitVec.toInt_ofInt v

@[simp] theorem sext32_eq (x : Word) : sext32 x = x.toInt := rfl

@[simp] theorem zext32_eq (x : Word) : zext32 x = x.toNat := rfl

/-- `s32` keeps an integer of the signed range. -/
theorem toInt_s32_of_range {v : Int} (h : -2147483648 ≤ v ∧ v ≤ 2147483647) : (s32 v).toInt = v := by
  rw [toInt_s32]
  have := Int.bmod_eq_of_le (n := v) (m := 2 ^ 32) (by omega) (by omega)
  exact this

/-- A raw store is the pattern of its signed reading. -/
@[simp] theorem s32_toInt (x : Word) : s32 x.toInt = x := BitVec.ofInt_toInt

/-- The signed range of a raw store (R100). -/
theorem toInt_range (x : Word) : -2147483648 ≤ x.toInt ∧ x.toInt ≤ 2147483647 := by
  have h1 := BitVec.le_toInt x
  have h2 := BitVec.toInt_lt (x := x)
  norm_num at h1 h2
  omega

/-- Two raw stores with one signed reading are one. -/
theorem word_ext {x y : Word} (h : x.toInt = y.toInt) : x = y := BitVec.eq_of_toInt_eq h

/-- `clamp` as a maximum of a minimum (R14). -/
theorem clamp_eq (v : Int) : clamp v = max (-2147483648) (min 2147483647 v) := by
  unfold clamp maxInt minInt
  split
  · omega
  · split <;> omega

/-- The sign test is the sign bit. -/
theorem isNeg_iff (x : Word) : isNeg x = true ↔ x.toInt < 0 := decide_eq_true_iff

/-! ### The endings of a command -/

/-- A command that may raise ends with its result or with its error kind. -/
theorem State.finish_cases (s : State) (x : Except ErrorKind Word) :
    (∃ v, x = .ok v ∧ s.finish x = s.complete v) ∨ (∃ k, x = .error k ∧ s.finish x = s.raise k) := by
  cases x with
  | ok v => exact .inl ⟨v, rfl, rfl⟩
  | error k => exact .inr ⟨k, rfl, rfl⟩

/-- `mod` raises only for a zero divisor, and DivideByZero then (R108). -/
theorem modRaw_cases (a b : Word) :
    (b = 0 ∧ modRaw a b = .error .divideByZero) ∨ (b ≠ 0 ∧ modRaw a b = .ok (remainder a b)) := by
  by_cases h : b = 0
  · exact .inl ⟨h, if_pos h⟩
  · exact .inr ⟨h, if_neg h⟩

/-- `div` raises only for a zero divisor, and DivideByZero then (R150). -/
theorem divRaw_cases (f : Nat) (a b : Word) :
    (b = 0 ∧ divRaw f a b = .error .divideByZero) ∨ (b ≠ 0 ∧ divRaw f a b = .ok (quotient f a b)) := by
  by_cases h : b = 0
  · exact .inl ⟨h, if_pos h⟩
  · exact .inr ⟨h, if_neg h⟩

/-! ### The text buffer -/

/-- Inside the buffer, the text is the bytes TXT[0 .. TXT_LEN-1] (R25). -/
theorem State.text_eq {s : State} (h : s.txtLen.toNat ≤ Config.txtCap) :
    s.text = some ((List.range s.txtLen.toNat).map s.txt.read) := by
  have key : ∀ l : List Nat, (∀ i ∈ l, i < Config.txtCap) → l.mapM s.txtRead = some (l.map s.txt.read) := by
    intro l
    induction l with
    | nil => intro _; rfl
    | cons i l ih =>
      intro hl
      have hi : i < Config.txtCap := hl i (List.mem_cons_self ..)
      simp [List.mapM_cons, State.txtRead, hi, ih fun j hj => hl j (List.mem_cons_of_mem _ hj)]
  exact key _ fun i hi => lt_of_lt_of_le (List.mem_range.1 hi) h

/-- A text that fits is the text afterwards, whatever the free bytes behind it are (R216). -/
theorem State.text_completeText {s : State} {t : List Byte} (hs : s.txt.wf) (ht : t.length ≤ Config.txtCap) :
    (s.completeText t).text = some t := by
  have ht64 : t.length ≤ 64 := ht
  have hlen : (s.completeText t).txtLen.toNat = t.length := by
    rw [State.completeText_txtLen, BitVec.toNat_ofNat]
    omega
  rw [State.text_eq (by rw [hlen]; exact ht), hlen, State.completeText_txt]
  congr 1
  apply List.ext_getElem
  · simp
  · intro k h1 h2
    have := Memory.read_writeAll_mem (bs := t ++ s.freeBytesFrom t.length) (m := s.txt) (i := 0) (k := k) hs
      (by simp [Config.txtCap]; omega) (by simp; omega)
    simp only [Nat.zero_add] at this
    rw [List.getElem_map, List.getElem_range, this, List.getElem_append_left h2]

/-- TXT stays in canonical form when a text that fits is written. -/
theorem State.completeText_wf {s : State} {t : List Byte} (hs : s.wf) (ht : t.length ≤ Config.txtCap) :
    (s.completeText t).wf := by
  have ht64 : t.length ≤ 64 := ht
  refine ⟨?_, ?_⟩
  · rw [State.completeText_txt]
    exact Memory.writeAll_wf hs.1 (by simp [Config.txtCap]; omega)
  · rw [State.completeText_txtLen, BitVec.toNat_ofNat]
    exact le_trans (Nat.mod_le _ _) ht

/-! ### What a command, and a host action, can do -/

/-- Every next state of a command is one of three endings: a result, an error kind, or TOSTR's text. -/
theorem exec_cases {i : Instr} {s t : State} (h : exec i s = .next t) :
    (∃ v, t = s.complete v) ∨ (∃ k, t = s.raise k) ∨
      (∃ a, i = .tostr a ∧ t = s.completeText (textOf Config.F a)) := by
  have fin : ∀ x, Host.Outcome.next (s.finish x) = (.next t : Host.Outcome State Fault Refusal) →
      (∃ v, t = s.complete v) ∨ (∃ k, t = s.raise k) := by
    intro x hx
    rcases s.finish_cases x with ⟨v, -, hv⟩ | ⟨k, -, hk⟩
    · exact .inl ⟨v, by rw [← hv]; injection hx with hx; exact hx.symm⟩
    · exact .inr ⟨k, by rw [← hk]; injection hx with hx; exact hx.symm⟩
  have com : ∀ v, Host.Outcome.next (s.complete v) = (.next t : Host.Outcome State Fault Refusal) →
      ∃ v, t = s.complete v := fun v hv => ⟨v, by injection hv with hv; exact hv.symm⟩
  cases i with
  | parse =>
    simp only [exec, execParse] at h
    split at h
    · exact (fin _ h).imp_right .inl
    · cases h
  | tostr a => exact .inr (.inr ⟨a, rfl, by injection h with h; exact h.symm⟩)
  | mod a b => exact (fin _ h).imp_right .inl
  | div a b => exact (fin _ h).imp_right .inl
  | ldc a => exact (fin _ h).imp_right .inl
  | sdiv a b => exact (fin _ h).imp_right .inl
  | smod a b => exact (fin _ h).imp_right .inl
  | sqrt a => exact (fin _ h).imp_right .inl
  | _ => exact .inl (com _ h)

/-- Every next state of a step: the block idles, or it has served the host's next action. -/
theorem step_cases {s t : State} (h : step s = .next t) :
    (s.inbox = [] ∧ t = s) ∨
      (∃ x rest, s.inbox = x :: rest ∧ serve x { s with inbox := rest } = .next t) := by
  unfold step at h
  split at h
  · rename_i he
    exact .inl ⟨he, by injection h with h; exact h.symm⟩
  · rename_i x rest he
    exact .inr ⟨x, rest, he, h⟩

/-- Every next state of the service of a command word: the error kind of a reserved OP, or the decoded command's own
ending, with its response presented. -/
theorem serveCommand_cases {w : Command} {s t : State} (h : serveCommand w s = .next t) :
    ((∃ e, decode w = .error e) ∧ t = (s.raise .illegalCommand).respond) ∨
      (∃ i u, decode w = .ok i ∧ exec i s = .next u ∧ t = u.respond) := by
  unfold serveCommand at h
  split at h
  · rename_i e he
    exact .inl ⟨⟨e, he⟩, by injection h with h; exact h.symm⟩
  · rename_i i hi
    split at h
    · rename_i u hu
      exact .inr ⟨i, u, hi, hu, by injection h with h; exact h.symm⟩
    · cases h
    · cases h

end Sys2Proof.Machine
end

