-- ==== Sys2Proof/Laws/PerInstr.lean ====
section
/-! SUPPORT. One lemma per instruction about its encoding: the row of the opcode map that its encoded OP names rebuilds
the instruction from the encoded fields. -/

namespace Sys2Proof.Laws.EncodedOp

/-- The row of the opcode map found at the encoded OP rebuilds `i` from the encoded fields (R71, R74, R75). -/
def Statement (i : Instr) : Prop :=
  ∃ row ∈ opcodeMap, row.1 = Command.op (encode i) ∧
    row.2 (Command.fieldA (encode i)) (Command.fieldB (encode i)) = i

theorem add (a b : Word) : Statement (.add a b) :=
  ⟨(0x01, fun a b => .add a b), List.mem_of_getElem? (i := 0) rfl, by simp [encode], by simp [encode]⟩

theorem sub (a b : Word) : Statement (.sub a b) :=
  ⟨(0x02, fun a b => .sub a b), List.mem_of_getElem? (i := 1) rfl, by simp [encode], by simp [encode]⟩

theorem mul (a b : Word) : Statement (.mul a b) :=
  ⟨(0x03, fun a b => .mul a b), List.mem_of_getElem? (i := 2) rfl, by simp [encode], by simp [encode]⟩

theorem div (a b : Word) : Statement (.div a b) :=
  ⟨(0x04, fun a b => .div a b), List.mem_of_getElem? (i := 3) rfl, by simp [encode], by simp [encode]⟩

theorem mod (a b : Word) : Statement (.mod a b) :=
  ⟨(0x05, fun a b => .mod a b), List.mem_of_getElem? (i := 4) rfl, by simp [encode], by simp [encode]⟩

theorem neg (a : Word) : Statement (.neg a) :=
  ⟨(0x06, fun a _ => .neg a), List.mem_of_getElem? (i := 5) rfl, by simp [encode], by simp [encode]⟩

theorem abs (a : Word) : Statement (.abs a) :=
  ⟨(0x07, fun a _ => .abs a), List.mem_of_getElem? (i := 6) rfl, by simp [encode], by simp [encode]⟩

theorem sign (a : Word) : Statement (.sign a) :=
  ⟨(0x08, fun a _ => .sign a), List.mem_of_getElem? (i := 7) rfl, by simp [encode], by simp [encode]⟩

theorem floor (a : Word) : Statement (.floor a) :=
  ⟨(0x09, fun a _ => .floor a), List.mem_of_getElem? (i := 8) rfl, by simp [encode], by simp [encode]⟩

theorem ceil (a : Word) : Statement (.ceil a) :=
  ⟨(0x0A, fun a _ => .ceil a), List.mem_of_getElem? (i := 9) rfl, by simp [encode], by simp [encode]⟩

theorem round (a : Word) : Statement (.round a) :=
  ⟨(0x0B, fun a _ => .round a), List.mem_of_getElem? (i := 10) rfl, by simp [encode], by simp [encode]⟩

theorem rndeven (a : Word) : Statement (.rndeven a) :=
  ⟨(0x0C, fun a _ => .rndeven a), List.mem_of_getElem? (i := 11) rfl, by simp [encode], by simp [encode]⟩

theorem cmplt (a b : Word) : Statement (.cmplt a b) :=
  ⟨(0x0D, fun a b => .cmplt a b), List.mem_of_getElem? (i := 12) rfl, by simp [encode], by simp [encode]⟩

theorem cmpgt (a b : Word) : Statement (.cmpgt a b) :=
  ⟨(0x0E, fun a b => .cmpgt a b), List.mem_of_getElem? (i := 13) rfl, by simp [encode], by simp [encode]⟩

theorem cmple (a b : Word) : Statement (.cmple a b) :=
  ⟨(0x0F, fun a b => .cmple a b), List.mem_of_getElem? (i := 14) rfl, by simp [encode], by simp [encode]⟩

theorem cmpge (a b : Word) : Statement (.cmpge a b) :=
  ⟨(0x10, fun a b => .cmpge a b), List.mem_of_getElem? (i := 15) rfl, by simp [encode], by simp [encode]⟩

theorem cmpeq (a b : Word) : Statement (.cmpeq a b) :=
  ⟨(0x11, fun a b => .cmpeq a b), List.mem_of_getElem? (i := 16) rfl, by simp [encode], by simp [encode]⟩

theorem fromint (a : Word) : Statement (.fromint a) :=
  ⟨(0x12, fun a _ => .fromint a), List.mem_of_getElem? (i := 17) rfl, by simp [encode], by simp [encode]⟩

theorem toint (a : Word) : Statement (.toint a) :=
  ⟨(0x13, fun a _ => .toint a), List.mem_of_getElem? (i := 18) rfl, by simp [encode], by simp [encode]⟩

theorem ldc (a : Word) : Statement (.ldc a) :=
  ⟨(0x14, fun a _ => .ldc a), List.mem_of_getElem? (i := 19) rfl, by simp [encode], by simp [encode]⟩

theorem sadd (a b : Word) : Statement (.sadd a b) :=
  ⟨(0x20, fun a b => .sadd a b), List.mem_of_getElem? (i := 20) rfl, by simp [encode], by simp [encode]⟩

theorem ssub (a b : Word) : Statement (.ssub a b) :=
  ⟨(0x21, fun a b => .ssub a b), List.mem_of_getElem? (i := 21) rfl, by simp [encode], by simp [encode]⟩

theorem smul (a b : Word) : Statement (.smul a b) :=
  ⟨(0x22, fun a b => .smul a b), List.mem_of_getElem? (i := 22) rfl, by simp [encode], by simp [encode]⟩

theorem sdiv (a b : Word) : Statement (.sdiv a b) :=
  ⟨(0x23, fun a b => .sdiv a b), List.mem_of_getElem? (i := 23) rfl, by simp [encode], by simp [encode]⟩

theorem smod (a b : Word) : Statement (.smod a b) :=
  ⟨(0x24, fun a b => .smod a b), List.mem_of_getElem? (i := 24) rfl, by simp [encode], by simp [encode]⟩

theorem sabs (a : Word) : Statement (.sabs a) :=
  ⟨(0x25, fun a _ => .sabs a), List.mem_of_getElem? (i := 25) rfl, by simp [encode], by simp [encode]⟩

theorem sqrt (a : Word) : Statement (.sqrt a) :=
  ⟨(0x30, fun a _ => .sqrt a), List.mem_of_getElem? (i := 26) rfl, by simp [encode], by simp [encode]⟩

theorem sin (a : Word) : Statement (.sin a) :=
  ⟨(0x31, fun a _ => .sin a), List.mem_of_getElem? (i := 27) rfl, by simp [encode], by simp [encode]⟩

theorem cos (a : Word) : Statement (.cos a) :=
  ⟨(0x32, fun a _ => .cos a), List.mem_of_getElem? (i := 28) rfl, by simp [encode], by simp [encode]⟩

theorem tan (a : Word) : Statement (.tan a) :=
  ⟨(0x33, fun a _ => .tan a), List.mem_of_getElem? (i := 29) rfl, by simp [encode], by simp [encode]⟩

theorem atan2 (y x : Word) : Statement (.atan2 y x) :=
  ⟨(0x34, fun y x => .atan2 y x), List.mem_of_getElem? (i := 30) rfl, by simp [encode], by simp [encode]⟩

theorem parse : Statement .parse :=
  ⟨(0x40, fun _ _ => .parse), List.mem_of_getElem? (i := 31) rfl, by simp [encode], by simp⟩

theorem tostr (a : Word) : Statement (.tostr a) :=
  ⟨(0x41, fun a _ => .tostr a), List.mem_of_getElem? (i := 32) rfl, by simp [encode], by simp [encode]⟩

end Sys2Proof.Laws.EncodedOp
end

