-- ==== Sys2Proof/Machine/Assembler.lean ====
section
/-! DEFINITION. The host's assembler notation (R78 to R80): the reading of a line, and what the line asks the host to do
at the ports. It is the host's, not the block's; nothing in `step` uses it. Log entry 11. -/

namespace Sys2Proof.Machine

/-- An operand as it is written (R78, R79). -/
inductive AsmOperand where
  /-- a decimal integer -/
  | dec (v : Int)
  /-- a hexadecimal pattern -/
  | hex (n : Nat)
  /-- the decimal number `m / 10^places` followed by `q` -/
  | quant (m : Int) (places : Nat)
  /-- `$R` -/
  | lastR
  /-- a constant's name, by its index in ZERO, ONE, TWO, HALF, PRECISION, MAX, MIN, PI, PI2, PIO2, PI_INV, PIO2_INV -/
  | constName (i : Fin 12)
  deriving DecidableEq, Repr

/-- A line (R78, R79): a command, the directive TEXT, or the pseudo-instruction FROMRAW. -/
inductive AsmLine where
  | command (mnemonic : String) (operands : List AsmOperand)
  | text (chars : List Byte)
  | fromRaw (v : AsmOperand)
  deriving DecidableEq, Repr

/-- Each mnemonic with its OP value and how many operands it is written with (R74, R75, R78). -/
def mnemonicMap : List (String × BitVec 8 × Nat) :=
  [("ADD", 0x01, 2), ("SUB", 0x02, 2), ("MUL", 0x03, 2), ("DIV", 0x04, 2), ("MOD", 0x05, 2),
   ("NEG", 0x06, 1), ("ABS", 0x07, 1), ("SIGN", 0x08, 1), ("FLOOR", 0x09, 1), ("CEIL", 0x0A, 1),
   ("ROUND", 0x0B, 1), ("RNDEVEN", 0x0C, 1), ("CMPLT", 0x0D, 2), ("CMPGT", 0x0E, 2), ("CMPLE", 0x0F, 2),
   ("CMPGE", 0x10, 2), ("CMPEQ", 0x11, 2), ("FROMINT", 0x12, 1), ("TOINT", 0x13, 1), ("LDC", 0x14, 1)] ++
  [("SADD", 0x20, 2), ("SSUB", 0x21, 2), ("SMUL", 0x22, 2), ("SDIV", 0x23, 2), ("SMOD", 0x24, 2),
   ("SABS", 0x25, 1)] ++
  [("SQRT", 0x30, 1), ("SIN", 0x31, 1), ("COS", 0x32, 1), ("TAN", 0x33, 1), ("ATAN2", 0x34, 2)] ++
  [("PARSE", 0x40, 0), ("TOSTR", 0x41, 1)]

/-- The 32-bit field an operand stands for (R78, R79), none where the assembler rejects it. DESIGN CHOICE: a decimal
integer outside the signed 32-bit range is rejected; log entry 24. `last` is what `$R` stands
for: the R of the previous response, none when that command failed or did not write R (U14). A constant's name is an
index for LDC; elsewhere only MAX and MIN stand, as those raw stores (programs of 95_test_vectors.md; log entry 11). -/
def AsmOperand.field (last : Option Word) (isLdc : Bool) : AsmOperand → Option Word
  | .dec v => if minInt ≤ v ∧ v ≤ maxInt then some (s32 v) else none
  | .hex n => if n < 2 ^ 32 then some (BitVec.ofNat 32 n) else none
  | .quant m places =>
    let v := m * 2 ^ Config.F
    if v % 10 ^ places = 0 ∧ minInt ≤ v / 10 ^ places ∧ v / 10 ^ places ≤ maxInt then
      some (s32 (v / 10 ^ places))
    else none
  | .lastR => last
  | .constName i =>
    if isLdc then some (BitVec.ofNat 32 i.val)
    else if i = 5 then some wordMax
    else if i = 6 then some wordMin
    else none

/-- The command word of a mnemonic with its operands (R80): zero for an ignored field. -/
def assembleCommand (last : Option Word) (mnemonic : String) (operands : List AsmOperand) : Option Command :=
  match mnemonicMap.find? (fun row => row.1 == mnemonic) with
  | none => none
  | some (_, op, arity) =>
    if operands.length = arity then
      match operands.mapM (AsmOperand.field last (op == 0x14)) with
      | none => none
      | some fields => some (Command.mk op (fields.getD 0 0) (fields.getD 1 0))
    else none

/-- The text port writes of the directive TEXT (R79): the characters from TXT[0] upward, then their count. DESIGN CHOICE:
R79 does not say what a text of more than 64 characters does, and here the line is rejected; log entry 21. -/
def textActions (chars : List Byte) : Option (List HostAction) :=
  if chars.length ≤ Config.txtCap then
    some ((chars.zipIdx.map fun p => HostAction.writeTxt (Fin.ofNat 64 p.2) p.1) ++ [.writeLen chars.length])
  else none

/-- What a line asks the host to do at the ports. FROMRAW issues nothing (R79). DESIGN CHOICE: R79 does not
say whether FROMRAW rejects an operand that is no raw store; here it is read and never evaluated; log entry 23. -/
def assembleLine (last : Option Word) : AsmLine → Option (List HostAction)
  | .command mnemonic operands => (assembleCommand last mnemonic operands).map fun w => [.command w]
  | .text chars => textActions chars
  | .fromRaw _ => some []

/-! ### Reading a line -/

/-- The constants' names in the order of their indices (R79). -/
def constNames : List (List Char) :=
  [['Z', 'E', 'R', 'O'], ['O', 'N', 'E'], ['T', 'W', 'O'], ['H', 'A', 'L', 'F'],
   ['P', 'R', 'E', 'C', 'I', 'S', 'I', 'O', 'N'], ['M', 'A', 'X'], ['M', 'I', 'N'], ['P', 'I'], ['P', 'I', '2'],
   ['P', 'I', 'O', '2'], ['P', 'I', '_', 'I', 'N', 'V'], ['P', 'I', 'O', '2', '_', 'I', 'N', 'V']]

/-- The value of a decimal digit. -/
def decDigit (c : Char) : Option Nat :=
  if '0'.toNat ≤ c.toNat ∧ c.toNat ≤ '9'.toNat then some (c.toNat - '0'.toNat) else none

/-- The value of a hexadecimal digit, in either case. -/
def hexDigit (c : Char) : Option Nat :=
  if 'a'.toNat ≤ c.toNat ∧ c.toNat ≤ 'f'.toNat then some (c.toNat - 'a'.toNat + 10)
  else if 'A'.toNat ≤ c.toNat ∧ c.toNat ≤ 'F'.toNat then some (c.toNat - 'A'.toNat + 10)
  else decDigit c

/-- The value of one or more digits in a base. -/
def numeral (digit : Char → Option Nat) (base : Nat) (t : List Char) : Option Nat :=
  if t.isEmpty then none
  else t.foldl (fun v c => match v, digit c with
    | some n, some d => some (base * n + d)
    | _, _ => none) (some 0)

/-- Spaces and tabs taken off both ends. -/
def trimBlanks (t : List Char) : List Char :=
  let blank : Char → Bool := fun c => c == ' ' || c == '\t'
  ((t.dropWhile blank).reverse.dropWhile blank).reverse

/-- An unsigned decimal integer, or an unsigned decimal number followed by `q` (R78). DESIGN CHOICE: a point needs a digit
on either side, and no sign but a leading minus is read; log entry 24. -/
def readUnsigned (neg : Bool) (t : List Char) : Option AsmOperand :=
  let sg : Int := if neg then -1 else 1
  if t.getLast? = some 'q' then
    let body := t.dropLast
    let whole := body.takeWhile (fun c => c != '.')
    let frac := (body.dropWhile (fun c => c != '.')).drop 1
    if whole.length = body.length then (numeral decDigit 10 body).map fun n => .quant (sg * (n : Int)) 0
    else
      match numeral decDigit 10 whole, numeral decDigit 10 frac with
      | some w, some f => some (.quant (sg * ((w * 10 ^ frac.length + f : Nat) : Int)) frac.length)
      | _, _ => none
  else (numeral decDigit 10 t).map fun n => .dec (sg * (n : Int))

/-- One operand (R78, R79). -/
def readOperand (t : List Char) : Option AsmOperand :=
  match t with
  | ['$', 'R'] => some .lastR
  | '0' :: 'x' :: h => if h.length ≤ 8 then (numeral hexDigit 16 h).map .hex else none
  | '-' :: u => readUnsigned true u
  | _ =>
    match constNames.findIdx? (fun n => n == t) with
    | some i => some (.constName (Fin.ofNat 12 i))
    | none => readUnsigned false t

/-- The operands of a command, separated by commas (R78). `fuel` bounds their number. -/
def readOperands : Nat → List Char → Option (List AsmOperand)
  | 0, _ => none
  | fuel + 1, t =>
    let one := trimBlanks (t.takeWhile (fun c => c != ','))
    match t.dropWhile (fun c => c != ','), readOperand one with
    | [], some x => some [x]
    | _ :: rest, some x => (readOperands fuel rest).map (x :: ·)
    | _, none => none

/-- The quotation mark. -/
def quoteChar : Char := Char.ofNat 34

/-- The characters between the quotes of a TEXT directive (R79); only a comment may follow the second quote.
DESIGN CHOICE: R79 names no byte for a character outside ASCII; here the code points 128 to 255 are that byte, and a
code point above 255 rejects the line; log entry 22. -/
def readQuoted (t : List Char) : Option (List Byte) :=
  match t with
  | [] => none
  | q :: u =>
    let body := u.takeWhile (fun c => c != quoteChar)
    match u.dropWhile (fun c => c != quoteChar) with
    | [] => none
    | _ :: tl =>
      if q = quoteChar ∧ (trimBlanks (tl.takeWhile (fun c => c != ';'))).isEmpty ∧
          body.all (fun c => c.toNat < 256) then
        some (body.map fun c => BitVec.ofNat 8 c.toNat)
      else none

/-- The meaning of a line's text: nothing for a blank line or a comment alone, otherwise what it asks for; none where
the assembler rejects the line. A comment runs from `;` to the end of the line, outside quotes (R78). -/
def readLine (line : List Char) : Option (Option AsmLine) :=
  let full := trimBlanks line
  let code := trimBlanks (full.takeWhile (fun c => c != ';'))
  let word := code.takeWhile (fun c => c != ' ' && c != '\t')
  let rest := trimBlanks (code.drop word.length)
  if code.isEmpty then some none
  else if word = ['T', 'E', 'X', 'T'] then
    (readQuoted (trimBlanks (full.drop 4))).map fun b => some (.text b)
  else if word = ['F', 'R', 'O', 'M', 'R', 'A', 'W'] then (readOperand rest).map fun x => some (.fromRaw x)
  else if rest.isEmpty then some (some (.command (String.ofList word) []))
  else (readOperands 3 rest).map fun ops => some (.command (String.ofList word) ops)

/-- What a line of text asks the host to do at the ports (R78 to R80). -/
def assembleText (last : Option Word) (line : List Char) : Option (List HostAction) :=
  match readLine line with
  | none => none
  | some none => some []
  | some (some l) => assembleLine last l

end Sys2Proof.Machine
end

