-- ==== Sys2Proof/Tests/Slice0.lean ====
section
/-! SUPPORT. Tests. Words and expected results are those of spec/95_test_vectors.md, or of the rule a test names; the
words are written {OP, A, B} from R71 and R74. Each witness shows values that meet the hypotheses of one statement, at
a boundary for each clause. -/

namespace Sys2Proof.Tests

set_option Elab.async false

open Sys2Proof Sys2Proof.Machine

/-! ### The checks -/

theorem test_wellFormed_ldc_12_refused : Instr.wellFormed (.ldc 12) = false := by decide
theorem test_wellFormed_ldc_11 : Instr.wellFormed (.ldc 11) = true := by decide
theorem test_legalFracBits_refuses : ([0, 1, 9, 18].any legalFracBits) = false := by decide
theorem test_legalFracBits_accepts : ([2, 4, 6, 8, 10, 12, 14, 16].all legalFracBits) = true := by decide
theorem test_legalLutSizeInterp_refuses : (legalLutSizeInterp 16 1 || legalLutSizeInterp 16 32769) = false := by decide
theorem test_legalLutSizeInterp_accepts : (legalLutSizeInterp 16 2 && legalLutSizeInterp 16 32768) = true := by decide

/-! ### Decoding: one written-out word for each command -/

theorem test_decode_add : decode 0x010000040000000200 = .ok (.add 1024 512) := by rfl
theorem test_decode_sub : decode 0x020000000080000000 = .ok (.sub 0 0x80000000) := by rfl
theorem test_decode_mul : decode 0x030000060000000800 = .ok (.mul 1536 2048) := by rfl
theorem test_decode_div : decode 0x0400001C0000000800 = .ok (.div 7168 2048) := by rfl
theorem test_decode_mod : decode 0x05FFFFE40000000C00 = .ok (.mod 0xFFFFE400 3072) := by rfl
theorem test_decode_neg : decode 0x060000060000000000 = .ok (.neg 1536) := by rfl
theorem test_decode_abs : decode 0x07FFFFFA0000000000 = .ok (.abs 0xFFFFFA00) := by rfl
theorem test_decode_sign : decode 0x08FFFFFE0000000000 = .ok (.sign 0xFFFFFE00) := by rfl
theorem test_decode_floor : decode 0x090000060000000000 = .ok (.floor 1536) := by rfl
theorem test_decode_ceil : decode 0x0A0000060000000000 = .ok (.ceil 1536) := by rfl
theorem test_decode_round : decode 0x0B00000A0000000000 = .ok (.round 2560) := by rfl
theorem test_decode_rndeven : decode 0x0C00000A0000000000 = .ok (.rndeven 2560) := by rfl
theorem test_decode_cmplt : decode 0x0D0000020000000400 = .ok (.cmplt 512 1024) := by rfl
theorem test_decode_cmpgt : decode 0x0E0000020000000400 = .ok (.cmpgt 512 1024) := by rfl
theorem test_decode_cmple : decode 0x0F0000040100000400 = .ok (.cmple 1025 1024) := by rfl
theorem test_decode_cmpge : decode 0x10FFFFFC0000000400 = .ok (.cmpge 0xFFFFFC00 1024) := by rfl
theorem test_decode_cmpeq : decode 0x110000000080000000 = .ok (.cmpeq 0 0x80000000) := by rfl
theorem test_decode_fromint : decode 0x120000000300000000 = .ok (.fromint 3) := by rfl
theorem test_decode_toint : decode 0x13FFFFFA0000000000 = .ok (.toint 0xFFFFFA00) := by rfl
theorem test_decode_ldc : decode 0x140000000700000000 = .ok (.ldc 7) := by rfl
theorem test_decode_sadd : decode 0x207FFFFFFF00000400 = .ok (.sadd 0x7FFFFFFF 1024) := by rfl
theorem test_decode_ssub : decode 0x218000000000000400 = .ok (.ssub 0x80000000 1024) := by rfl
theorem test_decode_smul : decode 0x227FFFFFFF00000800 = .ok (.smul 0x7FFFFFFF 2048) := by rfl
theorem test_decode_sdiv : decode 0x2380000000FFFFFC00 = .ok (.sdiv 0x80000000 0xFFFFFC00) := by rfl
theorem test_decode_smod : decode 0x2480000000FFFFFFFF = .ok (.smod 0x80000000 0xFFFFFFFF) := by rfl
theorem test_decode_sabs : decode 0x258000000000000000 = .ok (.sabs 0x80000000) := by rfl
theorem test_decode_sqrt : decode 0x300000100000000000 = .ok (.sqrt 4096) := by rfl
theorem test_decode_sin : decode 0x310000192100000000 = .ok (.sin 6433) := by rfl
theorem test_decode_cos : decode 0x32FFFFFFFF00000000 = .ok (.cos 0xFFFFFFFF) := by rfl
theorem test_decode_tan : decode 0x330000064900000000 = .ok (.tan 1609) := by rfl
theorem test_decode_atan2 : decode 0x3400000400FFFFFC00 = .ok (.atan2 1024 0xFFFFFC00) := by rfl
theorem test_decode_parse : decode 0x400000000000000000 = .ok .parse := by rfl
theorem test_decode_tostr : decode 0x410000060000000000 = .ok (.tostr 1536) := by rfl

theorem test_decode_reserved_zero : decode 0 = .error (.reservedOp 0) := by rfl
theorem test_decode_table_word : decodeTableWord 72 0x030000060000000800 = some (.mul 1536 2048) := by rfl

/-! ### One command each, as the first step with R = 0xDEAD0600 before it: ERR and R afterwards -/

/-- ERR and R after one command word. -/
def ending (s : State) (w : Command) : Option (Err × Word) :=
  match step (s.present w) with
  | .next t => some (t.err, t.r)
  | _ => none

/-- A state with a value in R. -/
def start : State := { State.reset with r := 0xDEAD0600 }

/-- A state that holds a text. -/
def withText (t : List Nat) : State :=
  { start with txt := Memory.writeAll [] 0 (t.map (BitVec.ofNat 8)), txtLen := BitVec.ofNat 7 t.length }

/-- The text after one command word. -/
def textAfter (s : State) (w : Command) : Option (List Byte) :=
  match step (s.present w) with
  | .next t => t.text
  | _ => none

theorem test_add_wraps : ending start 0x018000000080000000 = some (.ok, 0x00000000) := by decide +kernel
theorem test_sub_of_min_wraps : ending start 0x020000000080000000 = some (.ok, 0x80000000) := by decide +kernel
theorem test_mul_floors : ending start 0x03FFFFFFFD00000200 = some (.ok, 0xFFFFFFFE) := by decide +kernel
theorem test_mul_wraps : ending start 0x037FFFFFFF7FFFFFFF = some (.ok, 0xFFC00000) := by decide +kernel
theorem test_div_tie_away_from_zero : ending start 0x04FFFFFFFD00000800 = some (.ok, 0xFFFFFFFE) := by decide +kernel
theorem test_div_saturates : ending start 0x0480000001000003FF = some (.ok, 0x80000000) := by decide +kernel
theorem test_mod_sign_of_dividend : ending start 0x05FFFFE40000000C00 = some (.ok, 0xFFFFFC00) := by decide +kernel
theorem test_mod_min_by_minus_one : ending start 0x0580000000FFFFFFFF = some (.ok, 0x00000000) := by decide +kernel
theorem test_neg_min : ending start 0x068000000000000000 = some (.ok, 0x80000000) := by decide +kernel
theorem test_neg_positive : ending start 0x060000060000000000 = some (.ok, 0xFFFFFA00) := by decide +kernel
theorem test_abs_min : ending start 0x078000000000000000 = some (.ok, 0x80000000) := by decide +kernel
theorem test_abs_negative : ending start 0x078000000100000000 = some (.ok, 0x7FFFFFFF) := by decide +kernel
theorem test_sign_negative : ending start 0x088000000000000000 = some (.ok, 0xFFFFFFFF) := by decide +kernel
theorem test_sign_positive : ending start 0x080000000100000000 = some (.ok, 0x00000001) := by decide +kernel
theorem test_floor_goes_down : ending start 0x09FFFFFA0000000000 = some (.ok, 0xFFFFF800) := by decide +kernel
theorem test_ceil_negative_fraction : ending start 0x0AFFFFFA0000000000 = some (.ok, 0xFFFFFC00) := by decide +kernel
theorem test_ceil_wraps : ending start 0x0A7FFFFFFF00000000 = some (.ok, 0x80000000) := by decide +kernel
theorem test_round_negative_tie_up : ending start 0x0BFFFFF60000000000 = some (.ok, 0xFFFFF800) := by decide +kernel
theorem test_round_wraps : ending start 0x0B7FFFFE0000000000 = some (.ok, 0x80000000) := by decide +kernel
theorem test_rndeven_tie_to_even : ending start 0x0C00000A0000000000 = some (.ok, 0x00000800) := by decide +kernel
theorem test_rndeven_odd_floor_wraps : ending start 0x0C7FFFFE0000000000 = some (.ok, 0x80000000) := by decide +kernel
theorem test_cmplt_is_signed : ending start 0x0DFFFFFFFF00000000 = some (.ok, 0x00000001) := by decide +kernel
theorem test_cmplt_equal : ending start 0x0D0000000500000005 = some (.ok, 0x00000000) := by decide +kernel
theorem test_cmpgt_is_signed : ending start 0x0E7FFFFFFF80000000 = some (.ok, 0x00000001) := by decide +kernel
theorem test_cmpgt_less : ending start 0x0E0000020000000400 = some (.ok, 0x00000000) := by decide +kernel
theorem test_cmple_equal : ending start 0x0F0000040000000400 = some (.ok, 0x00000001) := by decide +kernel
theorem test_cmple_greater : ending start 0x0F0000040100000400 = some (.ok, 0x00000000) := by decide +kernel
theorem test_cmpge_equal : ending start 0x108000000080000000 = some (.ok, 0x00000001) := by decide +kernel
theorem test_cmpge_less : ending start 0x10FFFFFC0000000400 = some (.ok, 0x00000000) := by decide +kernel
theorem test_cmpeq_equal : ending start 0x110000040000000400 = some (.ok, 0x00000001) := by decide +kernel
theorem test_cmpeq_no_negative_zero : ending start 0x110000000080000000 = some (.ok, 0x00000000) := by decide +kernel
theorem test_fromint_wraps : ending start 0x127FFFFFFF00000000 = some (.ok, 0xFFFFFC00) := by decide +kernel
theorem test_fromint_negative : ending start 0x12FFFFFFFD00000000 = some (.ok, 0xFFFFF400) := by decide +kernel
theorem test_toint_is_a_floor : ending start 0x13FFFFFA0000000000 = some (.ok, 0xFFFFFFFE) := by decide +kernel
theorem test_toint_min : ending start 0x138000000000000000 = some (.ok, 0xFFE00000) := by decide +kernel
theorem test_ldc_last : ending start 0x140000000B00000000 = some (.ok, 0x0000028B) := by decide +kernel
theorem test_ldc_bad_index : ending start 0x14FFFFFFFF00000000 = some (.raised .illegalCommand, 0xDEAD0600) := by decide +kernel
theorem test_sadd_clamps_to_max : ending start 0x204000000040000000 = some (.ok, 0x7FFFFFFF) := by decide +kernel
theorem test_sadd_exactly_min : ending start 0x20C0000000C0000000 = some (.ok, 0x80000000) := by decide +kernel
theorem test_ssub_negates_min : ending start 0x210000000080000000 = some (.ok, 0x7FFFFFFF) := by decide +kernel
theorem test_ssub_clamps_to_min : ending start 0x21FFFFFFFE7FFFFFFF = some (.ok, 0x80000000) := by decide +kernel
theorem test_smul_clamps_one_above_max : ending start 0x2280000000FFFFFC00 = some (.ok, 0x7FFFFFFF) := by decide +kernel
theorem test_smul_in_range : ending start 0x220016A0000016A000 = some (.ok, 0x7FF90000) := by decide +kernel
theorem test_sdiv_zero_divisor : ending start 0x230000000500000000 = some (.raised .divideByZero, 0xDEAD0600) := by decide +kernel
theorem test_sdiv_tie : ending start 0x23FFFFFFFF00000002 = some (.ok, 0xFFFFFE00) := by decide +kernel
theorem test_smod_zero_divisor_first : ending start 0x248000000000000000 = some (.raised .divideByZero, 0xDEAD0600) := by decide +kernel
theorem test_smod_sign_of_dividend : ending start 0x24FFFFE40000000C00 = some (.ok, 0xFFFFFC00) := by decide +kernel
theorem test_sabs_min : ending start 0x258000000000000000 = some (.ok, 0x7FFFFFFF) := by decide +kernel
theorem test_sabs_negative : ending start 0x25FFFFFA0000000000 = some (.ok, 0x00000600) := by decide +kernel
theorem test_sqrt_largest : ending start 0x307FFFFFFF00000000 = some (.ok, 0x0016A09E) := by decide +kernel
theorem test_sqrt_negative : ending start 0x30FFFFFFFF00000000 = some (.raised .domainError, 0xDEAD0600) := by decide +kernel
theorem test_sin_clamped_index : ending start 0x310000192100000000 = some (.ok, 0x00000000) := by decide +kernel
theorem test_sin_of_min : ending start 0x318000000000000000 = some (.ok, 0xFFFFFC9E) := by decide +kernel
theorem test_cos_of_min : ending start 0x328000000000000000 = some (.ok, 0x00000220) := by decide +kernel
theorem test_cos_three_pio2 : ending start 0x32000012D800000000 = some (.ok, 0xFFFFFFFE) := by decide +kernel
theorem test_tan_mirrored : ending start 0x330000064900000000 = some (.ok, 0xFFF00144) := by decide +kernel
theorem test_tan_of_min : ending start 0x338000000000000000 = some (.ok, 0x0000016E) := by decide +kernel
theorem test_atan2_worst : ending start 0x3400011BD2FFFE6084 = some (.ok, 0x00000A24) := by decide +kernel
theorem test_atan2_saturated : ending start 0x348000000000000001 = some (.ok, 0xFFFFF9B8) := by decide +kernel
theorem test_reserved_op : ending start 0x420000000000000000 = some (.raised .illegalCommand, 0xDEAD0600) := by
  decide +kernel
theorem test_parse_largest :
    ending (withText [0x32, 0x30, 0x39, 0x37, 0x31, 0x35, 0x31, 0x2E, 0x39, 0x39, 0x39]) 0x400000000000000000 =
      some (.ok, 0x7FFFFFFF) := by decide +kernel
theorem test_parse_min_is_rejected :
    ending (withText [0x2D, 0x32, 0x30, 0x39, 0x37, 0x31, 0x35, 0x32]) 0x400000000000000000 =
      some (.raised .formatError, 0xDEAD0600) := by decide +kernel
theorem test_tostr_keeps_r : ending start 0x41FFFFFFFF00000000 = some (.ok, 0xDEAD0600) := by decide +kernel
theorem test_tostr_text :
    textAfter start 0x41FFFFFFFF00000000 =
      some [0x2D, 0x30, 0x2E, 0x30, 0x30, 0x30, 0x39, 0x37, 0x36, 0x35, 0x36, 0x32, 0x35] := by
  decide +kernel

/-! ### Build parameters and the interpolator (R10, R9, R28, R185) -/

theorem test_fracDigits : [2, 4, 6, 8, 10, 12, 14, 16].map Config.fracDigits = [0, 1, 1, 2, 3, 3, 4, 4] := by decide +kernel
theorem test_lutSize : lutSizeOf Config.F (pio2Of buildF10) = 1609 := by decide +kernel
theorem test_pi_at_16 : parseText 16 ([0x33, 0x2E, 0x31, 0x34, 0x31, 0x35, 0x39]) = .ok 205881 := by rfl
theorem test_pio2Inv_at_16 : parseText 16 ([0x30, 0x2E, 0x36, 0x33, 0x36, 0x36, 0x31]) = .ok 41720 := by rfl

/-- The table of R185's examples: the entries the rule names, and zero for the others. -/
def exampleTable : List Word :=
  [0, 100, 201, 301] ++ List.replicate 507 0 ++ [46269, 46340] ++ List.replicate 509 0 ++ [65535, 65535, 65536]

theorem test_indexScale : indexScale 16 1025 41720 = 42721280 := by decide +kernel
theorem test_interpolated_lookups :
    ([(150, false), (51468, false), (0, true), (40, true), (102937, false)] : List (Word × Bool)).map
      (fun p => (lookupInterpolated 16 1025 41720 exampleTable p.1 p.2).toNat) = [149, 46335, 65536, 65535, 65535] := by
  decide +kernel

/-! ### The assembler's examples (R80) -/

theorem test_assemble_mul :
    assembleText none "MUL 1.5q, 2q ; a comment".toList = some [.command 0x030000060000000800] := by decide +kernel
theorem test_assemble_sqrt : assembleText none "SQRT 4q".toList = some [.command 0x300000100000000000] := by decide +kernel
theorem test_assemble_atan2 :
    assembleText none "ATAN2 1q, -1q".toList = some [.command 0x3400000400FFFFFC00] := by decide +kernel
theorem test_assemble_ldc : assembleText none "LDC PI".toList = some [.command 0x140000000700000000] := by decide +kernel
theorem test_assemble_parse : assembleText none "PARSE".toList = some [.command 0x400000000000000000] := by decide +kernel
theorem test_assemble_rejects_inexact : assembleText none "SIN 0.1q".toList = none := by decide +kernel
theorem test_assemble_last_r :
    assembleText (some 0x400) "SADD MAX, $R".toList = some [.command 0x207FFFFFFF00000400] ∧
      assembleText none "TOSTR $R".toList = none := by decide +kernel
theorem test_assemble_hex : assembleText none "NEG 0x80000000".toList = some [.command 0x068000000000000000] := by
  decide +kernel
theorem test_assemble_text_too_long :
    assembleLine none (.text (List.replicate 65 0x30)) = none := by decide +kernel
theorem test_assemble_fromRaw : assembleText none "FROMRAW 0.1q".toList = some [] := by decide +kernel
theorem test_assemble_text :
    assembleText none ("TEXT ".toList ++ [quoteChar, '1', '.', quoteChar]) =
      some [.writeTxt 0 0x31, .writeTxt 1 0x2E, .writeLen 2] := by decide +kernel

/-! ### Witnesses: values that meet the hypotheses of each statement that has some -/

theorem test_witness_MulDatapathGivesTheFlooredProduct : legalFracBits 2 = true ∧ legalFracBits 16 = true := by decide
theorem test_witness_DivisionEngineComputesTheFormula : legalFracBits 2 = true ∧ legalFracBits 16 = true := by decide
theorem test_witness_SqrtProcedureComputesTheRoot : legalFracBits 2 = true ∧ legalFracBits 16 = true := by decide
theorem test_witness_TostrTextsFitTheBuffer : legalFracBits 2 = true ∧ legalFracBits 16 = true := by decide
theorem test_witness_zero_and_nonzero_divisors : (0 : Word) = 0 ∧ (1 : Word) ≠ 0 ∧ (0xFFFFFFFF : Word) ≠ 0 := by decide
theorem test_witness_ModIsTheTruncatingRemainder : (0 : Word) = 0 ∧ (0xFFFFFFFF : Word) ≠ 0 := by decide
theorem test_witness_SmodIsMod : (0 : Word) = 0 ∧ (0xFFFFFFFF : Word) ≠ 0 := by decide
theorem test_witness_DivRoundsHalfAwayAndSaturates : (0 : Word) = 0 ∧ (0xFFFFFFFF : Word) ≠ 0 := by decide
theorem test_witness_SdivIsDiv : (0 : Word) = 0 ∧ (0xFFFFFFFF : Word) ≠ 0 := by decide
theorem test_witness_AbsIsTheBranchlessIdentity : 0 ≤ (0 : Word).toInt ∧ (0xFFFFFFFF : Word).toInt < 0 := by decide
theorem test_witness_FloorAndCeilToWholeUnits : 1024 * (-1 : Int) ≤ (0xFFFFFC00 : Word).toInt := by decide
theorem test_witness_FromIntAndToIntShiftByF :
    (-2097152 ≤ (0xFFE00000 : Word).toInt ∧ (0xFFE00000 : Word).toInt ≤ 2097151) ∧
      (-2097152 ≤ (0x001FFFFF : Word).toInt ∧ (0x001FFFFF : Word).toInt ≤ 2097151) := by decide
theorem test_witness_LdcReadsTheTwelveConstants :
    (11, 651) ∈ ([(0, 0), (1, 1024), (2, 2048), (3, 512), (4, 1), (5, 0x7FFFFFFF), (6, 0x80000000), (7, 3216), (8, 6434),
      (9, 1608), (10, 326), (11, 651)] : List (Word × Word)) ∧ 11 < (12 : Word).toNat := by decide
theorem test_witness_SmulClampsTheFlooredProduct :
    2147483647 < (0x80000000 : Word).toInt * (0xFFFFFC00 : Word).toInt / 1024 ∧
      (0xFFE00000 : Word).toInt * (0x00100001 : Word).toInt / 1024 < -2147483648 ∧
      (-2147483648 ≤ (0x80000000 : Word).toInt * (1024 : Word).toInt / 1024 ∧
        (0x80000000 : Word).toInt * (1024 : Word).toInt / 1024 ≤ 2147483647) := by decide +kernel
theorem test_witness_SabsClampsTheAbsoluteValue : (0x80000001 : Word) ≠ 0x80000000 := by decide
theorem test_witness_SafeCommandsAgreeWithRawInRange :
    (-2147483648 ≤ (0x7FFFFFFE : Word).toInt + (1 : Word).toInt ∧ (0x7FFFFFFE : Word).toInt + (1 : Word).toInt ≤ 2147483647) ∧
      (-2147483648 ≤ (0x80000001 : Word).toInt - (1 : Word).toInt ∧
        (0x80000001 : Word).toInt - (1 : Word).toInt ≤ 2147483647) ∧
      (-2147483648 ≤ (0x80000000 : Word).toInt * (1024 : Word).toInt / 1024 ∧
        (0x80000000 : Word).toInt * (1024 : Word).toInt / 1024 ≤ 2147483647) := by decide +kernel
theorem test_witness_LeadingZeroCountIsRight : (0 < 1 ∧ 1 < 2 ^ 32) ∧ 0 < 2 ^ 32 - 1 ∧ 2 ^ 32 - 1 < 2 ^ 32 := by decide
theorem test_witness_RestoringStepDividesExactly : 2 ^ 32 - 1 < 2 ^ 32 ∧ 0 < 1 := by decide
theorem test_witness_SqrtRoundsToNearest : (0xFFFFFFFF : Word).toInt < 0 ∧ 0 ≤ (0 : Word).toInt := by decide
theorem test_witness_SinFoldsAndReadsTheTable : (6433 : Word).toInt = (0xFFFFFFFF : Word).toInt + 6434 := by decide
theorem test_witness_SineReductionReachesExactlyTheTable : (0 ≤ (1608 : Int) ∧ (1608 : Int) ≤ 1608) ∧ 1 ≤ (1609 : Int) := by
  decide
theorem test_witness_CosShiftsIntoSinAndIsEven : (0x80000001 : Word) ≠ 0x80000000 := by decide
theorem test_witness_TanFoldsAndReadsTheTable : (0x80000001 : Word) ≠ 0x80000000 := by decide
theorem test_witness_SinAndTanReadBackTheRoms : 0 ≤ 1608 ∧ 1608 ≤ 1608 := by decide
theorem test_witness_SinRomIsTheFlooredRealSine : 0 ≤ 1608 ∧ 1608 ≤ 1608 := by decide
theorem test_witness_TanRomIsTheFlooredRealTangent : 0 < 1608 ∧ 1607 < 1608 := by decide
theorem test_witness_InterpolatedLookupStaysBetweenNeighbours :
    legalLutSizeInterp 16 2 = true ∧ ([0, 65536] : List Word).length = 2 ∧
      (∀ x ∈ ([0, 65536] : List Word), 0 ≤ x.toInt) ∧
      0 ≤ (102950 : Word).toInt ∧ (102950 : Word).toInt ≤ 102950 ∧
      (mulRaw 16 102950 (indexScale 16 2 41720)).toInt < 2147450880 :=
  ⟨by decide, rfl, by simp, by decide, by decide, by decide +kernel⟩
/-- The largest legal table: at the largest reduced angle R184 names, the index is R184's 2147471462, and its rounding
wraps (log entry 10). -/
theorem test_largest_table_wraps :
    legalLutSizeInterp 16 32768 = true ∧ (List.replicate 32768 (0 : Word)).length = 32768 ∧
      (∀ x ∈ List.replicate 32768 (0 : Word), 0 ≤ x.toInt) ∧
      mulRaw 16 102950 (indexScale 16 32768 41720) = 2147471462 ∧ rndEvenRaw 16 2147471462 = 0x80000000 :=
  ⟨by decide, List.length_replicate .., fun x hx => by rw [List.eq_of_mem_replicate hx]; decide,
    by decide +kernel, by decide +kernel⟩
theorem test_witness_Atan2OnTheYAxis : 0 < (1 : Word).toInt ∧ (0xFFFFFFFF : Word).toInt < 0 ∧ (0 : Word) = 0 := by decide
theorem test_witness_Atan2FollowsTheRationalApproximation : (1 : Word) ≠ 0 ∧ (0x80000000 : Word) ≠ 0 := by decide

/-- `-2097151.5` is a text PARSE reads, at the largest integer part. -/
theorem test_witness_ParseReadsExactlyTheDecimalTexts :
    (withText [0x2D, 0x32, 0x30, 0x39, 0x37, 0x31, 0x35, 0x31, 0x2E, 0x35]).text =
        some ([0x2D] ++ [0x32, 0x30, 0x39, 0x37, 0x31, 0x35, 0x31] ++ [0x2E, 0x35]) ∧
      IsDecimalText ([0x2D] ++ [0x32, 0x30, 0x39, 0x37, 0x31, 0x35, 0x31] ++ [0x2E, 0x35]) true
        [0x32, 0x30, 0x39, 0x37, 0x31, 0x35, 0x31] (some [0x35]) ∧
      digitsValue [0x32, 0x30, 0x39, 0x37, 0x31, 0x35, 0x31] ≤ 2097151 := by
  refine ⟨by decide +kernel, ⟨by decide, ?_, ?_, [0x2D], [0x2E, 0x35], rfl, rfl, 0x2E, rfl, rfl⟩, by decide +kernel⟩
  · unfold AllDigits
    decide +kernel
  · intro x hx
    injection hx with hx
    subst hx
    unfold AllDigits
    exact ⟨by decide, by decide⟩

/-- The empty text is no number at all. -/
theorem test_witness_ParseReadsExactlyTheDecimalTexts_none :
    State.reset.text = some [] ∧ ∀ neg ip fp, IsDecimalText [] neg ip fp → 2097151 < digitsValue ip := by
  refine ⟨by decide, ?_⟩
  rintro neg ip fp ⟨hne, -, -, sg, tl, h, -⟩
  have h2 := congrArg List.length h
  simp only [List.length_nil, List.length_append] at h2
  exact absurd (List.eq_nil_of_length_eq_zero (by omega)) hne

/-- `2097152` is a number text whose only reading is out of range: PARSE's other way to FormatError, at the boundary. -/
theorem test_parse_integer_part_boundary :
    ending (withText [0x32, 0x30, 0x39, 0x37, 0x31, 0x35, 0x32]) 0x400000000000000000 =
      some (.raised .formatError, 0xDEAD0600) := by decide +kernel

theorem test_witness_ParseNeverLeavesMin :
    AllDigits [0x39, 0x39, 0x39] ∧ parseText 2 [0x2D, 0x30] = .ok 0 ∧
      Completes .parse (withText [0x2D, 0x32, 0x30, 0x39, 0x37, 0x31, 0x35, 0x31, 0x2E, 0x39, 0x39, 0x39]) 0x80000001 :=
  ⟨by unfold AllDigits; decide +kernel, rfl, rfl⟩

theorem test_witness_TostrWritesTheExactExpansion : State.reset.wf := by decide
theorem test_witness_TostrThenParseReturnsTheValue :
    State.reset.wf ∧ (0x80000080 : Word).toInt % 128 = 0 ∧ (0x80000080 : Word) ≠ 0x80000000 := by decide
theorem test_witness_EachErrorKindIsRaised :
    (0xFFFFFFFF : Word).toInt < 0 ∧ State.reset.txtLen = 0 ∧ 11 < (12 : Word).toNat := by decide
theorem test_witness_NothingElseRaises :
    exec (.div 1 0) start = .next (start.raise .divideByZero) ∧ (start.raise .divideByZero).err = .raised .divideByZero :=
  ⟨rfl, rfl⟩
theorem test_witness_NothingElseRaises_others :
    exec (.sqrt 0x80000000) start = .next (start.raise .domainError) ∧
      exec .parse start = .next (start.raise .formatError) ∧
      exec (.ldc 12) start = .next (start.raise .illegalCommand) := ⟨rfl, rfl, rfl⟩
theorem test_witness_CommandsChangeOnlyWhatTheyEndWith :
    exec (.ldc 12) start = .next (start.raise .illegalCommand) ∧ exec (.add 1 2) start = .next (start.complete 3) ∧
      exec (.tostr 0) start = .next (start.completeText [0x30]) := ⟨rfl, rfl, rfl⟩
theorem test_witness_CommandsReadNeitherRNorErr :
    exec (.add 1 2) start = .next (start.complete 3) ∧ (start.complete 3).err = .ok := ⟨rfl, rfl⟩
theorem test_witness_EncodeOfDecodeKeepsUsedFields :
    decode 0x41FFFFFFFF12345678 = .ok (.tostr 0xFFFFFFFF) ∧ Command.op 0x41FFFFFFFF12345678 ≠ 0x40 ∧
      Command.op 0x3400000400FFFFFC00 = 0x34 := ⟨rfl, by decide, by decide⟩
theorem test_witness_IgnoredFieldsChangeNothing :
    (0x41 : BitVec 8) ∈ ([0x06, 0x07, 0x08, 0x09, 0x0A, 0x0B, 0x0C, 0x12, 0x13, 0x14, 0x25, 0x30, 0x31, 0x32, 0x33, 0x41] :
      List (BitVec 8)) := by decide
theorem test_witness_ReservedOpsAreIllegalCommands :
    Command.op 0x420000000000000000 ∉ assignedOps ∧
      (start.present 0x420000000000000000).inbox = [.command 0x420000000000000000] ∧
      exec (.ldc 12) start = .next (start.raise .illegalCommand) := ⟨by decide, rfl, rfl⟩
theorem test_witness_StepRunsTheDecodedCommand :
    (start.present 0x010000040000000200).inbox = [.command 0x010000040000000200] ∧
      decode 0x010000040000000200 = .ok (.add 1024 512) ∧ start.inbox = [] := ⟨rfl, rfl, rfl⟩
theorem test_witness_TextPortReadsAndWrites :
    start.wf ∧ (withText [0x31]).wf ∧ (⟨63, by decide⟩ : Fin 64).val = 63 ∧ min 65 64 = 64 ∧ min 64 64 = 64 := by
  decide +kernel
theorem test_writeLen_65 :
    (match step (State.mk 0 .ok [] 0 .f10 0 [.writeLen 65] []) with
      | .next t => some t.txtLen
      | _ => none) = some 64 := by decide
theorem test_writeTxt_last :
    (match step (State.mk 0 .ok [] 0 .f10 0 [.writeTxt 63 0x35] []) with
      | .next t => some t.txt
      | _ => none) = some [(63, 0x35)] := by decide
theorem test_reads :
    (match step (State.mk 0 .ok [(63, 0x35)] 64 .f10 0 [.readTxt 63, .readLen] []) with
      | .next t => (match step t with
        | .next u => some u.replies
        | _ => none)
      | _ => none) = some [.txtLen 64, .txtByte 0x35] := by decide
theorem test_witness_ResetInputClearsErrAndLength : (State.mk 7 .ok [] 5 .f10 0 [.reset] []).inbox = [.reset] := rfl
theorem test_witness_StepKeepsTheStateLegal : start.wf ∧ step start = .next start := ⟨by decide, rfl⟩
theorem test_witness_EveryCommandEndsWithOneResponse :
    (start.present 0x010000040000000200).wf ∧
      (start.present 0x010000040000000200).inbox = [.command 0x010000040000000200] := ⟨by decide, rfl⟩

end Sys2Proof.Tests
end

