-- ==== Sys2Proof/Proofs/TextLength.lean ====
section
/-! The length of TOSTR's text (R216, R217): the sign, the integer digits, the point, and one fraction digit for each
pass of the fraction loop. -/

namespace Sys2Proof.Machine

/-- The magnitude of a raw store is at most that of MIN (R100). -/
theorem magnitude_le (a : Word) : magnitude a ≤ 2 ^ 31 := by
  have hr := toInt_range a
  simp only [magnitude, sext32_eq]
  omega

/-- A number below 10^k is written with at most k digits, the number 0 with one. -/
theorem length_decimalDigits_le {k n : Nat} (hk : 0 < k) (hn : n < 10 ^ k) (fuel : Nat) (acc : List Byte) :
    (decimalDigits fuel n acc).length ≤ k + acc.length := by
  induction fuel generalizing k n acc with
  | zero => simp [decimalDigits]
  | succ fuel ih =>
    by_cases hlast : n / 10 = 0
    · simp only [decimalDigits, if_pos hlast, List.length_cons]
      omega
    · simp only [decimalDigits, if_neg hlast]
      obtain ⟨j, rfl⟩ : ∃ j, k = j + 1 := ⟨k - 1, by omega⟩
      have hlead : n / 10 < 10 ^ j := by
        rw [Nat.pow_succ] at hn
        omega
      have hj : 0 < j := Nat.pos_of_ne_zero fun h => hlast (by simpa [h] using hlead)
      have hrest := ih hj hlead (digitChar (n % 10) :: acc)
      rw [List.length_cons] at hrest
      omega

/-- The fraction loop writes at most one digit for each pass (R217). -/
theorem length_fractionDigits_le (f fuel fr : Nat) : (fractionDigits f fuel fr).length ≤ fuel := by
  induction fuel generalizing fr with
  | zero => simp [fractionDigits]
  | succ fuel ih =>
    by_cases hfr : fr = 0
    · simp [fractionDigits, hfr]
    · simpa [fractionDigits, hfr] using ih _

/-- A text whose integer part is below 10^k has at most a sign, k integer digits, a point and F fraction digits. -/
theorem length_textOf_le (f : Nat) (a : Word) {k : Nat} (hk : 0 < k) (hn : magnitude a / 2 ^ f < 10 ^ k) :
    (textOf f a).length ≤ 1 + k + (1 + f) := by
  have hsign : (if sext32 a < 0 then [charMinus] else []).length ≤ 1 := by split <;> simp
  have hint : (decimalDigits 10 (magnitude a / 2 ^ f) []).length ≤ k := length_decimalDigits_le hk hn 10 []
  have hfrac : (if magnitude a % 2 ^ f = 0 then []
      else charPoint :: fractionDigits f f (magnitude a % 2 ^ f)).length ≤ 1 + f := by
    have hloop := length_fractionDigits_le f f (magnitude a % 2 ^ f)
    split
    · simp
    · rw [List.length_cons]
      omega
  simp only [textOf, List.length_append]
  omega

/-- Settles O42. Over every F the integer part is at most 2^31, of 10 digits, and F is at most 16; at F = 10 it is at
most 2^21, of 7 digits. -/
theorem tostrTextsFitTheBuffer : Obligations.TostrTextsFitTheBuffer := by
  refine ⟨fun f hf a => ?_, fun a => ?_⟩
  · have hF : f ≤ 16 := by
      simp only [legalFracBits, Bool.and_eq_true, decide_eq_true_eq] at hf
      omega
    have hint : magnitude a / 2 ^ f < 10 ^ 10 :=
      lt_of_le_of_lt ((Nat.div_le_self _ _).trans (magnitude_le a)) (by norm_num)
    have hlen := length_textOf_le f a (by norm_num) hint
    omega
  · have hint : magnitude a / 2 ^ Config.F < 10 ^ 7 :=
      lt_of_le_of_lt (Nat.div_le_div_right (magnitude_le a)) (by decide)
    exact length_textOf_le Config.F a (by norm_num) hint

end Sys2Proof.Machine
end

