-- ==== Sys2Proof/Proofs/StateInvariant.lean ====
section
/-! The invariant of R25 and R55, TXT canonical within its 64 bytes and TXT_LEN at most 64: at reset, and kept by every
ending of a command, by every port access, and so by every step. -/

namespace Sys2Proof.Machine

/-- Settles O58. -/
theorem resetStateIsLegal : Obligations.ResetStateIsLegal :=
  ⟨State.reset_txt_wf, Nat.zero_le _⟩

/-- Legality depends on TXT and TXT_LEN alone. -/
theorem State.wf_of_txt_eq {s t : State} (hs : s.wf) (htxt : t.txt = s.txt) (hlen : t.txtLen = s.txtLen) : t.wf := by
  obtain ⟨hcanonical, hbound⟩ := hs
  exact ⟨htxt ▸ hcanonical, hlen ▸ hbound⟩

/-- The reset input writes the 64 free bytes and nothing beyond them (R260). -/
theorem State.assertReset_wf {s : State} (hs : s.wf) : s.assertReset.wf := by
  obtain ⟨hcanonical, -⟩ := hs
  refine ⟨?_, Nat.zero_le _⟩
  rw [State.assertReset_txt]
  exact Memory.writeAll_wf hcanonical (by simp)

/-- The text port stores at most 64 in TXT_LEN (R55). -/
theorem toNat_storedLen_le (v : Nat) : (BitVec.ofNat 7 (min v Config.txtCap)).toNat ≤ Config.txtCap := by
  rw [BitVec.toNat_ofNat]
  exact (Nat.mod_le _ _).trans (Nat.min_le_right _ _)

/-- TOSTR's text fits the buffer (R217), and no other ending of a command writes TXT or TXT_LEN. -/
theorem exec_keeps_wf {i : Instr} {s t : State} (hs : s.wf) (h : exec i s = .next t) : t.wf := by
  obtain ⟨v, rfl⟩ | ⟨k, rfl⟩ | ⟨a, -, rfl⟩ := exec_cases h
  · exact State.wf_of_txt_eq hs (s.complete_txt v) (s.complete_txtLen v)
  · exact State.wf_of_txt_eq hs (s.raise_txt k) (s.raise_txtLen k)
  · have hfits : (textOf Config.F a).length ≤ 19 := tostrTextsFitTheBuffer.2 a
    exact State.completeText_wf hs (hfits.trans (by decide))

/-- A response is presented without touching the text buffer. -/
theorem State.respond_wf {s : State} (hs : s.wf) : s.respond.wf := by
  rw [State.respond_eq]
  exact State.wf_of_txt_eq hs (s.reply_txt _) (s.reply_txtLen _)

theorem serveCommand_keeps_wf {w : Command} {s t : State} (hs : s.wf) (h : serveCommand w s = .next t) : t.wf := by
  obtain ⟨-, rfl⟩ | ⟨i, u, -, hexec, rfl⟩ := serveCommand_cases h
  · exact State.respond_wf (State.wf_of_txt_eq hs (s.raise_txt _) (s.raise_txtLen _))
  · exact State.respond_wf (exec_keeps_wf hs hexec)

theorem serve_keeps_wf {x : HostAction} {s t : State} (hs : s.wf) (h : serve x s = .next t) : t.wf := by
  cases x with
  | command w => exact serveCommand_keeps_wf hs h
  | writeTxt i b =>
    cases h
    obtain ⟨hcanonical, hbound⟩ := hs
    exact ⟨Memory.write_wf hcanonical i.isLt, hbound⟩
  | readTxt i => cases h; exact State.wf_of_txt_eq hs (s.reply_txt _) (s.reply_txtLen _)
  | writeLen v =>
    cases h
    obtain ⟨hcanonical, -⟩ := hs
    exact ⟨hcanonical, toNat_storedLen_le v⟩
  | readLen => cases h; exact State.wf_of_txt_eq hs (s.reply_txt _) (s.reply_txtLen _)
  | reset => cases h; exact State.assertReset_wf hs

/-- Settles O59: an idle step changes nothing, and every service of a host action keeps the invariant. -/
theorem stepKeepsTheStateLegal : Obligations.StepKeepsTheStateLegal := by
  intro s t hs h
  obtain ⟨-, rfl⟩ | ⟨x, rest, -, hserve⟩ := step_cases h
  · exact hs
  · have htaken : State.wf { s with inbox := rest } := State.wf_of_txt_eq hs rfl rfl
    exact serve_keeps_wf htaken hserve

end Sys2Proof.Machine
end

