-- ==== Sys2Proof/Proofs/CommandFrame.lean ====
section
/-! What a command writes (R23, R101, R243) and what it reads (R23, R59): the frame of `exec`, and its independence
of R and ERR. -/

namespace Sys2Proof.Machine

/-! ### What a command writes -/

theorem exec_tostr (a : Word) (s : State) :
    exec (.tostr a) s = .next (s.completeText (textOf Config.F a)) := rfl

/-- TOSTR does not write R (R216). -/
theorem exec_tostr_r {a : Word} {s t : State} (h : exec (.tostr a) s = .next t) : t.r = s.r := by
  rw [exec_tostr] at h
  cases h
  exact s.completeText_r _

/-- A command that raises writes ERR alone (R243). -/
theorem exec_of_raised {i : Instr} {s t : State} {k : ErrorKind} (h : exec i s = .next t) (hk : t.err = .raised k) :
    t = { s with err := t.err } := by
  obtain ⟨v, rfl⟩ | ⟨j, rfl⟩ | ⟨a, -, rfl⟩ := exec_cases h
  · rw [State.complete_err] at hk
    cases hk
  · rfl
  · rw [State.completeText_err] at hk
    cases hk

/-- A command other than TOSTR that does not raise writes R and ERR alone (R23, R101). -/
theorem exec_of_ok {i : Instr} {s t : State} (h : exec i s = .next t) (hok : t.err = .ok) (hi : ∀ a, i ≠ .tostr a) :
    t = { s with r := t.r, err := .ok } := by
  obtain ⟨v, rfl⟩ | ⟨k, rfl⟩ | ⟨a, hia, -⟩ := exec_cases h
  · rfl
  · rw [State.raise_err] at hok
    cases hok
  · exact absurd hia (hi a)

/-- No ending of a command touches the ROMs or the model's port fields. -/
theorem exec_rom_inbox_replies {i : Instr} {s t : State} (h : exec i s = .next t) :
    t.rom = s.rom ∧ t.inbox = s.inbox ∧ t.replies = s.replies := by
  obtain ⟨v, rfl⟩ | ⟨k, rfl⟩ | ⟨a, -, rfl⟩ := exec_cases h <;> exact ⟨rfl, rfl, rfl⟩

/-- Settles O46. -/
theorem commandsChangeOnlyWhatTheyEndWith : Obligations.CommandsChangeOnlyWhatTheyEndWith := by
  intro i s t h
  refine ⟨fun ⟨_, hk⟩ => exec_of_raised h hk, exec_of_ok h, ?_, exec_rom_inbox_replies h⟩
  rintro a rfl
  exact exec_tostr_r h

/-! ### What a command reads -/

/-- The state with other contents of R and ERR. -/
def State.withResult (s : State) (x : Word) (e : Err) : State := { s with r := x, err := e }

theorem State.withResult_self (s : State) : s.withResult s.r s.err = s := rfl

@[simp] theorem State.withResult_txt (s : State) (x : Word) (e : Err) : (s.withResult x e).txt = s.txt := rfl
@[simp] theorem State.withResult_txtLen (s : State) (x : Word) (e : Err) :
    (s.withResult x e).txtLen = s.txtLen := rfl
@[simp] theorem State.withResult_text (s : State) (x : Word) (e : Err) : (s.withResult x e).text = s.text := rfl
@[simp] theorem State.withResult_freeBytesFrom (s : State) (x : Word) (e : Err) (n : Nat) :
    (s.withResult x e).freeBytesFrom n = s.freeBytesFrom n := rfl

/-- PARSE reads the state through its text alone (R211). -/
theorem exec_parse_of_text {s : State} {t : List Byte} (h : s.text = some t) :
    exec .parse s = .next (s.finish (parseText Config.F t)) := by
  simp only [exec, execParse, h]

theorem exec_parse_of_no_text {s : State} (h : s.text = none) : exec .parse s = .fault .noSuchTxtIndex := by
  simp only [exec, execParse, h]

/-- Whatever R and ERR hold, a command other than TOSTR meets one and the same ending: its result or error kind is
fixed by its operands, the ROMs and the text, or there is no text to read (R23, R59). -/
theorem exec_ending_of_withResult (i : Instr) (s : State) :
    (∃ v, ∀ x e, exec i (s.withResult x e) = .next ((s.withResult x e).finish v)) ∨
      (∃ a, i = .tostr a) ∨ (i = .parse ∧ s.text = none) := by
  cases i with
  | tostr a => exact .inr (.inl ⟨a, rfl⟩)
  | parse =>
    cases htext : s.text with
    | none => exact .inr (.inr ⟨rfl, rfl⟩)
    | some t => exact .inl ⟨_, fun x e => exec_parse_of_text ((s.withResult_text x e).trans htext)⟩
  | mod a b => exact .inl ⟨_, fun _ _ => rfl⟩
  | div a b => exact .inl ⟨_, fun _ _ => rfl⟩
  | ldc a => exact .inl ⟨loadConst s.rom.build a, fun _ _ => rfl⟩
  | sdiv a b => exact .inl ⟨_, fun _ _ => rfl⟩
  | smod a b => exact .inl ⟨_, fun _ _ => rfl⟩
  | sqrt a => exact .inl ⟨_, fun _ _ => rfl⟩
  | sin a => exact .inl ⟨.ok (sinRaw s.rom.build a), fun _ _ => rfl⟩
  | cos a => exact .inl ⟨.ok (cosRaw s.rom.build a), fun _ _ => rfl⟩
  | tan a => exact .inl ⟨.ok (tanRaw s.rom.build a), fun _ _ => rfl⟩
  | atan2 y x => exact .inl ⟨.ok (atan2Raw s.rom.build y x), fun _ _ => rfl⟩
  | _ => exact .inl ⟨.ok _, fun _ _ => rfl⟩

/-- The ending of a command leaves the same text buffer and error kind, and the same result where there is one,
whatever R and ERR held before. -/
theorem State.finish_withResult (s : State) (x : Word) (e : Err) (v : Except ErrorKind Word) :
    ((s.withResult x e).finish v).err = (s.finish v).err ∧ ((s.withResult x e).finish v).txt = (s.finish v).txt ∧
      ((s.withResult x e).finish v).txtLen = (s.finish v).txtLen ∧
      ((s.finish v).err = .ok → ((s.withResult x e).finish v).r = (s.finish v).r) := by
  cases v with
  | ok v => simp
  | error k => simp

/-- Settles O47. -/
theorem commandsReadNeitherRNorErr : Obligations.CommandsReadNeitherRNorErr := by
  intro i s t x e h
  obtain ⟨v, hv⟩ | ⟨a, rfl⟩ | ⟨rfl, hnone⟩ := exec_ending_of_withResult i s
  · have ht := hv s.r s.err
    rw [State.withResult_self, h] at ht
    cases ht
    obtain ⟨herr, htxt, hlen, hr⟩ := s.finish_withResult x e v
    exact ⟨_, hv x e, herr, htxt, hlen, fun hok _ => hr hok⟩
  · rw [exec_tostr] at h
    cases h
    exact ⟨_, exec_tostr a (s.withResult x e), by simp, by simp, by simp, fun _ hne => absurd rfl (hne a)⟩
  · rw [exec_parse_of_no_text hnone] at h
    cases h

end Sys2Proof.Machine
end

