-- ==== Sys2Proof/Proofs/ParsedConstants.lean ====
section
/-! The trigonometric constants as texts the parser reads (R27, R196, R221): a closed computation for each. -/

namespace Sys2Proof.Machine

/-- Settles O13. -/
theorem trigConstantsAreParsedLiterals : Obligations.TrigConstantsAreParsedLiterals :=
  ⟨rfl, rfl, rfl, rfl, rfl, rfl⟩

end Sys2Proof.Machine
end

