-- ==== Sys2Proof/Proofs/PortService.lean ====
section
/-! The service of the ports: a command word to its response (R57, R265), idling (R256), and the accesses through the
text port (R55, R264). -/

namespace Sys2Proof.Machine

/-- With nothing presented the block is idle and holds its state (R256). -/
theorem step_of_inbox_nil {s : State} (h : s.inbox = []) : step s = .next s := by
  simp only [step, h]

/-- A step takes the host's next action and serves it. -/
theorem step_of_inbox_cons {s : State} {x : HostAction} {rest : List HostAction} (h : s.inbox = x :: rest) :
    step s = serve x { s with inbox := rest } := by
  simp only [step, h]

/-! ### The command port -/

/-- An outcome with the response of the ending presented; a fault or a refusal presents none (R73, R265). -/
def respondOutcome : Host.Outcome State Fault Refusal → Host.Outcome State Fault Refusal
  | .next t => .next { t with replies := .response t.response :: t.replies }
  | .fault x => .fault x
  | .refused x => .refused x

/-- A word that decodes is served by its command's meaning, with the response presented. -/
theorem serveCommand_of_decode {w : Command} {i : Instr} (hw : decode w = .ok i) (s : State) :
    serveCommand w s = respondOutcome (exec i s) := by
  simp only [serveCommand, hw]
  cases exec i s with
  | next t => rfl
  | fault x => rfl
  | refused x => rfl

/-- Settles O53. -/
theorem stepRunsTheDecodedCommand : Obligations.StepRunsTheDecodedCommand := by
  refine ⟨fun s => step_of_inbox_nil, fun s w rest i hinbox hw => ?_⟩
  calc step s = serveCommand w { s with inbox := rest } := step_of_inbox_cons hinbox
    _ = respondOutcome (exec i { s with inbox := rest }) := serveCommand_of_decode hw _

/-! ### The text port -/

/-- The 7 bits of TXT_LEN hold the stored length exactly: at most 64 (R25, R55). -/
theorem toNat_storedLen (v : Nat) : (BitVec.ofNat 7 (min v Config.txtCap)).toNat = min v Config.txtCap := by
  have hcap : min v Config.txtCap ≤ 64 := Nat.min_le_right _ _
  rw [BitVec.toNat_ofNat, Nat.mod_eq_of_lt]
  omega

/-- Settles O55. That the written byte is read back rests on TXT being canonical. -/
theorem textPortReadsAndWrites : Obligations.TextPortReadsAndWrites := by
  intro s rest hs
  obtain ⟨hcanonical, -⟩ := hs
  refine ⟨fun i b h => ?writeTxt, fun v h => ?writeLen, fun i h => ?readTxt, fun h => ?readLen⟩
  case writeTxt =>
    exact ⟨_, step_of_inbox_cons h, rfl, Memory.read_write_same hcanonical i.val b,
      fun j hj => Memory.read_write_other b hj.symm⟩
  case writeLen => exact ⟨_, step_of_inbox_cons h, rfl, toNat_storedLen v⟩
  case readTxt => exact step_of_inbox_cons h
  case readLen => exact step_of_inbox_cons h

end Sys2Proof.Machine
end

