-- ==== Sys2Proof/Proofs/Encoding.lean ====
section
/-! The opcode map as a code (R71, R74, R75, R77, R80): the decoder answers with the one row of the word's OP, the
encoder writes that row's OP and exactly the fields the row uses. -/

namespace Sys2Proof

/-! ### What the decoder answers -/

/-- The OP values of the opcode map are those R74 assigns, in the same order. -/
theorem opcodeMap_ops : opcodeMap.map Prod.fst = Machine.assignedOps := rfl

/-- No OP value is assigned twice, so an OP value has at most one row (R74). -/
theorem opcodeMap_row_unique {row row' : BitVec 8 × (Word → Word → Instr)} (hrow : row ∈ opcodeMap)
    (hrow' : row' ∈ opcodeMap) (hop : row.1 = row'.1) : row = row' :=
  have hnodup : (opcodeMap.map Prod.fst).Nodup := by rw [opcodeMap_ops]; decide
  List.inj_on_of_nodup_map hnodup hrow hrow' hop

theorem mem_assignedOps_iff {op : BitVec 8} : op ∈ Machine.assignedOps ↔ ∃ row ∈ opcodeMap, row.1 = op := by
  rw [← opcodeMap_ops, List.mem_map]

/-- The decoder applies the row of the word's OP to the fields A and B (R71, R77). -/
theorem decode_of_row {w : Command} {row : BitVec 8 × (Word → Word → Instr)} (hrow : row ∈ opcodeMap)
    (hop : row.1 = Command.op w) : decode w = .ok (row.2 (Command.fieldA w) (Command.fieldB w)) := by
  obtain ⟨found, hfind⟩ : ∃ found, opcodeMap.find? (fun row => row.1 == Command.op w) = some found :=
    Option.isSome_iff_exists.1 (List.find?_isSome.2 ⟨row, hrow, beq_iff_eq.2 hop⟩)
  have hfoundop : found.1 = Command.op w := by simpa using List.find?_some hfind
  have hfound : found = row := opcodeMap_row_unique (List.mem_of_find?_eq_some hfind) hrow (hfoundop.trans hop.symm)
  simp only [decode, hfind, hfound]

/-- A word whose OP is assigned to no command is refused by that OP (R76). -/
theorem decode_of_reserved {w : Command} (h : Command.op w ∉ Machine.assignedOps) :
    decode w = .error (.reservedOp (Command.op w)) := by
  have hnone : opcodeMap.find? (fun row => row.1 == Command.op w) = none :=
    List.find?_eq_none.2 fun row hrow hop => h (mem_assignedOps_iff.2 ⟨row, hrow, beq_iff_eq.1 hop⟩)
  simp only [decode, hnone]

/-- A word decodes to `i` exactly when the row of its OP makes `i` of its fields A and B. -/
theorem decode_eq_ok_iff {w : Command} {i : Instr} :
    decode w = .ok i ↔
      ∃ row ∈ opcodeMap, row.1 = Command.op w ∧ row.2 (Command.fieldA w) (Command.fieldB w) = i := by
  constructor
  · intro h
    by_cases hop : Command.op w ∈ Machine.assignedOps
    · obtain ⟨row, hrow, hrowop⟩ := mem_assignedOps_iff.1 hop
      rw [decode_of_row hrow hrowop] at h
      exact ⟨row, hrow, hrowop, Except.ok.inj h⟩
    · rw [decode_of_reserved hop] at h
      cases h
  · rintro ⟨row, hrow, hop, rfl⟩
    exact decode_of_row hrow hop

/-! ### Encode, then decode -/

/-- The row that a command's encoded OP names rebuilds the command, whichever of the 33 it is. -/
theorem encodedOp_statement : ∀ i : Instr, Laws.EncodedOp.Statement i
  | .add a b => Laws.EncodedOp.add a b
  | .sub a b => Laws.EncodedOp.sub a b
  | .mul a b => Laws.EncodedOp.mul a b
  | .div a b => Laws.EncodedOp.div a b
  | .mod a b => Laws.EncodedOp.mod a b
  | .neg a => Laws.EncodedOp.neg a
  | .abs a => Laws.EncodedOp.abs a
  | .sign a => Laws.EncodedOp.sign a
  | .floor a => Laws.EncodedOp.floor a
  | .ceil a => Laws.EncodedOp.ceil a
  | .round a => Laws.EncodedOp.round a
  | .rndeven a => Laws.EncodedOp.rndeven a
  | .cmplt a b => Laws.EncodedOp.cmplt a b
  | .cmpgt a b => Laws.EncodedOp.cmpgt a b
  | .cmple a b => Laws.EncodedOp.cmple a b
  | .cmpge a b => Laws.EncodedOp.cmpge a b
  | .cmpeq a b => Laws.EncodedOp.cmpeq a b
  | .fromint a => Laws.EncodedOp.fromint a
  | .toint a => Laws.EncodedOp.toint a
  | .ldc a => Laws.EncodedOp.ldc a
  | .sadd a b => Laws.EncodedOp.sadd a b
  | .ssub a b => Laws.EncodedOp.ssub a b
  | .smul a b => Laws.EncodedOp.smul a b
  | .sdiv a b => Laws.EncodedOp.sdiv a b
  | .smod a b => Laws.EncodedOp.smod a b
  | .sabs a => Laws.EncodedOp.sabs a
  | .sqrt a => Laws.EncodedOp.sqrt a
  | .sin a => Laws.EncodedOp.sin a
  | .cos a => Laws.EncodedOp.cos a
  | .tan a => Laws.EncodedOp.tan a
  | .atan2 y x => Laws.EncodedOp.atan2 y x
  | .parse => Laws.EncodedOp.parse
  | .tostr a => Laws.EncodedOp.tostr a

/-- Settles O48. -/
theorem decodeOfEncodeIsTheCommand : Obligations.DecodeOfEncodeIsTheCommand :=
  fun i => decode_eq_ok_iff.2 (encodedOp_statement i)

/-- Two commands with one encoding are one command. -/
theorem encode_injective {i j : Instr} (h : encode i = encode j) : i = j := by
  have hi := decodeOfEncodeIsTheCommand i
  rw [h, decodeOfEncodeIsTheCommand j] at hi
  exact (Except.ok.inj hi).symm

/-- Settles O52: each written-out word is the encoding of its command. -/
theorem writtenOutWordsDecode : Obligations.WrittenOutWordsDecode :=
  ⟨decodeOfEncodeIsTheCommand (.mul 1536 2048), decodeOfEncodeIsTheCommand (.sqrt 4096),
    decodeOfEncodeIsTheCommand (.atan2 1024 0xFFFFFC00), decodeOfEncodeIsTheCommand (.ldc 7),
    decodeOfEncodeIsTheCommand .parse⟩

/-! ### Decode, then encode: the fields a command uses -/

/-- The OP values of the commands with two operands (R75). -/
def twoOperandOps : List (BitVec 8) :=
  [0x01, 0x02, 0x03, 0x04, 0x05, 0x0D, 0x0E, 0x0F, 0x10, 0x11, 0x20, 0x21, 0x22, 0x23, 0x24, 0x34]

/-- Field A as the command of `op` uses it: every command but PARSE has an operand in it (R75). -/
def usedA (op : BitVec 8) (a : Word) : Word := if op = 0x40 then 0 else a

/-- Field B as the command of `op` uses it (R75). -/
def usedB (op : BitVec 8) (b : Word) : Word := if op ∈ twoOperandOps then b else 0

@[simp] theorem usedA_of_ne {op : BitVec 8} (h : op ≠ 0x40) (a : Word) : usedA op a = a := if_neg h
@[simp] theorem usedB_of_mem {op : BitVec 8} (h : op ∈ twoOperandOps) (b : Word) : usedB op b = b := if_pos h
@[simp] theorem usedB_of_not_mem {op : BitVec 8} (h : op ∉ twoOperandOps) (b : Word) : usedB op b = 0 := if_neg h

/-- The encoding of what a row makes of two fields: the row's OP, the fields it uses, zero for the others (R75, R80). -/
theorem encode_row {row : BitVec 8 × (Word → Word → Instr)} (hrow : row ∈ opcodeMap) (a b : Word) :
    encode (row.2 a b) = Command.mk row.1 (usedA row.1 a) (usedB row.1 b) := by
  fin_cases hrow <;> rfl

/-- Settles O49. -/
theorem encodeOfDecodeKeepsUsedFields : Obligations.EncodeOfDecodeKeepsUsedFields := by
  intro w i hw
  obtain ⟨row, hrow, hop, rfl⟩ := decode_eq_ok_iff.1 hw
  rw [encode_row hrow, hop, Command.op_mk, Command.fieldA_mk, Command.fieldB_mk]
  exact ⟨rfl, fun hA => usedA_of_ne hA _, fun hB => usedB_of_mem hB _⟩

/-- Two words with one OP that agree in the fields this OP's command uses decode alike: the row makes commands of them
that have one encoding. -/
theorem decode_mk_congr {op : BitVec 8} {a b c d : Word} (hA : usedA op a = usedA op c) (hB : usedB op b = usedB op d) :
    decode (Command.mk op a b) = decode (Command.mk op c d) := by
  by_cases hop : op ∈ Machine.assignedOps
  · obtain ⟨row, hrow, rfl⟩ := mem_assignedOps_iff.1 hop
    have hencode : encode (row.2 a b) = encode (row.2 c d) := by rw [encode_row hrow, encode_row hrow, hA, hB]
    rw [decode_of_row hrow (Command.op_mk ..).symm, decode_of_row hrow (Command.op_mk ..).symm]
    simpa using encode_injective hencode
  · rw [decode_of_reserved (by simpa using hop), decode_of_reserved (by simpa using hop), Command.op_mk, Command.op_mk]

/-- Settles O50: none of the sixteen OP values uses field B, and PARSE uses neither field. -/
theorem ignoredFieldsChangeNothing : Obligations.IgnoredFieldsChangeNothing := by
  refine ⟨fun op hop a b c => ?_, fun a b c d => ?_⟩
  · have hone : op ∉ twoOperandOps := by revert op; decide
    exact decode_mk_congr rfl (by rw [usedB_of_not_mem hone, usedB_of_not_mem hone])
  · exact decode_mk_congr rfl rfl

end Sys2Proof

namespace Sys2Proof.Machine

/-! ### The response word -/

/-- The codes of ERR (R241). -/
theorem Err.code_eq (e : Err) :
    e.code = (match e with
      | .ok => 0
      | .raised .divideByZero => 1
      | .raised .domainError => 2
      | .raised .formatError => 3
      | .raised .illegalCommand => 4) := by
  rcases e with _ | ⟨_ | _ | _ | _⟩ <;> rfl

/-- Settles O54. -/
theorem responseCarriesErrAndR : Obligations.ResponseCarriesErrAndR := by
  intro s
  have hr : s.response.extractLsb' 0 32 = s.r := BitVec.extractLsb'_append_eq_right
  have herr : s.response.extractLsb' 32 3 = s.err.code := BitVec.extractLsb'_append_eq_left
  exact ⟨hr, herr.trans s.err.code_eq⟩

end Sys2Proof.Machine
end

