-- ==== Sys2Proof/Proofs/ReservedOps.lean ====
section
/-! IllegalCommand (R76, R126): raised by the port service for a word with a reserved OP, and by one command, LDC with
an index above 11. -/

namespace Sys2Proof.Machine

/-! ### Which functions answer which error kind -/

/-- The ending holds an error kind in ERR only when the command's function answered that kind (R243). -/
theorem State.finish_raised {s t : State} {x : Except ErrorKind Word} {k : ErrorKind}
    (h : (.next (s.finish x) : Host.Outcome State Fault Refusal) = .next t) (hk : t.err = .raised k) :
    x = .error k := by
  cases h
  obtain ⟨v, -, hfin⟩ | ⟨j, rfl, hfin⟩ := s.finish_cases x
  · rw [hfin, State.complete_err] at hk
    cases hk
  · rw [hfin, State.raise_err] at hk
    cases hk
    rfl

/-- A command that ends with a result holds no error kind in ERR (R101). -/
theorem State.complete_not_raised {s t : State} {v : Word} {k : ErrorKind}
    (h : (.next (s.complete v) : Host.Outcome State Fault Refusal) = .next t) : t.err ≠ .raised k := by
  cases h
  rw [State.complete_err]
  exact Err.noConfusion

/-- A function that checks for an error kind first answers no other kind, if what follows the check answers no other. -/
theorem eq_of_check_then_error {c : Prop} [Decidable c] {j k : ErrorKind} {x : Except ErrorKind Word}
    (h : (if c then .error j else x) = .error k) (hx : x = .error k → k = j) : k = j := by
  by_cases hc : c
  · rw [if_pos hc] at h
    exact (Except.error.inj h).symm
  · rw [if_neg hc] at h
    exact hx h

theorem modRaw_eq_error {a b : Word} {k : ErrorKind} (h : modRaw a b = .error k) : k = .divideByZero :=
  eq_of_check_then_error h nofun

theorem divRaw_eq_error {f : Nat} {a b : Word} {k : ErrorKind} (h : divRaw f a b = .error k) : k = .divideByZero :=
  eq_of_check_then_error h nofun

theorem modSafe_eq_error {a b : Word} {k : ErrorKind} (h : modSafe a b = .error k) : k = .divideByZero :=
  eq_of_check_then_error h fun h => by split at h <;> cases h

theorem sqrtRaw_eq_error {f : Nat} {a : Word} {k : ErrorKind} (h : sqrtRaw f a = .error k) : k = .domainError :=
  eq_of_check_then_error h nofun

/-- One step for each of the five causes of R213. -/
theorem parseText_eq_error {f : Nat} {t : List Byte} {k : ErrorKind} (h : parseText f t = .error k) :
    k = .formatError :=
  eq_of_check_then_error h fun h => eq_of_check_then_error h fun h => eq_of_check_then_error h fun h =>
    eq_of_check_then_error h fun h => eq_of_check_then_error h nofun

/-- LDC's function answers an error kind only for an index above 11 (R126). -/
theorem loadConst_eq_error {bd : Config.Build} {a : Word} {k : ErrorKind} (h : loadConst bd a = .error k) :
    11 < a.toNat := by
  by_contra hindex
  rw [loadConst, zext32_eq, if_neg hindex] at h
  cases h

/-- Of the commands only LDC with an index above 11 ends with IllegalCommand (R126). -/
theorem exec_illegalCommand {i : Instr} {s t : State} (h : exec i s = .next t)
    (hk : t.err = .raised .illegalCommand) : ∃ a : Word, i = .ldc a ∧ 11 < a.toNat := by
  cases i with
  | ldc a => exact ⟨a, rfl, loadConst_eq_error (State.finish_raised h hk)⟩
  | mod a b => cases modRaw_eq_error (State.finish_raised h hk)
  | smod a b => cases modSafe_eq_error (State.finish_raised h hk)
  | div a b => cases divRaw_eq_error (State.finish_raised h hk)
  | sdiv a b => cases divRaw_eq_error (State.finish_raised h hk)
  | sqrt a => cases sqrtRaw_eq_error (State.finish_raised h hk)
  | parse =>
    cases htext : s.text with
    | some text =>
      rw [exec_parse_of_text htext] at h
      cases parseText_eq_error (State.finish_raised h hk)
    | none =>
      rw [exec_parse_of_no_text htext] at h
      cases h
  | tostr a =>
    rw [exec_tostr] at h
    cases h
    rw [State.completeText_err] at hk
    cases hk
  | _ => exact absurd hk (State.complete_not_raised h)

/-! ### A word with a reserved OP -/

/-- A word is refused by its OP exactly when that OP is assigned to no command. -/
theorem decode_eq_reserved_iff {w : Command} :
    Command.op w ∉ assignedOps ↔ decode w = .error (.reservedOp (Command.op w)) := by
  refine ⟨decode_of_reserved, fun h hassigned => ?_⟩
  obtain ⟨row, hrow, hop⟩ := mem_assignedOps_iff.1 hassigned
  rw [decode_of_row hrow hop] at h
  cases h

/-- A refused word is served by raising IllegalCommand and presenting the response (R76). -/
theorem serveCommand_of_decode_error {w : Command} {e : DecodeError} (hw : decode w = .error e) (s : State) :
    serveCommand w s = .next (s.raise .illegalCommand).respond := by
  simp only [serveCommand, hw]

/-- Settles O51. -/
theorem reservedOpsAreIllegalCommands : Obligations.ReservedOpsAreIllegalCommands := by
  have hcount : ((List.range 256).filter fun n => BitVec.ofNat 8 n ∉ assignedOps).length = 223 := by
    decide +kernel
  refine ⟨hcount, fun w => decode_eq_reserved_iff, fun i s t => exec_illegalCommand, fun w s rest hop hinbox => ?_⟩
  calc step s = serveCommand w { s with inbox := rest } := step_of_inbox_cons hinbox
    _ = .next (State.raise { s with inbox := rest } .illegalCommand).respond :=
      serveCommand_of_decode_error (decode_of_reserved hop) _

end Sys2Proof.Machine
end

