-- ==== Sys2Proof/Proofs/WordArithmetic.lean ====
section
/-! The integer readings of the operations on raw stores (R14): `s32` carries sums, differences and products of integers
to raw stores, the shifts are products and quotients by a power of two, and the mask of R111 is a floor. -/

namespace Sys2Proof.Machine

/-! ### `s32` carries integer arithmetic to raw stores -/

theorem s32_add (u v : Int) : s32 (u + v) = s32 u + s32 v := BitVec.ofInt_add u v

theorem s32_neg (v : Int) : s32 (-v) = -s32 v := BitVec.ofInt_neg

theorem s32_sub (u v : Int) : s32 (u - v) = s32 u - s32 v := by
  rw [Int.sub_eq_add_neg, s32_add, s32_neg, BitVec.sub_eq_add_neg]

theorem s32_mul (u v : Int) : s32 (u * v) = s32 u * s32 v := BitVec.ofInt_mul u v

/-- What a 32-bit register holds, read as unsigned (R14). -/
theorem toNat_s32 (v : Int) : ((s32 v).toNat : Int) = v % 2 ^ 32 := by
  have hpos : 0 ≤ v % 2 ^ 32 := Int.emod_nonneg v (by norm_num)
  rw [s32, BitVec.toNat_ofInt]
  exact Int.toNat_of_nonneg hpos

/-- A raw store is the pattern of its unsigned reading. -/
theorem s32_toNat (x : Word) : s32 x.toNat = x := by
  rw [s32, BitVec.ofInt_natCast, BitVec.ofNat_toNat, BitVec.setWidth_eq]

theorem toNat_s32_of_range {n : Nat} (h : n < 2 ^ 32) : (s32 n).toNat = n := by
  have hmod := toNat_s32 n
  omega

/-- Only the zero pattern reads as zero. -/
theorem toInt_ne_zero {b : Word} (hb : b ≠ 0) : b.toInt ≠ 0 := fun h => hb (word_ext h)

/-! ### Shifts are multiplication and division by a power of two -/

/-- The arithmetic shift right is a floor (R14). -/
theorem sshiftRight_eq_s32 (a : Word) (f : Nat) : a.sshiftRight f = s32 (asr a.toInt f) := by
  rw [BitVec.sshiftRight_eq, Int.shiftRight_eq_div_pow, asr, s32]
  norm_cast

theorem s32_shiftLeft (v : Int) (f : Nat) : s32 v <<< f = s32 (v * 2 ^ f) := by
  rw [s32_mul, BitVec.shiftLeft_eq_mul_twoPow]
  congr 1
  apply BitVec.eq_of_toNat_eq
  rw [BitVec.toNat_twoPow, s32, BitVec.toNat_ofInt]
  norm_cast

/-- The logical shift right floors a value that fits an unsigned register. -/
theorem s32_ushiftRight {n : Nat} (h : n < 2 ^ 32) (f : Nat) : s32 n >>> f = s32 (n / 2 ^ f : Nat) := by
  have hquot : n / 2 ^ f < 2 ^ 32 := (Nat.div_le_self _ _).trans_lt h
  apply BitVec.eq_of_toNat_eq
  rw [BitVec.toNat_ushiftRight, toNat_s32_of_range h, toNat_s32_of_range hquot, Nat.shiftRight_eq_div_pow]

/-! ### The fraction bits and the floor -/

theorem toNat_fracMask {f : Nat} (hf : f ≤ 32) : (fracMask f).toNat = 2 ^ f - 1 := by
  have hpow : 2 ^ f ≤ 2 ^ 32 := Nat.pow_le_pow_right (by norm_num) hf
  have hpos : 0 < 2 ^ f := Nat.two_pow_pos f
  have hmask : fracMask f = s32 ((2 ^ f - 1 : Nat) : Int) := by
    rw [fracMask, Nat.cast_sub hpos]
    norm_cast
  rw [hmask, toNat_s32_of_range (by omega)]

/-- The fraction bits are the residue modulo 2^F, of the integer as of its wrapped pattern (R111). -/
theorem s32_and_fracMask {f : Nat} (hf : f ≤ 32) (v : Int) : s32 v &&& fracMask f = s32 (v % 2 ^ f) := by
  have hdvd : (2 : Int) ^ f ∣ 2 ^ 32 := pow_dvd_pow 2 hf
  have hres : ((s32 v &&& fracMask f).toNat : Int) = v % 2 ^ f := by
    rw [BitVec.toNat_and, toNat_fracMask hf, Nat.and_two_pow_sub_one_eq_mod, Int.natCast_emod, toNat_s32]
    push_cast
    exact Int.emod_emod_of_dvd v hdvd
  calc s32 v &&& fracMask f = s32 (s32 v &&& fracMask f).toNat := (s32_toNat _).symm
    _ = s32 (v % 2 ^ f) := by rw [hres]

theorem and_fracMask {f : Nat} (hf : f ≤ 32) (a : Word) : a &&& fracMask f = s32 (a.toInt % 2 ^ f) := by
  rw [← s32_and_fracMask hf, s32_toInt]

/-- A pattern is its bits outside a mask plus its bits inside it. -/
theorem and_not_add_and (a m : Word) : (a &&& ~~~m) + (a &&& m) = a := by
  rw [BitVec.add_eq_or_of_and_eq_zero]
  · rw [← BitVec.and_or_distrib_left, BitVec.or_comm, BitVec.or_not_self, BitVec.and_allOnes]
  · ext i hi
    cases hm : m[i] <;> simp [hm]

/-- Masking off the fraction bits floors to whole units, before the wrap and after it (R111). -/
theorem floorRaw_s32 {f : Nat} (hf : f ≤ 32) (v : Int) : floorRaw f (s32 v) = s32 (2 ^ f * (v / 2 ^ f)) := by
  have hsplit := and_not_add_and (s32 v) (fracMask f)
  calc floorRaw f (s32 v) = s32 v - (s32 v &&& fracMask f) := BitVec.eq_sub_iff_add_eq.2 hsplit
    _ = s32 (v - v % 2 ^ f) := by rw [s32_and_fracMask hf, s32_sub]
    _ = s32 (2 ^ f * (v / 2 ^ f)) := by rw [← Int.mul_ediv_self]

end Sys2Proof.Machine
end

