-- ==== Sys2Proof/Proofs/CommandEndings.lean ====
section
/-! How the decoder reaches a command (R74, R77) and how the commands of 40_raw_arithmetic.md end (R101, R243). -/

namespace Sys2Proof

/-- Row `k` of the opcode map is what the decoder answers for its OP on any fields (R74, R77). -/
theorem decodesTo_of_getElem? {op : BitVec 8} {i : Word → Word → Instr} (k : Nat)
    (hrow : opcodeMap[k]? = some (op, i)) : Machine.DecodesTo op i := by
  intro a b
  rw [decode_of_row (List.mem_of_getElem? hrow) (Command.op_mk op a b).symm, Command.fieldA_mk, Command.fieldB_mk]

end Sys2Proof

namespace Sys2Proof.Machine

theorem completes_add (a b : Word) (s : State) : Completes (.add a b) s (addRaw a b) := rfl
theorem completes_sub (a b : Word) (s : State) : Completes (.sub a b) s (subRaw a b) := rfl
theorem completes_neg (a : Word) (s : State) : Completes (.neg a) s (negRaw a) := rfl
theorem completes_mul (a b : Word) (s : State) : Completes (.mul a b) s (mulRaw Config.F a b) := rfl
theorem completes_abs (a : Word) (s : State) : Completes (.abs a) s (absRaw a) := rfl
theorem completes_sign (a : Word) (s : State) : Completes (.sign a) s (signRaw a) := rfl
theorem completes_floor (a : Word) (s : State) : Completes (.floor a) s (floorRaw Config.F a) := rfl
theorem completes_ceil (a : Word) (s : State) : Completes (.ceil a) s (ceilRaw Config.F a) := rfl
theorem completes_round (a : Word) (s : State) : Completes (.round a) s (roundRaw Config.F a) := rfl
theorem completes_rndeven (a : Word) (s : State) : Completes (.rndeven a) s (rndEvenRaw Config.F a) := rfl
theorem completes_fromint (a : Word) (s : State) : Completes (.fromint a) s (fromIntRaw Config.F a) := rfl
theorem completes_toint (a : Word) (s : State) : Completes (.toint a) s (toIntRaw Config.F a) := rfl
theorem completes_cmplt (a b : Word) (s : State) : Completes (.cmplt a b) s (truth (a.toInt < b.toInt)) := rfl
theorem completes_cmpgt (a b : Word) (s : State) : Completes (.cmpgt a b) s (truth (b.toInt < a.toInt)) := rfl
theorem completes_cmple (a b : Word) (s : State) : Completes (.cmple a b) s (truth (a.toInt ≤ b.toInt)) := rfl
theorem completes_cmpge (a b : Word) (s : State) : Completes (.cmpge a b) s (truth (b.toInt ≤ a.toInt)) := rfl
theorem completes_cmpeq (a b : Word) (s : State) : Completes (.cmpeq a b) s (truth (a == b)) := rfl

theorem exec_mod (a b : Word) (s : State) : exec (.mod a b) s = .next (s.finish (modRaw a b)) := rfl
theorem exec_ldc (a : Word) (s : State) : exec (.ldc a) s = .next (s.finish (loadConst s.rom.build a)) := rfl

/-- A command whose function answers a value completes with it (R101). -/
theorem completes_of_exec_finish {i : Instr} {s : State} {x : Except ErrorKind Word} {v : Word}
    (h : exec i s = .next (s.finish x)) (hx : x = .ok v) : Completes i s v := by
  rw [hx, State.finish_ok] at h
  exact h

/-- A command whose function answers an error kind raises it (R243). -/
theorem raises_of_exec_finish {i : Instr} {s : State} {x : Except ErrorKind Word} {k : ErrorKind}
    (h : exec i s = .next (s.finish x)) (hx : x = .error k) : Raises i s k := by
  rw [hx, State.finish_error] at h
  exact h

end Sys2Proof.Machine
end

