-- ==== Sys2Proof/Proofs/RawArithmetic.lean ====
section
/-! Raw arithmetic (R102 to R126): the wrapping operations, the remainder, absolute value and sign, the comparisons, and
the constants. -/

namespace Sys2Proof.Machine

/-! ### Wrapping arithmetic -/

/-- Settles O1. -/
theorem addSubNegWrapAround : Obligations.AddSubNegWrapAround :=
  ⟨decodesTo_of_getElem? 0 rfl, decodesTo_of_getElem? 1 rfl, decodesTo_of_getElem? 5 rfl, fun a b s =>
    ⟨⟨_, completes_add a b s, toInt_s32 _⟩, ⟨_, completes_sub a b s, toInt_s32 _⟩,
      ⟨_, completes_neg a s, toInt_s32 _⟩⟩⟩

/-- Settles O2. -/
theorem mulFloorsThenWraps : Obligations.MulFloorsThenWraps :=
  ⟨decodesTo_of_getElem? 2 rfl, fun a b s => ⟨_, completes_mul a b s, toInt_s32 _⟩⟩

/-! ### The remainder -/

/-- The truncating remainder is below the divisor in magnitude. -/
theorem natAbs_tmod_lt (a : Int) {b : Int} (hb : b ≠ 0) : (a.tmod b).natAbs < b.natAbs := by
  rw [Int.natAbs_tmod]
  exact Nat.mod_lt _ (Int.natAbs_pos.2 hb)

/-- The truncating remainder is zero or has the sign of the dividend. -/
theorem tmod_eq_zero_or_sign_tmod (a b : Int) : a.tmod b = 0 ∨ (a.tmod b).sign = a.sign := by
  by_cases hdvd : b ∣ a
  · exact .inl (Int.tmod_eq_zero_of_dvd hdvd)
  · exact .inr (by rw [Int.sign_tmod, if_neg hdvd])

/-- The remainder of R108 is the truncating one: it is below the divisor in magnitude, so nothing wraps. -/
theorem toInt_remainder (a : Word) {b : Word} (hb : b ≠ 0) : (remainder a b).toInt = a.toInt.tmod b.toInt := by
  have hdef : a.toInt - a.toInt.tdiv b.toInt * b.toInt = a.toInt.tmod b.toInt := by
    rw [Int.tmod_def, Int.mul_comm]
  have hlt := natAbs_tmod_lt a.toInt (toInt_ne_zero hb)
  have hrange := toInt_range b
  simp only [remainder, sext32_eq, hdef]
  exact toInt_s32_of_range (by omega)

/-- Settles O4. -/
theorem modIsTheTruncatingRemainder : Obligations.ModIsTheTruncatingRemainder := by
  refine ⟨decodesTo_of_getElem? 4 rfl, fun a b s => ?_⟩
  obtain ⟨hzero, hraise⟩ | ⟨hb, hok⟩ := modRaw_cases a b
  · exact ⟨fun _ => raises_of_exec_finish (exec_mod a b s) hraise, fun hb => absurd hzero hb⟩
  · refine ⟨fun hzero => absurd hzero hb, fun _ =>
      ⟨remainder a b, completes_of_exec_finish (exec_mod a b s) hok, toInt_remainder a hb, ?_, ?_⟩⟩
    · rw [toInt_remainder a hb]
      exact natAbs_tmod_lt _ (toInt_ne_zero hb)
    · refine (tmod_eq_zero_or_sign_tmod a.toInt b.toInt).imp (fun hv => word_ext ?_) fun hsign => ?_
      · rw [toInt_remainder a hb, hv]
        exact BitVec.toInt_zero.symm
      · rw [toInt_remainder a hb, hsign]

/-! ### Absolute value and sign -/

/-- The sign spread over the word is all ones below zero and all zeros otherwise (R109). -/
theorem sshiftRight_31 (a : Word) : a.sshiftRight 31 = if a.toInt < 0 then BitVec.allOnes 32 else 0 := by
  have hrange := toInt_range a
  have hspread : asr a.toInt 31 = if a.toInt < 0 then -1 else 0 := by
    simp only [asr]
    split <;> omega
  rw [sshiftRight_eq_s32, hspread]
  split <;> rfl

theorem absRaw_eq (a : Word) : absRaw a = (a + a.sshiftRight 31) ^^^ a.sshiftRight 31 := by
  simp only [absRaw, sext32_eq, ← sshiftRight_eq_s32, s32_add, s32_toInt]

theorem absRaw_of_nonneg {a : Word} (ha : 0 ≤ a.toInt) : absRaw a = a := by
  rw [absRaw_eq, sshiftRight_31, if_neg (by omega)]
  simp

/-- Below zero the identity is the complement of a - 1, which is the negation (R109). -/
theorem absRaw_of_neg {a : Word} (ha : a.toInt < 0) : absRaw a = -a := by
  rw [absRaw_eq, sshiftRight_31, if_pos ha, BitVec.xor_allOnes, ← BitVec.neg_one_eq_allOnes, ← BitVec.sub_eq_add_neg,
    BitVec.not_sub_one_eq_not_add_one, ← BitVec.neg_eq_not_add]

/-- Settles O5. -/
theorem absIsTheBranchlessIdentity : Obligations.AbsIsTheBranchlessIdentity := by
  refine ⟨decodesTo_of_getElem? 6 rfl, fun a s =>
    ⟨absRaw a, completes_abs a s, absRaw_eq a, absRaw_of_nonneg, fun ha => ?_⟩⟩
  rw [absRaw_of_neg ha, BitVec.toInt_neg]

theorem toInt_signRaw (a : Word) : (signRaw a).toInt = a.toInt.sign := by
  have hsign : ((if 0 < a.toInt then 1 else 0) - (if a.toInt < 0 then 1 else 0) : Int) = a.toInt.sign := by
    obtain hneg | hzero | hpos := Int.lt_trichotomy a.toInt 0
    · rw [Int.sign_eq_neg_one_of_neg hneg, if_pos hneg, if_neg (by omega)]
      rfl
    · simp [hzero]
    · rw [Int.sign_eq_one_of_pos hpos, if_pos hpos, if_neg (by omega)]
      rfl
  have hbound := Int.sign_trichotomy a.toInt
  rw [signRaw, sext32_eq, hsign]
  exact toInt_s32_of_range (by omega)

/-- Settles O6. -/
theorem signIsAPlainInteger : Obligations.SignIsAPlainInteger :=
  ⟨decodesTo_of_getElem? 7 rfl, fun a s => ⟨_, completes_sign a s, toInt_signRaw a⟩⟩

/-! ### Comparisons -/

/-- The result of a comparison is 1 exactly where the comparison holds (R115). -/
theorem truth_decide (p : Prop) [Decidable p] : truth (decide p) = if p then 1 else 0 := by
  by_cases hp : p <;> simp [truth, hp]

/-- Settles O10. -/
theorem comparisonsLeaveOneOrZero : Obligations.ComparisonsLeaveOneOrZero := by
  refine ⟨decodesTo_of_getElem? 12 rfl, decodesTo_of_getElem? 13 rfl, decodesTo_of_getElem? 14 rfl,
    decodesTo_of_getElem? 15 rfl, decodesTo_of_getElem? 16 rfl, fun a b s => ?_⟩
  simp only [← truth_decide]
  exact ⟨completes_cmplt a b s, completes_cmpgt a b s, completes_cmple a b s, completes_cmpge a b s,
    completes_cmpeq a b s⟩

/-! ### Constants -/

/-- The twelve words of CONST by their index (R28). -/
theorem loadConst_constants : ∀ p ∈ ([(0, 0), (1, 1024), (2, 2048), (3, 512), (4, 1), (5, 0x7FFFFFFF),
    (6, 0x80000000), (7, 3216), (8, 6434), (9, 1608), (10, 326), (11, 651)] : List (Word × Word)),
    loadConst buildF10 p.1 = .ok p.2 := by
  intro p hp
  fin_cases hp <;> rfl

theorem loadConst_of_gt (bd : Config.Build) {a : Word} (ha : 11 < a.toNat) :
    loadConst bd a = .error .illegalCommand := if_pos ha

/-- Settles O12. -/
theorem ldcReadsTheTwelveConstants : Obligations.LdcReadsTheTwelveConstants := by
  refine ⟨decodesTo_of_getElem? 19 rfl, fun s => ⟨fun p hp => ?_, fun a ha => ?_⟩⟩
  · refine completes_of_exec_finish (exec_ldc p.1 s) ?_
    rw [RomImage.build_eq]
    exact loadConst_constants p hp
  · exact raises_of_exec_finish (exec_ldc a s) (loadConst_of_gt _ ha)

end Sys2Proof.Machine
end

