-- ==== Sys2Proof/Proofs/Multiplier.lean ====
section
/-! The four-partial-product datapath of the multiplier (R106) against the floored product (R105), for every legal F. -/

namespace Sys2Proof.Machine

/-- The schoolbook product of R106 over whole units and fractions: only the product of the two fractions is floored. -/
theorem mul_ediv_two_pow (f : Nat) (u v : Int) :
    u * v / 2 ^ f = (u % 2 ^ f) * (v % 2 ^ f) / 2 ^ f + (u % 2 ^ f) * (v / 2 ^ f) + (u / 2 ^ f) * (v % 2 ^ f) +
      (u / 2 ^ f) * (v / 2 ^ f) * 2 ^ f := by
  have hpos : (2 : Int) ^ f ≠ 0 := by positivity
  have hu := Int.mul_ediv_add_emod u (2 ^ f)
  have hv := Int.mul_ediv_add_emod v (2 ^ f)
  generalize (2 : Int) ^ f = m at *
  generalize u / m = uh, u % m = ul, v / m = vh, v % m = vl at *
  have hprod : u * v = ul * vl + (ul * vh + uh * vl + uh * vh * m) * m := by
    rw [← hu, ← hv]
    ring
  rw [hprod, Int.add_mul_ediv_right _ _ hpos]
  ring

/-- For F ≤ 16 the product of two fractions fits the unsigned register, so its logical shift is the floor (R106). -/
theorem fractions_product_ushiftRight {f : Nat} (hf : f ≤ 16) (u v : Int) :
    s32 ((u % 2 ^ f) * (v % 2 ^ f)) >>> f = s32 ((u % 2 ^ f) * (v % 2 ^ f) / 2 ^ f) := by
  have hpos : (0 : Int) < 2 ^ f := by positivity
  have hfraction (w : Int) : ∃ k : Nat, w % 2 ^ f = k ∧ k < 2 ^ f := by
    obtain ⟨k, hk⟩ := Int.eq_ofNat_of_zero_le (Int.emod_nonneg w hpos.ne')
    have hlt := Int.emod_lt_of_pos w hpos
    rw [hk] at hlt
    exact ⟨k, hk, by exact_mod_cast hlt⟩
  obtain ⟨k, hk, hklt⟩ := hfraction u
  obtain ⟨l, hl, hllt⟩ := hfraction v
  have hfit : k * l < 2 ^ 32 :=
    calc k * l < 2 ^ f * 2 ^ f := Nat.mul_lt_mul'' hklt hllt
      _ = 2 ^ (f + f) := (Nat.pow_add 2 f f).symm
      _ ≤ 2 ^ 32 := Nat.pow_le_pow_right (by norm_num) (by omega)
  rw [hk, hl]
  exact_mod_cast s32_ushiftRight hfit f

theorem le_of_legalFracBits {f : Nat} (h : legalFracBits f = true) : f ≤ 16 := by
  simp only [legalFracBits, Bool.and_eq_true, decide_eq_true_eq] at h
  omega

/-- Settles O3: every register of the datapath holds its integer modulo 2^32 (R106). -/
theorem mulDatapathGivesTheFlooredProduct : Obligations.MulDatapathGivesTheFlooredProduct := by
  intro f hlegal a b
  have hf := le_of_legalFracBits hlegal
  have hf32 : f ≤ 32 := by omega
  simp only [mulDatapath, mulRaw, sext32_eq, and_fracMask hf32, sshiftRight_eq_s32,
    ← s32_mul, s32_shiftLeft, asr, fractions_product_ushiftRight hf, ← s32_add]
  rw [mul_ediv_two_pow f a.toInt b.toInt]

end Sys2Proof.Machine
end

