-- ==== Sys2Proof/Proofs/Rounding.lean ====
section
/-! Rounding to whole units and the integer conversions at F = 10 (R111 to R114, R121, R122), where ONE = 1024 and
HALF = 512. -/

namespace Sys2Proof.Machine

/-! ### The floor and the fraction of a raw store -/

theorem floorRaw_eq_s32 {f : Nat} (hf : f ≤ 32) (a : Word) : floorRaw f a = s32 (2 ^ f * (a.toInt / 2 ^ f)) := by
  rw [← floorRaw_s32 hf, s32_toInt]

theorem fraction_eq_emod {f : Nat} (hf : f ≤ 31) (a : Word) : (fraction f a : Int) = a.toInt % 2 ^ f := by
  have hpow : (2 : Int) ^ f ≤ 2 ^ 31 := pow_le_pow_right₀ (by norm_num) hf
  have hpos : (0 : Int) < 2 ^ f := by positivity
  have hnonneg := Int.emod_nonneg a.toInt hpos.ne'
  have hlt := Int.emod_lt_of_pos a.toInt hpos
  rw [fraction, zext32_eq, and_fracMask (by omega), toNat_s32]
  exact Int.emod_eq_of_lt hnonneg (by omega)

/-- The fraction bits at F = 10. -/
theorem fraction_F (a : Word) : (fraction Config.F a : Int) = a.toInt % 1024 :=
  fraction_eq_emod (f := 10) (by norm_num) a

/-- Flooring at F = 10 never wraps: MIN is a multiple of ONE. -/
theorem toInt_floorRaw_F (a : Word) : (floorRaw Config.F a).toInt = 1024 * (a.toInt / 1024) := by
  have hfloor : floorRaw Config.F a = s32 (1024 * (a.toInt / 1024)) := floorRaw_eq_s32 (f := 10) (by norm_num) a
  have hrange := toInt_range a
  rw [hfloor]
  exact toInt_s32_of_range (by omega)

/-- One whole unit more than the floor, wrapping (R112, R114). -/
theorem toInt_floorRaw_add_one (a : Word) :
    (s32 (sext32 (floorRaw Config.F a) + 2 ^ Config.F)).toInt = (1024 * (a.toInt / 1024 + 1)).bmod (2 ^ 32) := by
  have hunit : (1024 : Int) * (a.toInt / 1024) + 2 ^ Config.F = 1024 * (a.toInt / 1024 + 1) := by
    rw [Int.mul_add]
    rfl
  rw [toInt_s32, sext32_eq, toInt_floorRaw_F, hunit]

/-! ### FLOOR and CEIL -/

theorem floorRaw_F_eq_and (a : Word) : floorRaw Config.F a = a &&& 0xFFFFFC00 := rfl

theorem ceilRaw_of_fraction_zero {f : Nat} {a : Word} (h : fraction f a = 0) : ceilRaw f a = floorRaw f a := by
  simp [ceilRaw, h]

theorem ceilRaw_of_fraction_ne_zero {f : Nat} {a : Word} (h : fraction f a ≠ 0) :
    ceilRaw f a = s32 (sext32 (floorRaw f a) + 2 ^ f) := by
  simp [ceilRaw, h]

theorem toInt_ceilRaw_F (a : Word) : (ceilRaw Config.F a).toInt =
    (1024 * (a.toInt / 1024) + if a.toInt % 1024 = 0 then 0 else 1024).bmod (2 ^ 32) := by
  have hfraction := fraction_F a
  by_cases hzero : a.toInt % 1024 = 0
  · rw [ceilRaw_of_fraction_zero (by omega), if_pos hzero, Int.add_zero, ← toInt_floorRaw_F, BitVec.toInt_bmod_cancel]
  · rw [ceilRaw_of_fraction_ne_zero (by omega), if_neg hzero, toInt_floorRaw_add_one, Int.mul_add, Int.mul_one]

/-- Settles O7. -/
theorem floorAndCeilToWholeUnits : Obligations.FloorAndCeilToWholeUnits := by
  refine ⟨decodesTo_of_getElem? 8 rfl, decodesTo_of_getElem? 9 rfl, fun a s =>
    ⟨⟨_, completes_floor a s, floorRaw_F_eq_and a, ?_⟩, ⟨_, completes_ceil a s, toInt_ceilRaw_F a⟩⟩⟩
  rw [toInt_floorRaw_F]
  exact ⟨by omega, by omega, fun k hk => by omega⟩

/-! ### ROUND -/

/-- The wrap of the addition commutes with the floor, because ONE divides 2^32 (R113). -/
theorem roundRaw_F (a : Word) : roundRaw Config.F a = s32 (1024 * ((a.toInt + 512) / 1024)) :=
  floorRaw_s32 (f := 10) (by norm_num) (a.toInt + 512)

/-- Settles O8. -/
theorem roundSendsTiesUp : Obligations.RoundSendsTiesUp :=
  ⟨decodesTo_of_getElem? 10 rfl, fun a s => ⟨_, completes_round a s, by rw [roundRaw_F, toInt_s32]⟩⟩

/-! ### RNDEVEN -/

/-- RNDEVEN goes one whole unit up from the floor above the half, and at the half where the floor is odd (R114). -/
theorem rndEvenRaw_F (a : Word) : rndEvenRaw Config.F a =
    if 512 < a.toInt % 1024 ∨ (a.toInt % 1024 = 512 ∧ a.toInt / 1024 % 2 = 1)
    then s32 (sext32 (floorRaw Config.F a) + 2 ^ Config.F) else floorRaw Config.F a := by
  have hfraction := fraction_F a
  have hhalf : 2 ^ (Config.F - 1) = 512 := rfl
  have hunits : asr (sext32 (floorRaw Config.F a)) Config.F = a.toInt / 1024 := by
    rw [sext32_eq, toInt_floorRaw_F]
    exact Int.mul_ediv_cancel_left _ (show (1024 : Int) ≠ 0 by norm_num)
  simp only [rndEvenRaw, hhalf, hunits]
  obtain habove | htie | hbelow := Nat.lt_trichotomy 512 (fraction Config.F a)
  · rw [if_pos habove, if_pos (by omega)]
  · rw [if_neg (by omega), if_neg (by omega)]
    by_cases hodd : a.toInt / 1024 % 2 = 1
    · rw [if_pos hodd, if_pos (by omega)]
    · rw [if_neg hodd, if_neg (by omega)]
  · rw [if_neg (by omega), if_pos hbelow, if_neg (by omega)]

theorem toInt_rndEvenRaw_F (a : Word) : (rndEvenRaw Config.F a).toInt =
    (1024 * (a.toInt / 1024 +
      if 512 < a.toInt % 1024 ∨ (a.toInt % 1024 = 512 ∧ a.toInt / 1024 % 2 = 1) then 1 else 0)).bmod (2 ^ 32) := by
  rw [rndEvenRaw_F]
  split
  · exact toInt_floorRaw_add_one a
  · rw [Int.add_zero, ← toInt_floorRaw_F, BitVec.toInt_bmod_cancel]

/-- Settles O9. -/
theorem rndEvenSendsTiesToEven : Obligations.RndEvenSendsTiesToEven :=
  ⟨decodesTo_of_getElem? 11 rfl, fun a s => ⟨_, completes_rndeven a s, toInt_rndEvenRaw_F a⟩⟩

/-! ### FROMINT and TOINT -/

theorem toInt_fromIntRaw_F (n : Word) : (fromIntRaw Config.F n).toInt = (n.toInt * 1024).bmod (2 ^ 32) :=
  toInt_s32 (n.toInt * 1024)

/-- TOINT is a floor, which never leaves the signed range (R122). -/
theorem toInt_toIntRaw_F (a : Word) : (toIntRaw Config.F a).toInt = a.toInt / 1024 := by
  have hrange := toInt_range a
  exact toInt_s32_of_range (v := a.toInt / 1024) (by omega)

/-- TOINT undoes FROMINT on the integers whose raw store does not wrap (R122). -/
theorem toIntRaw_fromIntRaw_F {n : Word} (hmin : -2097152 ≤ n.toInt) (hmax : n.toInt ≤ 2097151) :
    toIntRaw Config.F (fromIntRaw Config.F n) = n := by
  have hscaled : (fromIntRaw Config.F n).toInt = n.toInt * 1024 :=
    toInt_s32_of_range (v := n.toInt * 1024) (by omega)
  apply word_ext
  rw [toInt_toIntRaw_F, hscaled, Int.mul_ediv_cancel _ (by norm_num)]

/-- FROMINT of TOINT is FLOOR (R122). -/
theorem fromIntRaw_toIntRaw_F (a : Word) : fromIntRaw Config.F (toIntRaw Config.F a) = floorRaw Config.F a := by
  apply word_ext
  rw [toInt_fromIntRaw_F, toInt_toIntRaw_F, Int.mul_comm, ← toInt_floorRaw_F, BitVec.toInt_bmod_cancel]

/-- Settles O11. -/
theorem fromIntAndToIntShiftByF : Obligations.FromIntAndToIntShiftByF := by
  refine ⟨decodesTo_of_getElem? 17 rfl, decodesTo_of_getElem? 18 rfl, fun a s =>
    ⟨⟨_, completes_fromint a s, toInt_fromIntRaw_F a, fun hmin hmax => ?_⟩,
      ⟨_, _, completes_toint a s, toInt_toIntRaw_F a, completes_fromint _ s, ?_⟩⟩⟩
  · have hundo := completes_toint (fromIntRaw Config.F a) s
    rwa [toIntRaw_fromIntRaw_F hmin hmax] at hundo
  · rw [fromIntRaw_toIntRaw_F]
    exact completes_floor a s

end Sys2Proof.Machine
end

