-- ==== Sys2Proof/Proofs/SafeArithmetic.lean ====
section
/-! Overflow-safe arithmetic (R140 to R146): SADD, SSUB, SMUL and SABS are all `s32 (clamp v)` of the exact result `v`,
where the raw commands are `s32 v`; SMOD and MOD are one function. -/

namespace Sys2Proof.Machine

/-! ### How the safe commands end -/

theorem completes_sadd (a b : Word) (s : State) : Completes (.sadd a b) s (addSafe a b) := rfl
theorem completes_ssub (a b : Word) (s : State) : Completes (.ssub a b) s (subSafe a b) := rfl
theorem completes_smul (a b : Word) (s : State) : Completes (.smul a b) s (mulSafe Config.F a b) := rfl
theorem completes_sabs (a : Word) (s : State) : Completes (.sabs a) s (absSafe a) := rfl

theorem exec_smod (a b : Word) (s : State) : exec (.smod a b) s = .next (s.finish (modSafe a b)) := rfl
theorem exec_div (a b : Word) (s : State) : exec (.div a b) s = .next (s.finish (divRaw Config.F a b)) := rfl
theorem exec_sdiv (a b : Word) (s : State) : exec (.sdiv a b) s = .next (s.finish (divSafe Config.F a b)) := rfl

/-- Two commands that complete with one result leave one state. -/
theorem exec_eq_of_completes {i j : Instr} {s : State} {v w : Word} (hi : Completes i s v) (hj : Completes j s w)
    (h : v = w) : exec i s = exec j s := by
  subst h
  exact hi.trans hj.symm

/-! ### The clamped result -/

/-- A clamped integer is in the signed range, so nothing wraps. -/
theorem toInt_s32_clamp (v : Int) : (s32 (clamp v)).toInt = max (-2147483648) (min 2147483647 v) := by
  rw [clamp_eq]
  exact toInt_s32_of_range (by omega)

theorem clamp_of_range {v : Int} (hmin : -2147483648 ≤ v) (hmax : v ≤ 2147483647) : clamp v = v := by
  rw [clamp_eq]
  omega

theorem saturated_false_eq {v : Int} (h : 2147483647 < v) : saturated false = s32 (clamp v) := by
  rw [show clamp v = maxInt from if_pos h]
  rfl

theorem saturated_true_eq {v : Int} (h : v < -2147483648) : saturated true = s32 (clamp v) := by
  rw [show clamp v = minInt by rw [clamp_eq, minInt]; omega]
  rfl

/-- A detector that fires exactly on an exact result outside the range, with that result's sign at hand, clamps it. -/
theorem ite_saturated_eq_s32_clamp {v : Int} {overflow neg : Bool}
    (hoverflow : overflow = true ↔ 2147483647 < v ∨ v < -2147483648)
    (hneg : overflow = true → (neg = true ↔ v < 0)) :
    (if overflow then saturated neg else s32 v) = s32 (clamp v) := by
  cases overflow with
  | false =>
    have hrange : ¬ (2147483647 < v ∨ v < -2147483648) := fun h => Bool.false_ne_true (hoverflow.2 h)
    rw [clamp_of_range (by omega) (by omega)]
    rfl
  | true =>
    have hout := hoverflow.1 rfl
    cases neg with
    | false =>
      have : ¬ v < 0 := fun h => Bool.false_ne_true ((hneg rfl).2 h)
      exact saturated_false_eq (by omega)
    | true =>
      have : v < 0 := (hneg rfl).1 rfl
      exact saturated_true_eq (by omega)

/-! ### SADD and SSUB -/

/-- An integer at most one word's range away wraps at most once. -/
theorem toInt_s32_wraps_once {v : Int} (hmin : -4294967296 ≤ v) (hmax : v < 4294967296) :
    (2147483647 < v ∧ (s32 v).toInt = v - 4294967296) ∨ (v < -2147483648 ∧ (s32 v).toInt = v + 4294967296) ∨
      ((-2147483648 ≤ v ∧ v ≤ 2147483647) ∧ (s32 v).toInt = v) := by
  rw [toInt_s32, Int.bmod_def]
  omega

theorem addRaw_eq (a b : Word) : addRaw a b = a + b := by
  simp only [addRaw, sext32_eq, s32_add, s32_toInt]

theorem subRaw_eq (a b : Word) : subRaw a b = a - b := by
  simp only [subRaw, sext32_eq, s32_sub, s32_toInt]

theorem isNeg_eq_isNeg_iff (x y : Word) : isNeg x = isNeg y ↔ (x.toInt < 0 ↔ y.toInt < 0) := by
  rw [Bool.eq_iff_iff, isNeg_iff, isNeg_iff]

/-- The detector of R141 in the signs of the operands and the result. -/
theorem addOverflows_iff (a b r : Word) :
    addOverflows a b r = true ↔ (a.toInt < 0 ↔ b.toInt < 0) ∧ ¬ (r.toInt < 0 ↔ a.toInt < 0) := by
  rw [addOverflows, Bool.and_eq_true, beq_iff_eq, bne_iff_ne, ne_eq, isNeg_eq_isNeg_iff, isNeg_eq_isNeg_iff]

/-- The detector of R142 in the signs of the operands and the result. -/
theorem subOverflows_iff (a b r : Word) :
    subOverflows a b r = true ↔ ¬ (a.toInt < 0 ↔ b.toInt < 0) ∧ ¬ (r.toInt < 0 ↔ a.toInt < 0) := by
  rw [subOverflows, Bool.and_eq_true, bne_iff_ne, bne_iff_ne, ne_eq, ne_eq, isNeg_eq_isNeg_iff,
    isNeg_eq_isNeg_iff]

/-- The wrapped sum's sign differs from both operands' exactly when the exact sum is out of range (R141). -/
theorem addOverflows_addRaw_iff (a b : Word) : addOverflows a b (addRaw a b) = true ↔
    2147483647 < a.toInt + b.toInt ∨ a.toInt + b.toInt < -2147483648 := by
  have ha := toInt_range a
  have hb := toInt_range b
  have hwrap : (addRaw a b).toInt = (s32 (a.toInt + b.toInt)).toInt := rfl
  have honce := toInt_s32_wraps_once (v := a.toInt + b.toInt) (by omega) (by omega)
  rw [addOverflows_iff]
  omega

/-- The same for the wrapped difference, operands of differing sign, and the minuend's sign (R142). -/
theorem subOverflows_subRaw_iff (a b : Word) : subOverflows a b (subRaw a b) = true ↔
    2147483647 < a.toInt - b.toInt ∨ a.toInt - b.toInt < -2147483648 := by
  have ha := toInt_range a
  have hb := toInt_range b
  have hwrap : (subRaw a b).toInt = (s32 (a.toInt - b.toInt)).toInt := rfl
  have honce := toInt_s32_wraps_once (v := a.toInt - b.toInt) (by omega) (by omega)
  rw [subOverflows_iff]
  omega

/-- On overflow the exact sum has the first operand's sign, so the detector clamps it (R141). -/
theorem addSafe_eq_s32_clamp (a b : Word) : addSafe a b = s32 (clamp (a.toInt + b.toInt)) := by
  refine ite_saturated_eq_s32_clamp (v := a.toInt + b.toInt) (addOverflows_addRaw_iff a b)
    fun hoverflow => ?_
  obtain ⟨hsigns, -⟩ := (addOverflows_iff a b _).1 hoverflow
  have hout := (addOverflows_addRaw_iff a b).1 hoverflow
  rw [isNeg_iff]
  omega

/-- On overflow the exact difference has the minuend's sign, so the detector clamps it (R142). -/
theorem subSafe_eq_s32_clamp (a b : Word) : subSafe a b = s32 (clamp (a.toInt - b.toInt)) := by
  refine ite_saturated_eq_s32_clamp (v := a.toInt - b.toInt) (subOverflows_subRaw_iff a b)
    fun hoverflow => ?_
  obtain ⟨hsigns, -⟩ := (subOverflows_iff a b _).1 hoverflow
  have hout := (subOverflows_subRaw_iff a b).1 hoverflow
  rw [isNeg_iff]
  omega

theorem saturated_isNeg (a : Word) : saturated (isNeg a) = if a.toInt < 0 then 0x80000000 else 0x7FFFFFFF :=
  if_congr (isNeg_iff a) rfl rfl

theorem addSafe_eq_detector (a b : Word) :
    addSafe a b = if (a.toInt < 0 ↔ b.toInt < 0) ∧ ¬ ((a + b).toInt < 0 ↔ a.toInt < 0)
      then (if a.toInt < 0 then 0x80000000 else 0x7FFFFFFF) else a + b := by
  rw [← addRaw_eq]
  exact if_congr (addOverflows_iff a b _) (saturated_isNeg a) rfl

theorem subSafe_eq_detector (a b : Word) :
    subSafe a b = if ¬ (a.toInt < 0 ↔ b.toInt < 0) ∧ ¬ ((a - b).toInt < 0 ↔ a.toInt < 0)
      then (if a.toInt < 0 then 0x80000000 else 0x7FFFFFFF) else a - b := by
  rw [← subRaw_eq]
  exact if_congr (subOverflows_iff a b _) (saturated_isNeg a) rfl

/-- Settles O14. -/
theorem saddAndSsubClamp : Obligations.SaddAndSsubClamp := by
  refine ⟨decodesTo_of_getElem? 20 rfl, decodesTo_of_getElem? 21 rfl, fun a b s =>
    ⟨⟨_, completes_sadd a b s, ?_, addSafe_eq_detector a b⟩, ⟨_, completes_ssub a b s, ?_, subSafe_eq_detector a b⟩⟩⟩
  · rw [addSafe_eq_s32_clamp, toInt_s32_clamp]
  · rw [subSafe_eq_s32_clamp, toInt_s32_clamp]

/-! ### SMUL -/

theorem mulRaw_F (a b : Word) : mulRaw Config.F a b = s32 (a.toInt * b.toInt / 1024) := rfl

theorem mulSafe_F (a b : Word) : mulSafe Config.F a b = s32 (clamp (a.toInt * b.toInt / 1024)) := rfl

theorem mulSafe_F_of_range {a b : Word} (hmin : -2147483648 ≤ a.toInt * b.toInt / 1024)
    (hmax : a.toInt * b.toInt / 1024 ≤ 2147483647) : mulSafe Config.F a b = mulRaw Config.F a b := by
  rw [mulSafe_F, clamp_of_range hmin hmax, mulRaw_F]

/-- A negative product has factors of differing sign, which is where R143 clamps to MIN. -/
theorem not_neg_iff_neg_of_mul_neg {u v : Int} (h : u * v < 0) : ¬ (u < 0 ↔ v < 0) := by
  obtain ⟨hu, hv⟩ | ⟨hu, hv⟩ := mul_neg_iff.1 h
  · exact fun hsigns => hu.not_gt (hsigns.2 hv)
  · exact fun hsigns => hv.not_gt (hsigns.1 hu)

/-- Settles O15. -/
theorem smulClampsTheFlooredProduct : Obligations.SmulClampsTheFlooredProduct := by
  refine ⟨decodesTo_of_getElem? 22 rfl, fun a b s => ⟨_, completes_smul a b s, ?_, fun hover => ?_, fun hunder => ?_,
    fun hmin hmax => ?_⟩⟩
  · rw [mulSafe_F, toInt_s32_clamp]
  · exact neg_iff_neg_of_mul_pos (by omega)
  · exact not_neg_iff_neg_of_mul_neg (by omega)
  · rw [mulSafe_F_of_range hmin hmax]
    exact completes_mul a b s

/-! ### SMOD -/

/-- The pair MIN, -1 needs no case of its own: its truncating remainder is 0 already (R145). -/
theorem remainder_wordMin_neg_one : remainder wordMin (s32 (-1)) = 0 := by decide

theorem modSafe_eq_modRaw (a b : Word) : modSafe a b = modRaw a b := by
  by_cases hpair : a = wordMin ∧ b = s32 (-1)
  · obtain ⟨rfl, rfl⟩ := hpair
    rw [modRaw, remainder_wordMin_neg_one]
    rfl
  · rw [modSafe, if_neg hpair, modRaw]

theorem exec_smod_eq_exec_mod (a b : Word) (s : State) : exec (.smod a b) s = exec (.mod a b) s := by
  rw [exec_smod, exec_mod, modSafe_eq_modRaw]

/-- Settles O16: what R108 says of MOD carries over to SMOD. -/
theorem smodIsMod : Obligations.SmodIsMod := by
  refine ⟨decodesTo_of_getElem? 24 rfl, fun a b s => ⟨exec_smod_eq_exec_mod a b s, ?_, ?_, rfl⟩⟩
  · rw [Raises, exec_smod_eq_exec_mod]
    exact (modIsTheTruncatingRemainder.2 a b s).1
  · intro hb
    obtain ⟨v, hv, hrem, -⟩ := (modIsTheTruncatingRemainder.2 a b s).2 hb
    exact ⟨v, (exec_smod_eq_exec_mod a b s).trans hv, hrem⟩

/-! ### SABS -/

theorem absRaw_eq_s32_natAbs (a : Word) : absRaw a = s32 a.toInt.natAbs := by
  obtain ha | ha := lt_or_ge a.toInt 0
  · rw [absRaw_of_neg ha, Int.ofNat_natAbs_of_nonpos ha.le, s32_neg, s32_toInt]
  · rw [absRaw_of_nonneg ha, Int.natAbs_of_nonneg ha, s32_toInt]

theorem absSafe_of_ne_wordMin {a : Word} (ha : a ≠ wordMin) : absSafe a = absRaw a := if_neg ha

theorem absSafe_eq_s32_clamp (a : Word) : absSafe a = s32 (clamp a.toInt.natAbs) := by
  by_cases hmin : a = wordMin
  · subst hmin
    rfl
  · have hrange := toInt_range a
    have hne : a.toInt ≠ -2147483648 := fun h => hmin (word_ext h)
    rw [absSafe_of_ne_wordMin hmin, absRaw_eq_s32_natAbs, clamp_of_range (by omega) (by omega)]

/-- Settles O17. -/
theorem sabsClampsTheAbsoluteValue : Obligations.SabsClampsTheAbsoluteValue := by
  refine ⟨decodesTo_of_getElem? 25 rfl, fun a s => ⟨_, completes_sabs a s, ?_, fun ha => ?_⟩⟩
  · rw [absSafe_eq_s32_clamp, toInt_s32_clamp]
    omega
  · rw [absSafe_of_ne_wordMin ha]
    exact completes_abs a s

/-! ### Agreement with the raw commands -/

theorem addSafe_of_range {a b : Word} (hmin : -2147483648 ≤ a.toInt + b.toInt) (hmax : a.toInt + b.toInt ≤ 2147483647) :
    addSafe a b = addRaw a b := by
  rw [addSafe_eq_s32_clamp, clamp_of_range hmin hmax]
  rfl

theorem subSafe_of_range {a b : Word} (hmin : -2147483648 ≤ a.toInt - b.toInt) (hmax : a.toInt - b.toInt ≤ 2147483647) :
    subSafe a b = subRaw a b := by
  rw [subSafe_eq_s32_clamp, clamp_of_range hmin hmax]
  rfl

/-- One engine serves both divisions (R151). -/
theorem exec_sdiv_eq_exec_div (a b : Word) (s : State) : exec (.sdiv a b) s = exec (.div a b) s := by
  rw [exec_sdiv, exec_div, divSafe]

/-- Settles O18. -/
theorem safeCommandsAgreeWithRawInRange : Obligations.SafeCommandsAgreeWithRawInRange := fun a b s =>
  ⟨fun hmin hmax => exec_eq_of_completes (completes_sadd a b s) (completes_add a b s) (addSafe_of_range hmin hmax),
    fun hmin hmax => exec_eq_of_completes (completes_ssub a b s) (completes_sub a b s) (subSafe_of_range hmin hmax),
    fun hmin hmax => exec_eq_of_completes (completes_smul a b s) (completes_mul a b s) (mulSafe_F_of_range hmin hmax),
    exec_sdiv_eq_exec_div a b s⟩

end Sys2Proof.Machine
end

