-- ==== Sys2Proof/Proofs/Division.lean ====
section
/-! DIV and SDIV (R150, R151): the closed formula is the quotient of the magnitudes rounded half up, with the sign put
back or saturated by it; SDIV is the same function under its own opcode. -/

namespace Sys2Proof.Machine

/-! ### How a division ends -/

theorem raises_div_zero (a : Word) (s : State) : Raises (.div a 0) s .divideByZero :=
  raises_of_exec_finish (exec_div a 0 s) (if_pos rfl)

theorem divRaw_of_ne_zero (f : Nat) (a : Word) {b : Word} (hb : b ≠ 0) :
    divRaw f a b = .ok (quotient f a b) := if_neg hb

theorem completes_div (a : Word) {b : Word} (hb : b ≠ 0) (s : State) :
    Completes (.div a b) s (quotient Config.F a b) :=
  completes_of_exec_finish (exec_div a b s) (divRaw_of_ne_zero Config.F a hb)

/-! ### The closed formula -/

theorem magnitude_eq (a : Word) : magnitude a = a.toInt.natAbs := rfl

theorem magnitude_pos {b : Word} (hb : b ≠ 0) : 0 < magnitude b := Int.natAbs_pos.2 (toInt_ne_zero hb)

/-- The magnitude m of R150, before the range test and the sign. -/
def roundedMagnitude (f : Nat) (a b : Word) : Nat := (magnitude a * 2 ^ (f + 1) / magnitude b + 1) / 2

/-- Saturation by sign, or the sign put back (the last two lines of R150). -/
def signedOrSaturated (neg : Bool) (m : Nat) : Word :=
  if maxInt < (m : Int) then saturated neg else s32 (if neg then -(m : Int) else m)

theorem quotient_eq (f : Nat) (a b : Word) :
    quotient f a b = signedOrSaturated (isNeg a != isNeg b) (roundedMagnitude f a b) := rfl

theorem signedOrSaturated_of_gt (neg : Bool) {m : Nat} (h : 2147483647 < m) :
    signedOrSaturated neg m = saturated neg := if_pos (by rw [maxInt]; omega)

theorem toInt_signedOrSaturated (neg : Bool) {m : Nat} (h : m ≤ 2147483647) :
    (signedOrSaturated neg m).toInt = if neg then -(m : Int) else m := by
  rw [signedOrSaturated, if_neg (by rw [maxInt]; omega)]
  exact toInt_s32_of_range (by split <;> omega)

/-- Dropping the headroom bit after adding 1 to it rounds the exact quotient half up (R150). -/
theorem roundedMagnitude_eq (f : Nat) (a : Word) {b : Word} (hb : b ≠ 0) :
    roundedMagnitude f a b =
      (2 * (a.toInt.natAbs * 2 ^ f) + b.toInt.natAbs) / (2 * b.toInt.natAbs) := by
  have hscaled : magnitude a * 2 ^ (f + 1) = 2 * (a.toInt.natAbs * 2 ^ f) := by
    rw [magnitude_eq, Nat.pow_succ]
    ring
  rw [roundedMagnitude, hscaled, ← Nat.add_div_right _ (magnitude_pos hb), Nat.div_div_eq_div_mul, magnitude_eq,
    Nat.mul_comm _ 2]

/-- The sign of R150 is negative exactly where the operands' signs differ. -/
theorem bne_isNeg_iff (a b : Word) : (isNeg a != isNeg b) = true ↔ ¬ (a.toInt < 0 ↔ b.toInt < 0) := by
  rw [bne_iff_ne, ne_eq, isNeg_eq_isNeg_iff]

/-- A choice by the sign of R150, as a choice by the operands' signs. -/
theorem ite_bne_isNeg {α : Type} (a b : Word) (x y : α) :
    (if isNeg a != isNeg b then x else y) = if a.toInt < 0 ↔ b.toInt < 0 then y else x := by
  rw [if_congr (bne_isNeg_iff a b) rfl rfl, ite_not]

/-- Settles O19. -/
theorem divRoundsHalfAwayAndSaturates : Obligations.DivRoundsHalfAwayAndSaturates := by
  refine ⟨decodesTo_of_getElem? 3 rfl, fun a b s => ⟨?_, fun hb => ⟨_, completes_div a hb s, ?_⟩⟩⟩
  · rintro rfl
    exact raises_div_zero a s
  · have hm := roundedMagnitude_eq Config.F a hb
    rw [show 2 ^ Config.F = 1024 from rfl] at hm
    rw [quotient_eq, ← hm]
    by_cases hlarge : 2147483647 < roundedMagnitude Config.F a b
    · rw [if_pos hlarge, signedOrSaturated_of_gt _ hlarge, saturated, ite_bne_isNeg]
      rfl
    · rw [if_neg hlarge, toInt_signedOrSaturated _ (Nat.le_of_not_lt hlarge), ite_bne_isNeg]

/-- Settles O20: what R150 says of DIV carries over to SDIV. -/
theorem sdivIsDiv : Obligations.SdivIsDiv := by
  refine ⟨decodesTo_of_getElem? 23 rfl, fun a b s => ⟨exec_sdiv_eq_exec_div a b s, ?_, fun hb => ?_⟩⟩
  · rintro rfl
    exact (exec_sdiv_eq_exec_div a 0 s).trans (raises_div_zero a s)
  · exact ⟨_, (exec_sdiv_eq_exec_div a b s).trans (completes_div a hb s), completes_div a hb s⟩

end Sys2Proof.Machine
end

