-- ==== Sys2Proof/Proofs/DivisionEngine.lean ====
section
/-! The long-division engine (R152 to R157): the leading-zero count, the restoring divide step, the reduction of the
divisor, and the digit loop, which together compute the closed formula of R150 for every legal F. -/

namespace Sys2Proof.Machine

/-! ### The leading-zero count (R153) -/

/-- Masking the upper bits of a word from bit `k` up tests whether the word is below 2^k. -/
theorem and_upper_mask_eq_zero_iff {x k : Nat} (hx : x < 2 ^ 32) (hk : k ≤ 32) :
    x &&& ((2 ^ (32 - k) - 1) <<< k) = 0 ↔ x < 2 ^ k := by
  have hupper : x >>> k &&& (2 ^ (32 - k) - 1) = x / 2 ^ k := by
    rw [Nat.and_two_pow_sub_one_eq_mod, Nat.shiftRight_eq_div_pow]
    refine Nat.mod_eq_of_lt (Nat.div_lt_of_lt_mul ?_)
    rwa [← Nat.pow_add, Nat.add_sub_cancel' hk]
  have hsplit : x &&& ((2 ^ (32 - k) - 1) <<< k) = (x / 2 ^ k) <<< k := by
    rw [← hupper]
    apply Nat.eq_of_testBit_eq
    intro i
    by_cases hi : k ≤ i
    · simp [Nat.testBit_shiftLeft, hi, Bool.and_comm]
    · simp [Nat.testBit_shiftLeft, hi]
  rw [hsplit, Nat.shiftLeft_eq, Nat.mul_eq_zero, Nat.div_eq_zero_iff]
  have hpos := Nat.two_pow_pos k
  omega

theorem and_top_four_bits_eq_zero_iff {x : Nat} (hx : x < 2 ^ 32) : x &&& 0xF0000000 = 0 ↔ x < 2 ^ 28 :=
  and_upper_mask_eq_zero_iff (k := 28) hx (by norm_num)

theorem and_top_bit_eq_zero_iff {x : Nat} (hx : x < 2 ^ 32) : x &&& 0x80000000 = 0 ↔ x < 2 ^ 31 :=
  and_upper_mask_eq_zero_iff (k := 31) hx (by norm_num)

theorem u32_of_lt {v : Nat} (h : v < 2 ^ 32) : u32 v = v := Nat.mod_eq_of_lt h

/-- The four-bit loop shifts the highest one bit into the upper four bits, by a multiple of four. -/
theorem clzFours_eq {fuel x : Nat} (n : Nat) (hx : x < 2 ^ 32) (hfuel : 2 ^ 28 ≤ x * 2 ^ (4 * fuel)) :
    ∃ k, clzFours fuel n x = (n + k, x * 2 ^ k) ∧ 2 ^ 28 ≤ x * 2 ^ k ∧ x * 2 ^ k < 2 ^ 32 := by
  induction fuel generalizing n x with
  | zero => exact ⟨0, by simp [clzFours], by simpa using hfuel, by simpa using hx⟩
  | succ fuel ih =>
    rw [clzFours]
    by_cases hlow : x < 2 ^ 28
    · have hshift : shl x 4 = x * 2 ^ 4 := u32_of_lt (by omega)
      have hnext : 2 ^ 28 ≤ x * 2 ^ 4 * 2 ^ (4 * fuel) := by
        rwa [Nat.mul_assoc, ← Nat.pow_add, Nat.add_comm 4, ← Nat.mul_succ]
      obtain ⟨k, heq, hge, hlt⟩ := ih (n + 4) (by omega) hnext
      have hpow : x * 2 ^ 4 * 2 ^ k = x * 2 ^ (4 + k) := by rw [Nat.mul_assoc, ← Nat.pow_add]
      rw [hpow] at heq hge hlt
      rw [if_pos ((and_top_four_bits_eq_zero_iff hx).2 hlow), hshift, heq]
      exact ⟨4 + k, by rw [Nat.add_assoc], hge, hlt⟩
    · rw [if_neg fun h => hlow ((and_top_four_bits_eq_zero_iff hx).1 h)]
      exact ⟨0, by simp, by omega, by omega⟩

/-- The one-bit loop shifts the highest one bit into bit 31. -/
theorem clzOnes_eq {fuel x : Nat} (n : Nat) (hx : x < 2 ^ 32) (hfuel : 2 ^ 31 ≤ x * 2 ^ fuel) :
    ∃ k, clzOnes fuel n x = n + k ∧ 2 ^ 31 ≤ x * 2 ^ k ∧ x * 2 ^ k < 2 ^ 32 := by
  induction fuel generalizing n x with
  | zero => exact ⟨0, rfl, hfuel, by simpa using hx⟩
  | succ fuel ih =>
    rw [clzOnes]
    by_cases hlow : x < 2 ^ 31
    · have hshift : shl x 1 = x * 2 := u32_of_lt (by omega)
      have hnext : 2 ^ 31 ≤ x * 2 * 2 ^ fuel := by rwa [Nat.mul_assoc, ← Nat.pow_succ']
      obtain ⟨k, heq, hge, hlt⟩ := ih (n + 1) (by omega) hnext
      have hpow : x * 2 * 2 ^ k = x * 2 ^ (k + 1) := by rw [Nat.mul_assoc, ← Nat.pow_succ']
      rw [hpow] at hge hlt
      rw [if_pos ((and_top_bit_eq_zero_iff hx).2 hlow), hshift, heq]
      exact ⟨k + 1, by omega, hge, hlt⟩
    · rw [if_neg fun h => hlow ((and_top_bit_eq_zero_iff hx).1 h)]
      exact ⟨0, rfl, by omega, by omega⟩

/-- Shifting by the count brings the highest one bit to bit 31: after the four-bit loop at most three bits remain. -/
theorem clz32_shift_range {x : Nat} (hpos : 0 < x) (hx : x < 2 ^ 32) :
    2 ^ 31 ≤ x * 2 ^ clz32 x ∧ x * 2 ^ clz32 x < 2 ^ 32 := by
  obtain ⟨k, hfours, hge, hlt⟩ := clzFours_eq (fuel := 8) 0 hx (by omega)
  obtain ⟨j, hones, htop⟩ := clzOnes_eq (fuel := 4) (0 + k) hlt (by omega)
  have hclz : clz32 x = k + j := by rw [clz32, hfours, hones, Nat.zero_add]
  rwa [hclz, Nat.pow_add, ← Nat.mul_assoc]

/-- Settles O22. -/
theorem leadingZeroCountIsRight : Obligations.LeadingZeroCountIsRight := by
  intro x hpos hx
  obtain ⟨hge, hlt⟩ := clz32_shift_range hpos hx
  have hpow : 2 ^ clz32 x < 2 ^ 32 := (Nat.le_mul_of_pos_left _ hpos).trans_lt hlt
  have hclz := (Nat.pow_lt_pow_iff_right (by norm_num)).1 hpow
  exact ⟨by omega, hge, hlt⟩

/-! ### The restoring divide step (R154) -/

/-- With `i` dividend bits to come the divider holds the division of all bits read so far, partial remainder `rem`
below the divisor; the rest is the division of `rem` followed by those bits. -/
theorem restoringBits_eq (x : Nat) {dv : Nat} (i : Nat) {rem : Nat} (q : Nat) (hrem : rem < dv) :
    restoringBits x dv i rem q =
      ((rem * 2 ^ i + x % 2 ^ i) % dv, q * 2 ^ i + (rem * 2 ^ i + x % 2 ^ i) / dv) := by
  induction i generalizing rem q with
  | zero => simp [restoringBits, Nat.mod_one, Nat.mod_eq_of_lt hrem, Nat.div_eq_of_lt hrem]
  | succ i ih =>
    have hbits : rem * 2 ^ (i + 1) + x % 2 ^ (i + 1) = (2 * rem + x / 2 ^ i % 2) * 2 ^ i + x % 2 ^ i := by
      rw [Nat.mod_pow_succ, Nat.pow_succ]
      ring
    have hdouble : 2 * rem + x / 2 ^ i % 2 < 2 * dv := by
      have hbit : x / 2 ^ i % 2 < 2 := Nat.mod_lt _ (by norm_num)
      omega
    rw [hbits]
    simp only [restoringBits]
    generalize 2 * rem + x / 2 ^ i % 2 = rem', x % 2 ^ i = low at *
    split
    next hlt =>
      rw [ih _ hlt, Nat.pow_succ]
      congr 2
      ring
    next hge =>
      obtain ⟨r, rfl⟩ := Nat.exists_eq_add_of_le (Nat.le_of_not_lt hge)
      have hkept : (dv + r) * 2 ^ i + low = r * 2 ^ i + low + dv * 2 ^ i := by ring
      have hr : r < dv := by omega
      rw [Nat.add_sub_cancel_left, ih _ hr, hkept, Nat.add_mul_mod_self_left,
        Nat.add_mul_div_left _ _ (by omega), Nat.pow_succ]
      congr 1
      ring

/-- Settles O23. -/
theorem restoringStepDividesExactly : Obligations.RestoringStepDividesExactly := by
  intro x dv hx hdv
  rw [restoringDivide, restoringBits_eq x 32 0 hdv, Nat.mod_eq_of_lt hx]
  simp

/-! ### The reduction of the divisor (R156 (1)) -/

/-- Dropping four zero bits of the divisor and four positions leaves the quotient: both sides lose a factor 16. -/
theorem mul_two_pow_div_drop_four (rem dv pos : Nat) : rem * 2 ^ (pos + 4) / (dv * 2 ^ 4) = rem * 2 ^ pos / dv := by
  rw [Nat.pow_add, ← Nat.mul_assoc, Nat.mul_div_mul_right _ _ (by norm_num)]

/-- However many passes the reduction makes, the divisor stays positive and within its register, the position does not
rise, and the quotient is the same. -/
theorem reduceDivisor_spec (rem fuel : Nat) {dv pos : Nat} (hpos : 0 < dv) (hdv : dv ≤ 2 ^ 31) :
    0 < (reduceDivisor fuel dv pos).1 ∧ (reduceDivisor fuel dv pos).1 ≤ 2 ^ 31 ∧ (reduceDivisor fuel dv pos).2 ≤ pos ∧
      rem * 2 ^ (reduceDivisor fuel dv pos).2 / (reduceDivisor fuel dv pos).1 = rem * 2 ^ pos / dv := by
  induction fuel generalizing dv pos with
  | zero => exact ⟨hpos, hdv, le_rfl, rfl⟩
  | succ fuel ih =>
    rw [reduceDivisor]
    split
    next hdrop =>
      obtain ⟨hmask, hfour⟩ := hdrop
      have hzero : dv % 2 ^ 4 = 0 := by rwa [← Nat.and_two_pow_sub_one_eq_mod]
      have hlsr : lsr dv 4 = dv / 2 ^ 4 := by rw [lsr, u32_of_lt (by omega)]
      obtain ⟨d, rfl⟩ := Nat.dvd_of_mod_eq_zero hzero
      obtain ⟨p, rfl⟩ := Nat.exists_eq_add_of_le' hfour
      rw [hlsr, Nat.mul_div_cancel_left _ (by norm_num), Nat.add_sub_cancel, Nat.mul_comm (2 ^ 4) d,
        mul_two_pow_div_drop_four]
      obtain ⟨hpos', hdv', hle, hquot⟩ := ih (dv := d) (pos := p) (by omega) (by omega)
      exact ⟨hpos', hdv', by omega, hquot⟩
    next => exact ⟨hpos, hdv, le_rfl, rfl⟩

/-! ### The digit loop (R156 (2) and (3)) -/

/-- Shifting the remainder left by `sh` of the `k` positions and dividing gives the upper bits of the quotient to
come. -/
theorem shifted_div_eq (rem dv : Nat) {sh k : Nat} (hsh : sh ≤ k) :
    rem * 2 ^ sh / dv = rem * 2 ^ k / dv / 2 ^ (k - sh) := by
  rw [Nat.div_div_eq_div_mul, ← Nat.mul_div_mul_right _ dv (Nat.two_pow_pos (k - sh)), Nat.mul_assoc, ← Nat.pow_add,
    Nat.add_sub_cancel' hsh]

/-- The quotient to come is the digit at its position and the quotient that the digit's remainder leaves. -/
theorem mul_two_pow_div_split (rem : Nat) {dv sh k : Nat} (hdv : 0 < dv) (hsh : sh ≤ k) :
    rem * 2 ^ k / dv = rem * 2 ^ sh / dv * 2 ^ (k - sh) + rem * 2 ^ sh % dv * 2 ^ (k - sh) / dv := by
  have hscaled : rem * 2 ^ k = rem * 2 ^ sh * 2 ^ (k - sh) := by
    rw [Nat.mul_assoc, ← Nat.pow_add, Nat.add_sub_cancel' hsh]
  rw [hscaled]
  generalize rem * 2 ^ sh = x, 2 ^ (k - sh) = w
  have hdigit : x * w = x % dv * w + dv * (x / dv * w) := by
    conv_lhs => rw [← Nat.mod_add_div x dv]
    ring
  rw [hdigit, Nat.add_mul_div_left _ _ hdv, Nat.add_comm]

/-- The exit test, a digit wider than the 32 - p free bits, sees whether the quotient to come leaves 32 bits. -/
theorem digit_overflows_iff {q p : Nat} (hp : p ≤ 32) : q / 2 ^ p / 2 ^ (32 - p) ≠ 0 ↔ 2 ^ 32 ≤ q := by
  rw [Nat.div_div_eq_div_mul, ← Nat.pow_add, Nat.add_sub_cancel' hp, Nat.div_ne_zero_iff]
  exact ⟨fun h => h.2, fun h => ⟨by norm_num, h⟩⟩

/-- What one pass does at position `k`, with the remainder not zero: it exits exactly when the quotient to come leaves
32 bits; otherwise it splits off that quotient's digit `d` at a position `p` and goes on with twice the remainder `r`
of the digit. -/
theorem digitLoop_pass {dv rem k : Nat} (fuel quo : Nat) (hdv : 0 < dv) (hdv31 : dv ≤ 2 ^ 31) (hpos : 0 < rem)
    (hrem : rem < 2 ^ 32) (hk : k ≤ 32) :
    ∃ p d r, p ≤ k ∧ r < dv ∧ rem * 2 ^ k / dv = d * 2 ^ p + r * 2 ^ p / dv ∧
      digitLoop dv (fuel + 1) rem quo k =
        if 2 ^ 32 ≤ rem * 2 ^ k / dv then none
        else digitLoop dv fuel (2 * r) ((quo + d * 2 ^ p) % 2 ^ 33) ((p : Int) - 1) := by
  obtain ⟨sh, hsh⟩ : ∃ sh, sh = min (clz32 rem) k := ⟨_, rfl⟩
  have hshk : sh ≤ k := hsh ▸ Nat.min_le_right _ _
  have hfits : rem * 2 ^ sh < 2 ^ 32 := by
    have hle : sh ≤ clz32 rem := hsh ▸ Nat.min_le_left _ _
    obtain ⟨-, hlt⟩ := clz32_shift_range hpos hrem
    exact (Nat.mul_le_mul_left rem (Nat.pow_le_pow_right (by norm_num) hle)).trans_lt hlt
  have hmod := Nat.mod_lt (rem * 2 ^ sh) hdv
  have hdouble : u32 (rem * 2 ^ sh % dv * 2) = 2 * (rem * 2 ^ sh % dv) := by
    rw [u32_of_lt (by omega), Nat.mul_comm]
  have hexit : rem * 2 ^ sh / dv / 2 ^ (32 - (k - sh)) ≠ 0 ↔ 2 ^ 32 ≤ rem * 2 ^ k / dv := by
    rw [shifted_div_eq rem dv hshk]
    exact digit_overflows_iff (by omega)
  have hgo : ¬ (rem = 0 ∨ (k : Int) < 0) := by omega
  refine ⟨k - sh, rem * 2 ^ sh / dv, rem * 2 ^ sh % dv, Nat.sub_le k sh, hmod, mul_two_pow_div_split rem hdv hshk, ?_⟩
  rw [digitLoop, if_neg hgo]
  simp only [Int.toNat_natCast, ← hsh, u32_of_lt hfits, restoringStepDividesExactly _ dv hfits hdv, hdouble]
  exact if_congr hexit rfl rfl

/-- The factor 2 by which a pass leaves the remainder doubled cancels against a divisor doubled. -/
theorem two_mul_mul_div_two_mul (r w dv : Nat) : 2 * r * w / (2 * dv) = r * w / dv := by
  rw [Nat.mul_assoc, Nat.mul_div_mul_left _ _ (by norm_num)]

theorem mul_two_pow_succ_div_two_mul (r k dv : Nat) : r * 2 ^ (k + 1) / (2 * dv) = r * 2 ^ k / dv := by
  rw [Nat.pow_succ, ← Nat.mul_assoc, Nat.mul_comm 2 dv, Nat.mul_div_mul_right _ _ (by norm_num)]

/-- The loop between passes, at position `n - 1` with the remainder below twice the divisor: where accumulator and
quotient to come stay within 32 bits together, no later digit is too wide and the loop ends with their sum. -/
theorem digitLoop_eq_some {dv : Nat} (hdv : 0 < dv) (hdv31 : dv ≤ 2 ^ 31) {fuel n rem quo : Nat} (hfuel : n ≤ fuel)
    (hn : n ≤ 32) (hrem : rem < 2 * dv) (htotal : quo + rem * 2 ^ n / (2 * dv) < 2 ^ 32) :
    digitLoop dv fuel rem quo ((n : Int) - 1) = some (quo + rem * 2 ^ n / (2 * dv)) := by
  induction fuel generalizing n rem quo with
  | zero =>
    obtain rfl : n = 0 := by omega
    simp [digitLoop, Nat.div_eq_of_lt hrem]
  | succ fuel ih =>
    obtain rfl | hpos := Nat.eq_zero_or_pos rem
    · simp [digitLoop]
    · cases n with
      | zero => simp [digitLoop, Nat.div_eq_of_lt hrem]
      | succ k =>
        obtain ⟨p, d, r, hpk, hr, hsplit, hpass⟩ :=
          digitLoop_pass (k := k) fuel quo hdv hdv31 hpos (by omega) (by omega)
        rw [mul_two_pow_succ_div_two_mul] at htotal ⊢
        have hrest : quo + d * 2 ^ p + 2 * r * 2 ^ p / (2 * dv) = quo + rem * 2 ^ k / dv := by
          rw [two_mul_mul_div_two_mul, hsplit, Nat.add_assoc]
        have hdigit : d * 2 ^ p ≤ rem * 2 ^ k / dv := hsplit ▸ Nat.le_add_right _ _
        have hposition : ((k + 1 : Nat) : Int) - 1 = k := by omega
        rw [hposition, hpass, if_neg (by omega), Nat.mod_eq_of_lt (by omega),
          ih (by omega) (by omega) (by omega) (by omega), hrest]

/-- The whole loop: only the first digit can be too wide, and it is exactly when the quotient needs more than 32 bits;
otherwise the loop ends with the quotient. -/
theorem digitLoop_eq {dv rem k fuel : Nat} (hdv : 0 < dv) (hdv31 : dv ≤ 2 ^ 31) (hrem : rem < 2 ^ 32) (hk : k ≤ 32)
    (hfuel : k ≤ fuel) :
    digitLoop dv (fuel + 1) rem 0 k = if 2 ^ 32 ≤ rem * 2 ^ k / dv then none else some (rem * 2 ^ k / dv) := by
  obtain rfl | hpos := Nat.eq_zero_or_pos rem
  · simp [digitLoop]
  · obtain ⟨p, d, r, hpk, hr, hsplit, hpass⟩ := digitLoop_pass fuel 0 hdv hdv31 hpos hrem hk
    rw [hpass]
    split
    next => rfl
    next hfits =>
      have hrest : d * 2 ^ p + 2 * r * 2 ^ p / (2 * dv) = rem * 2 ^ k / dv := by
        rw [two_mul_mul_div_two_mul, hsplit]
      have hdigit : d * 2 ^ p ≤ rem * 2 ^ k / dv := hsplit ▸ Nat.le_add_right _ _
      rw [Nat.zero_add, Nat.mod_eq_of_lt (by omega),
        digitLoop_eq_some hdv hdv31 (by omega) (by omega) (by omega) (by omega), hrest]

/-! ### The engine (R152) -/

/-- The magnitude registers: negating the pattern of a negative operand gives its magnitude, MIN's included (R155). -/
theorem zext32_magnitude (a : Word) : zext32 (if isNeg a then negRaw a else a) = magnitude a := by
  have hpattern : (if isNeg a then negRaw a else a) = s32 (magnitude a) := by
    rw [magnitude_eq, if_congr (isNeg_iff a) rfl rfl]
    split
    next hneg => rw [negRaw, sext32_eq, Int.ofNat_natAbs_of_nonpos hneg.le]
    next hnonneg => rw [Int.natAbs_of_nonneg (Int.not_lt.1 hnonneg), s32_toInt]
  have hle := magnitude_le a
  rw [hpattern, zext32_eq, toNat_s32_of_range (by omega)]

theorem isNeg_eq_msb (x : Word) : isNeg x = x.msb := x.msb_eq_toInt.symm

/-- The top bit of the operands' exclusive or is the sign of R150. -/
theorem xor_sign_bit (a b : Word) : ((a ^^^ b) &&& 0x80000000 != 0) = (isNeg a != isNeg b) := by
  have hbit (x : Word) : (x &&& 0x80000000 != 0) = x.msb := by
    rw [show (0x80000000 : Word) = BitVec.twoPow 32 31 from rfl, BitVec.and_twoPow, BitVec.msb_eq_getLsbD_last]
    cases x.getLsbD (32 - 1) <;> rfl
  rw [hbit, BitVec.msb_xor, isNeg_eq_msb, isNeg_eq_msb]

/-- Settles O21: the reduction keeps the quotient, the digit loop computes it, and its exit is one of the formula's
saturations, because a quotient of more than 32 bits rounds to a magnitude above MAX (R156). -/
theorem divisionEngineComputesTheFormula : Obligations.DivisionEngineComputesTheFormula := by
  intro f hlegal a b
  have hf := le_of_legalFracBits hlegal
  obtain ⟨rfl, hraise⟩ | ⟨hb, hok⟩ := divRaw_cases f a b
  · rw [hraise]
    exact if_pos rfl
  · obtain ⟨hdv, hdv31, hle, hquot⟩ :=
      reduceDivisor_spec (magnitude a) ((f + 1) / 4) (pos := f + 1) (magnitude_pos hb) (magnitude_le b)
    have hrem := magnitude_le a
    have hloop := digitLoop_eq (fuel := f + 1) hdv hdv31 (rem := magnitude a) (by omega) (by omega) hle
    rw [hquot] at hloop
    rw [hok, quotient_eq, divEngine, if_neg hb]
    simp only [xor_sign_bit, zext32_magnitude, hloop]
    by_cases hlarge : 2 ^ 32 ≤ magnitude a * 2 ^ (f + 1) / magnitude b
    · rw [if_pos hlarge, signedOrSaturated_of_gt]
      rw [roundedMagnitude]
      omega
    · rw [if_neg hlarge]
      exact (apply_ite Except.ok _ _ _).symm

end Sys2Proof.Machine
end

