-- ==== Sys2Proof/Proofs/SquareRoot.lean ====
section
/-! SQRT (R165): the bit-by-bit integer root of the closed formula is the floored root, and its rounding is the nearest
raw store. -/

namespace Sys2Proof.Machine

/-! ### How SQRT ends -/

theorem exec_sqrt (a : Word) (s : State) : exec (.sqrt a) s = .next (s.finish (sqrtRaw Config.F a)) := rfl

theorem sqrtRaw_of_neg (f : Nat) {a : Word} (ha : a.toInt < 0) : sqrtRaw f a = .error .domainError := if_pos ha

theorem sqrtRaw_of_nonneg (f : Nat) {a : Word} (ha : 0 ≤ a.toInt) :
    sqrtRaw f a = .ok (s32 (rootNearest f a.toNat)) := if_neg (Int.not_lt.2 ha)

/-- A raw store that is not negative reads the same unsigned as signed (R100). -/
theorem toNat_of_nonneg {a : Word} (ha : 0 ≤ a.toInt) : (a.toNat : Int) = a.toInt := by
  have hrange := toInt_range a
  calc (a.toNat : Int) = a.toInt % 2 ^ 32 := by rw [← toNat_s32, s32_toInt]
    _ = a.toInt := Int.emod_eq_of_lt ha (by omega)

/-! ### The integer root -/

/-- With `k` bits to come and the root between `r` and `r + 2^k`, those bits complete `r` to the floored root. -/
theorem isqrtBits_eq_sqrt {n k r : Nat} (hle : r * r ≤ n) (hlt : n < (r + 2 ^ k) * (r + 2 ^ k)) :
    isqrtBits n k r = Nat.sqrt n := by
  induction k generalizing r with
  | zero => exact Nat.eq_sqrt.2 ⟨hle, hlt⟩
  | succ k ih =>
    rw [isqrtBits]
    split
    next hset =>
      refine ih hset ?_
      rwa [Nat.add_assoc, ← Nat.two_mul, ← Nat.pow_succ']
    next hclear => exact ih hle (Nat.lt_of_not_le hclear)

/-- `isqrt` is the integer root up to its 24 bits (R165). -/
theorem isqrt_eq_sqrt {n : Nat} (hn : n < 2 ^ 48) : isqrt n = Nat.sqrt n :=
  isqrtBits_eq_sqrt (Nat.zero_le n) (by omega)

/-- A legal radicand a·2^F stays within those bits. -/
theorem radicand_lt {f n : Nat} (hf : f ≤ 16) (hn : n < 2 ^ 31) : n * 2 ^ f < 2 ^ 48 :=
  calc n * 2 ^ f < 2 ^ 31 * 2 ^ f := Nat.mul_lt_mul_of_pos_right hn (Nat.two_pow_pos f)
    _ ≤ 2 ^ 31 * 2 ^ 16 := Nat.mul_le_mul_left _ (Nat.pow_le_pow_right (by norm_num) hf)
    _ < 2 ^ 48 := by norm_num

/-! ### Rounding to nearest -/

/-- The rounded root v of m is nearest: (v - 1/2)^2 < m < (v + 1/2)^2, in whole numbers (R165). -/
theorem rootNearest_spec {f n : Nat} (hm : n * 2 ^ f < 2 ^ 48) :
    n * 2 ^ f ≤ rootNearest f n * rootNearest f n + rootNearest f n ∧
      (rootNearest f n = 0 ∨ rootNearest f n * rootNearest f n < n * 2 ^ f + rootNearest f n) := by
  rw [rootNearest, isqrt_eq_sqrt hm]
  generalize n * 2 ^ f = m
  have hle := Nat.sqrt_le m
  have hadd := Nat.sqrt_le_add m
  generalize Nat.sqrt m = r at hle hadd
  have hsucc : (r + 1) * (r + 1) = r * r + r + r + 1 := by ring
  split
  next hup => omega
  next hdown => omega

/-- A rounded root fits its register. -/
theorem rootNearest_lt {f n : Nat} (hm : n * 2 ^ f < 2 ^ 48) : rootNearest f n < 2 ^ 32 := by
  have hroot : Nat.sqrt (n * 2 ^ f) < 2 ^ 24 := Nat.sqrt_lt.2 (by omega)
  rw [rootNearest, isqrt_eq_sqrt hm]
  split <;> omega

/-- At F = 10 no rounded root exceeds that of MAX (R165). -/
theorem rootNearest_F_le {n : Nat} (hn : n < 2 ^ 31) : rootNearest Config.F n ≤ 1482910 := by
  obtain ⟨-, hnear⟩ := rootNearest_spec (f := Config.F) (n := n) (by rw [Config.F]; omega)
  rw [show 2 ^ Config.F = 1024 from rfl] at hnear
  generalize rootNearest Config.F n = v at hnear
  by_contra hlarge
  have hprod : 1482910 * v ≤ (v - 1) * v := Nat.mul_le_mul_right v (by omega)
  rw [Nat.sub_mul] at hprod
  omega

theorem completes_sqrt {a : Word} (ha : 0 ≤ a.toInt) (s : State) :
    Completes (.sqrt a) s (s32 (rootNearest Config.F a.toNat)) :=
  completes_of_exec_finish (exec_sqrt a s) (sqrtRaw_of_nonneg Config.F ha)

/-- Settles O24. -/
theorem sqrtRoundsToNearest : Obligations.SqrtRoundsToNearest := by
  refine ⟨decodesTo_of_getElem? 26 rfl, fun a s => ⟨fun ha => ?_, fun ha => ⟨_, completes_sqrt ha s, ?_⟩⟩⟩
  · exact raises_of_exec_finish (exec_sqrt a s) (sqrtRaw_of_neg Config.F ha)
  · have hrange := toInt_range a
    have hread := toNat_of_nonneg ha
    have hmax := rootNearest_F_le (n := a.toNat) (by omega)
    obtain ⟨habove, hbelow⟩ := rootNearest_spec (f := Config.F) (n := a.toNat) (by rw [Config.F]; omega)
    rw [show 2 ^ Config.F = 1024 from rfl] at habove hbelow
    generalize rootNearest Config.F a.toNat = v at *
    rw [toInt_s32_of_range (by omega), ← hread]
    refine ⟨by omega, by omega, by exact_mod_cast habove, hbelow.imp (fun hzero => by rw [hzero]; rfl) fun hlt => ?_⟩
    have hlt' : (v * v : Int) < a.toNat * 1024 + v := by exact_mod_cast hlt
    omega

end Sys2Proof.Machine
end

