-- ==== Sys2Proof/Proofs/SquareRootProcedure.lean ====
section
/-! The digit-by-digit square root (R166 to R169): the registers of a pass hold the radicand less the square of the root
found, and that root shifted left, so a pass extracts the bits of the integer root; the shift by F between the passes
and its correction term keep that form, of the scaled radicand. -/

namespace Sys2Proof.Machine

/-- The register `bit` with `k` root bits to come: 4^(k-1), and 0 when none is left (R166). -/
def digitBit (k : Nat) : Nat := 4 ^ k / 4

@[simp] theorem digitBit_zero : digitBit 0 = 0 := rfl

@[simp] theorem digitBit_succ (k : Nat) : digitBit (k + 1) = 4 ^ k := by
  rw [digitBit, Nat.pow_succ, Nat.mul_div_cancel _ (by norm_num)]

theorem four_pow_eq_mul_self (k : Nat) : 4 ^ k = 2 ^ k * 2 ^ k := Nat.mul_pow 2 2 k

theorem four_pow_le {k : Nat} (hk : k < 16) : 4 ^ k ≤ 2 ^ 30 :=
  (Nat.pow_le_pow_right (by norm_num) (Nat.le_of_lt_succ hk)).trans_eq rfl

theorem lsr_of_lt {v : Nat} (h : v < 2 ^ 32) (n : Nat) : lsr v n = v / 2 ^ n := by rw [lsr, u32_of_lt h]

theorem lsr_digitBit {k : Nat} (hk : k < 16) : lsr (4 ^ k) 2 = digitBit k :=
  lsr_of_lt ((four_pow_le hk).trans_lt (by norm_num)) 2

/-! ### The two loops (R166) -/

/-- The skipping loop stops at as many digits as the radicand has. -/
theorem skipBits_eq {num k : Nat} (hk : k ≤ 16) (hnum : num < 4 ^ k) :
    ∃ j ≤ k, num < 4 ^ j ∧ skipBits num k (digitBit k) = digitBit j := by
  induction k with
  | zero => exact ⟨0, le_rfl, hnum, rfl⟩
  | succ k ih =>
    rw [skipBits, digitBit_succ, lsr_digitBit (by omega)]
    by_cases hskip : num < 4 ^ k
    · obtain ⟨j, hj, hlt, heq⟩ := ih (by omega) hskip
      exact ⟨j, by omega, hlt, by rw [if_pos hskip, heq]⟩
    · exact ⟨k + 1, le_rfl, hnum, by rw [if_neg hskip, digitBit_succ]⟩

/-- The invariant of the digit loop (R168): with root `p` found and `k` bits to come, `num` is the radicand less p^2 and
`res` is p·2^k. The loop ends with the completed root in `res` and its remainder in `num`. -/
theorem rootDigits_eq {n k fuel p : Nat} (hk : k ≤ 16) (hfuel : k ≤ fuel) (hp : p * p ≤ n) (hres : p * 2 ^ k < 2 ^ 32) :
    rootDigits fuel (n - p * p) (p * 2 ^ k) (digitBit k) =
      (n - isqrtBits n k p * isqrtBits n k p, isqrtBits n k p) := by
  induction k generalizing fuel p with
  | zero => cases fuel <;> simp [rootDigits, isqrtBits]
  | succ k ih =>
    obtain ⟨fuel, rfl⟩ := Nat.exists_eq_add_of_le' (Nat.one_le_of_lt hfuel)
    have hbit := four_pow_le (k := k) (by omega)
    have hhalf : p * 2 ^ (k + 1) = p * 2 ^ k * 2 := by rw [Nat.pow_succ, Nat.mul_assoc]
    have hlsr : lsr (p * 2 ^ (k + 1)) 1 = p * 2 ^ k := by
      rw [lsr_of_lt hres, hhalf, Nat.pow_one, Nat.mul_div_cancel _ (by norm_num)]
    have hset : p * 2 ^ k + 4 ^ k = (p + 2 ^ k) * 2 ^ k := by rw [four_pow_eq_mul_self, Nat.add_mul]
    have hsquare : (p + 2 ^ k) * (p + 2 ^ k) = p * p + (p * 2 ^ (k + 1) + 4 ^ k) := by
      rw [four_pow_eq_mul_self, hhalf]
      ring
    have htest : p * 2 ^ (k + 1) + 4 ^ k ≤ n - p * p ↔ (p + 2 ^ k) * (p + 2 ^ k) ≤ n := by omega
    rw [rootDigits, digitBit_succ, if_neg (by positivity), lsr_digitBit (by omega), hlsr, hset, Nat.sub_sub, ← hsquare,
      isqrtBits, if_congr htest rfl rfl]
    split
    next hfits => exact ih (by omega) (by omega) hfits (by omega)
    next => exact ih (by omega) (by omega) hp (by omega)

/-- The first pass (R166): the integer root of the raw store and its remainder. -/
theorem firstPass_eq {n : Nat} (hn : n < 2 ^ 32) :
    rootDigits 16 n 0 (skipBits n 16 (2 ^ 30)) = (n - Nat.sqrt n * Nat.sqrt n, Nat.sqrt n) := by
  obtain ⟨j, hj, hlt, hskip⟩ := skipBits_eq (num := n) (k := 16) le_rfl hn
  have hbits : isqrtBits n j 0 = Nat.sqrt n :=
    isqrtBits_eq_sqrt (Nat.zero_le n) (by rwa [Nat.zero_add, ← four_pow_eq_mul_self])
  have hloop := rootDigits_eq (n := n) (p := 0) hj hj (Nat.zero_le n) (by simp)
  rw [Nat.zero_mul, Nat.zero_mul, Nat.sub_zero, hbits] at hloop
  rwa [show (2 : Nat) ^ 30 = digitBit 16 from rfl, hskip]

/-! ### The second pass (R166, R167) -/

/-- Registers `num`, `res`, `bit` that stand in the digit loop on the radicand `n` with at most `k` bits of its root to
come (the invariant of R168). -/
def RootToCome (n k : Nat) (start : Nat × Nat × Nat) : Prop :=
  ∃ j p, j ≤ k ∧ p * p ≤ n ∧ n < (p + 2 ^ j) * (p + 2 ^ j) ∧ p * 2 ^ j < 2 ^ 32 ∧
    start = (n - p * p, p * 2 ^ j, digitBit j)

theorem rootDigits_of_rootToCome {n k : Nat} {start : Nat × Nat × Nat} (hk : k ≤ 16) (h : RootToCome n k start) :
    rootDigits k start.1 start.2.1 start.2.2 = (n - Nat.sqrt n * Nat.sqrt n, Nat.sqrt n) := by
  obtain ⟨j, p, hj, hle, hlt, hres, rfl⟩ := h
  rw [rootDigits_eq (hj.trans hk) hj hle hres, isqrtBits_eq_sqrt hle hlt]

/-- Where the shift by F = 2g does not overflow, it appends g bits to come to the root found (R166). -/
theorem rescale_of_lt {n p g : Nat} (hg : 0 < g) (hg8 : g ≤ 8) (hp : p < 2 ^ 16) (hle : p * p ≤ n)
    (hlt : n < (p + 1) * (p + 1)) (hnum : n - p * p < 2 ^ (32 - 2 * g)) :
    RootToCome (n * 2 ^ (2 * g)) g (rescale (2 * g) (n - p * p) p) := by
  have hscale : 2 ^ (2 * g) = 2 ^ g * 2 ^ g := by rw [Nat.two_mul, Nat.pow_add]
  have hfirst : 2 ^ (2 * g - 2) = digitBit g := by
    obtain ⟨k, rfl⟩ := Nat.exists_eq_add_of_le' hg
    rw [digitBit_succ, Nat.mul_succ, Nat.add_sub_cancel, Nat.pow_mul]
  have hnum32 : (n - p * p) * 2 ^ (2 * g) < 2 ^ 32 :=
    calc (n - p * p) * 2 ^ (2 * g) < 2 ^ (32 - 2 * g) * 2 ^ (2 * g) := by gcongr
      _ = 2 ^ 32 := by rw [← Nat.pow_add, Nat.sub_add_cancel (by omega)]
  have hres32 : p * 2 ^ (2 * g) < 2 ^ 32 :=
    calc p * 2 ^ (2 * g) < 2 ^ 16 * 2 ^ (2 * g) := by gcongr
      _ ≤ 2 ^ 16 * 2 ^ 16 := Nat.mul_le_mul_left _ (Nat.pow_le_pow_right (by norm_num) (by omega))
  have hsquare : p * 2 ^ g * (p * 2 ^ g) = p * p * 2 ^ (2 * g) := by rw [hscale]; ring
  have hnext : (p * 2 ^ g + 2 ^ g) * (p * 2 ^ g + 2 ^ g) = (p + 1) * (p + 1) * 2 ^ (2 * g) := by rw [hscale]; ring
  have hrest : (n - p * p) * 2 ^ (2 * g) = n * 2 ^ (2 * g) - p * 2 ^ g * (p * 2 ^ g) := by rw [hsquare, Nat.sub_mul]
  have hres : p * 2 ^ (2 * g) = p * 2 ^ g * 2 ^ g := by rw [hscale, Nat.mul_assoc]
  rw [rescale, if_pos hnum, u32_of_lt hnum32, u32_of_lt hres32, hfirst, hrest, hres]
  exact ⟨g, p * 2 ^ g, le_rfl, hsquare.trans_le (Nat.mul_le_mul_right _ hle),
    (Nat.mul_lt_mul_of_pos_right hlt (Nat.two_pow_pos _)).trans_eq hnext.symm, hres.symm.trans_lt hres32, rfl⟩

/-- The correction term (R167) at F = 16: the first of the 8 root bits to come is certainly 1, and is found already. -/
theorem rescale_of_overflow {n p : Nat} (hp : p < 2 ^ 16) (hle : p * p ≤ n) (hlt : n < (p + 1) * (p + 1))
    (hnum : 2 ^ 16 ≤ n - p * p) : RootToCome (n * 2 ^ 16) 8 (rescale 16 (n - p * p) p) := by
  have hsucc : (p + 1) * (p + 1) = p * p + p + p + 1 := by ring
  have hsquare : (p * 2 ^ 8 + 2 ^ 7) * (p * 2 ^ 8 + 2 ^ 7) = p * p * 2 ^ 16 + p * 2 ^ 16 + 2 ^ 14 := by ring
  have hnext : (p * 2 ^ 8 + 2 ^ 7 + 2 ^ 7) * (p * 2 ^ 8 + 2 ^ 7 + 2 ^ 7) = (p + 1) * (p + 1) * 2 ^ 16 := by ring
  have hrest : (n - p * p - p) * 2 ^ 16 - 2 ^ 14 = n * 2 ^ 16 - (p * 2 ^ 8 + 2 ^ 7) * (p * 2 ^ 8 + 2 ^ 7) := by omega
  have hres : p * 2 ^ 15 + 2 ^ 14 = (p * 2 ^ 8 + 2 ^ 7) * 2 ^ 7 := by ring
  have hbit : 2 ^ 12 = digitBit 7 := rfl
  rw [rescale, if_neg (Nat.not_lt.2 hnum), u32_of_lt (by omega), u32_of_lt (by omega), hrest, hres, hbit]
  exact ⟨7, p * 2 ^ 8 + 2 ^ 7, by norm_num, by omega, by omega, by omega, rfl⟩

/-- Between the passes, for every legal F: an overflow needs F = 16, because the remainder is at most twice the root
(R167). -/
theorem rescale_rootToCome {n g : Nat} (hg : 0 < g) (hg8 : g ≤ 8) (hn : n < 2 ^ 31) :
    RootToCome (n * 2 ^ (2 * g)) g (rescale (2 * g) (n - Nat.sqrt n * Nat.sqrt n) (Nat.sqrt n)) := by
  have hle := Nat.sqrt_le n
  have hlt := Nat.lt_succ_sqrt n
  have hp : Nat.sqrt n < 2 ^ 16 := Nat.sqrt_lt.2 (by omega)
  by_cases hnum : n - Nat.sqrt n * Nat.sqrt n < 2 ^ (32 - 2 * g)
  · exact rescale_of_lt hg hg8 hp hle hlt hnum
  · have hrem := Nat.sqrt_le_add n
    have hpow : 2 ^ (32 - 2 * g) < 2 ^ 17 := by omega
    have hexp := (Nat.pow_lt_pow_iff_right (by norm_num)).1 hpow
    obtain rfl : g = 8 := by omega
    exact rescale_of_overflow hp hle hlt (Nat.le_of_not_lt hnum)

/-! ### The procedure -/

theorem exists_half_of_legalFracBits {f : Nat} (h : legalFracBits f = true) : ∃ g, 0 < g ∧ g ≤ 8 ∧ f = 2 * g := by
  simp only [legalFracBits, Bool.and_eq_true, decide_eq_true_eq, beq_iff_eq] at h
  exact ⟨f / 2, by omega, by omega, by omega⟩

/-- Settles O25: the two passes together extract the integer root of the scaled radicand and its remainder, on which the
final comparison is that of R165 (R168). -/
theorem sqrtProcedureComputesTheRoot : Obligations.SqrtProcedureComputesTheRoot := by
  intro f hlegal a
  obtain ⟨g, hg, hg8, rfl⟩ := exists_half_of_legalFracBits hlegal
  by_cases hneg : a.toInt < 0
  · rw [sqrtRaw_of_neg _ hneg]
    exact if_pos hneg
  · have hrange := toInt_range a
    have hread := toNat_of_nonneg (Int.not_lt.1 hneg)
    have hn : a.toNat < 2 ^ 32 := a.isLt
    have ha : a.toNat < 2 ^ 31 := by omega
    have hm : a.toNat * 2 ^ (2 * g) < 2 ^ 48 := radicand_lt (by omega) ha
    have hlast := rootDigits_of_rootToCome (by omega) (rescale_rootToCome hg hg8 ha)
    have hroot : rootNearest (2 * g) a.toNat < 2 ^ 32 := rootNearest_lt hm
    simp only [sqrtRaw_of_nonneg _ (Int.not_lt.1 hneg), sqrtProcedure, sext32_eq, if_neg hneg, zext32_eq,
      firstPass_eq hn, Nat.mul_div_cancel_left g two_pos, hlast, ← isqrt_eq_sqrt hm]
    exact congrArg (fun v : Nat => Except.ok (s32 v)) (u32_of_lt hroot)

end Sys2Proof.Machine
end

