-- ==== Sys2Proof/Proofs/RomReading.lean ====
section
/-! The words of SIN_ROM and TAN_ROM as the lookup reads them at F = 10 (R177, R178, R180 to R182). Each fact about a
whole listing is a computation of the kernel, run one after the other. -/

namespace Sys2Proof.Machine

set_option Elab.async false

theorem length_sinRomNumbers : sinRomNumbers.length = 1609 := by decide +kernel

theorem length_tanRomNumbers : tanRomNumbers.length = 1609 := by decide +kernel

theorem sinRomNumbers_le : ∀ w ∈ sinRomNumbers, w ≤ 1024 := by decide +kernel

theorem tanRomNumbers_le : ∀ w ∈ tanRomNumbers, w ≤ 2147483647 := by decide +kernel

theorem getD_le {ws : List Nat} {m : Nat} (hws : ∀ w ∈ ws, w ≤ m) (i : Nat) : ws.getD i 0 ≤ m := by
  by_cases hi : i < ws.length
  · rw [List.getD_eq_getElem _ _ hi]
    exact hws _ (List.getElem_mem hi)
  · rw [List.getD_eq_default _ _ (Nat.le_of_not_lt hi)]
    exact Nat.zero_le m

/-- A ROM word is its listed number, and past the end the zero of `romRead` is that of `getD`. -/
theorem toInt_romRead_map {ws : List Nat} (hws : ∀ w ∈ ws, w ≤ 2147483647) (i : Nat) :
    (romRead (ws.map (BitVec.ofNat 32)) i).toInt = (ws.getD i 0 : Nat) := by
  have hle := getD_le hws i
  have hread : romRead (ws.map (BitVec.ofNat 32)) i = s32 (ws.getD i 0 : Nat) := by
    rw [romRead, s32, BitVec.ofInt_natCast]
    exact List.getD_map ws 0 (BitVec.ofNat 32)
  rw [hread]
  exact toInt_s32_of_range (by omega)

theorem toInt_romRead_sinRom (i : Nat) : (romRead buildF10.sinRom i).toInt = (sinRomNumbers.getD i 0 : Nat) :=
  toInt_romRead_map (fun w hw => (sinRomNumbers_le w hw).trans (by norm_num)) i

theorem toInt_romRead_tanRom (i : Nat) : (romRead buildF10.tanRom i).toInt = (tanRomNumbers.getD i 0 : Nat) :=
  toInt_romRead_map tanRomNumbers_le i

/-! ### The clamped index -/

theorem clampIndex_lt {n : Nat} (hn : 0 < n) (i : Int) : clampIndex n i < n := by
  unfold clampIndex
  split
  · exact hn
  · split <;> omega

/-- Below the table's end, clamping is the cut at 0 (R181). -/
theorem clampIndex_eq_toNat {n : Nat} {i : Int} (hi : i ≤ (n : Int) - 1) : clampIndex n i = i.toNat := by
  unfold clampIndex
  split
  · exact (Int.toNat_of_nonpos (by omega)).symm
  · rw [if_neg (by omega)]

/-- F = 10 is below LUT_THRESHOLD, so the lookup is the direct one (R180, R182). -/
theorem lookup_buildF10 (table : List Word) (r : Word) (rev : Bool) :
    lookup buildF10 table r rev = romRead table (clampIndex 1609 (if rev then 1608 - r.toInt else r.toInt)) := rfl

end Sys2Proof.Machine
end

