-- ==== Sys2Proof/Proofs/Trigonometry.lean ====
section
/-! SIN, COS and TAN at F = 10 (R186 to R190): the quadrant reductions in exact integers, where PI2 = 6434, PI = 3216 and
PIO2 = 1608, and the table words they read. -/

namespace Sys2Proof.Machine

/-! ### How the commands end -/

theorem completes_sin (a : Word) (s : State) : Completes (.sin a) s (sinRaw buildF10 a) := by
  rw [← RomImage.build_eq s.rom]
  rfl

theorem completes_cos (a : Word) (s : State) : Completes (.cos a) s (cosRaw buildF10 a) := by
  rw [← RomImage.build_eq s.rom]
  rfl

theorem completes_tan (a : Word) (s : State) : Completes (.tan a) s (tanRaw buildF10 a) := by
  rw [← RomImage.build_eq s.rom]
  rfl

theorem toInt_pi2Of_buildF10 : (pi2Of buildF10).toInt = 6434 := rfl

theorem toInt_piOf_buildF10 : (piOf buildF10).toInt = 3216 := rfl

theorem toInt_pio2Of_buildF10 : (pio2Of buildF10).toInt = 1608 := rfl

/-! ### Raw results that do not wrap -/

theorem toInt_addRaw_of_range {a b : Word} (h : -2147483648 ≤ a.toInt + b.toInt ∧ a.toInt + b.toInt ≤ 2147483647) :
    (addRaw a b).toInt = a.toInt + b.toInt := toInt_s32_of_range h

theorem toInt_subRaw_of_range {a b : Word} (h : -2147483648 ≤ a.toInt - b.toInt ∧ a.toInt - b.toInt ≤ 2147483647) :
    (subRaw a b).toInt = a.toInt - b.toInt := toInt_s32_of_range h

theorem toInt_negRaw_of_range {a : Word} (h : -2147483647 ≤ a.toInt) : (negRaw a).toInt = -a.toInt := by
  have hrange := toInt_range a
  exact toInt_s32_of_range (v := -a.toInt) (by omega)

/-- The negation of any raw store but MIN is exact (R104). -/
theorem toInt_neg_of_ne_min {a : Word} (ha : a ≠ 0x80000000) : (-a).toInt = -a.toInt := by
  have hrange := toInt_range a
  have hmin : a.toInt ≠ -2147483648 := fun h => ha (word_ext (h.trans rfl))
  rw [← s32_toInt a, ← s32_neg, s32_toInt]
  exact toInt_s32_of_range (by omega)

/-- A fold of an angle about a constant: above it, the constant is subtracted (R186). -/
theorem toInt_fold {a b : Word} (hb : 0 ≤ b.toInt) :
    (if sext32 b < sext32 a then subRaw a b else a).toInt =
      if b.toInt < a.toInt then a.toInt - b.toInt else a.toInt := by
  have hrange := toInt_range a
  by_cases hfold : b.toInt < a.toInt
  · rw [if_pos (show sext32 b < sext32 a from hfold), if_pos hfold]
    exact toInt_subRaw_of_range (by omega)
  · rw [if_neg (show ¬ sext32 b < sext32 a from hfold), if_neg hfold]

/-! ### The sine's reduction -/

/-- The angle brought into one period (R186). -/
def sinePhase (a : Word) : Word :=
  if sext32 (remainder a (pi2Of buildF10)) < 0 then addRaw (remainder a (pi2Of buildF10)) (pi2Of buildF10)
  else remainder a (pi2Of buildF10)

/-- The angle brought into one half period, after the vertical fold (R186). -/
def sineHalfPhase (a : Word) : Word :=
  if sext32 (piOf buildF10) < sext32 (sinePhase a) then subRaw (sinePhase a) (piOf buildF10) else sinePhase a

theorem foldSine_buildF10 (a : Word) : foldSine buildF10 a =
    { r := if sext32 (pio2Of buildF10) < sext32 (sineHalfPhase a) then subRaw (sineHalfPhase a) (pio2Of buildF10)
        else sineHalfPhase a
      fv := decide (sext32 (piOf buildF10) < sext32 (sinePhase a))
      fh := decide (sext32 (pio2Of buildF10) < sext32 (sineHalfPhase a)) } := by
  simp only [foldSine, decide_eq_true_eq]
  rfl

/-- Adding PI2 to a negative truncating remainder gives the floored one. -/
theorem tmod_pi2_add_of_neg (v : Int) :
    (if v.tmod 6434 < 0 then v.tmod 6434 + 6434 else v.tmod 6434) = v % 6434 := by
  have htmod := Int.tmod_eq_emod (a := v) (b := 6434)
  split at htmod <;> split <;> omega

theorem toInt_sinePhase (a : Word) : (sinePhase a).toInt = a.toInt % 6434 := by
  have hrem : (remainder a (pi2Of buildF10)).toInt = a.toInt.tmod 6434 := toInt_remainder a (by decide)
  have hlt := natAbs_tmod_lt a.toInt (b := 6434) (by norm_num)
  rw [← tmod_pi2_add_of_neg, ← hrem, sinePhase]
  by_cases hneg : (remainder a (pi2Of buildF10)).toInt < 0
  · rw [if_pos (show sext32 _ < 0 from hneg), if_pos hneg]
    exact toInt_addRaw_of_range (by rw [toInt_pi2Of_buildF10]; omega)
  · rw [if_neg (show ¬ sext32 _ < 0 from hneg), if_neg hneg]

theorem toInt_sineHalfPhase (a : Word) : (sineHalfPhase a).toInt =
    if 3216 < a.toInt % 6434 then a.toInt % 6434 - 3216 else a.toInt % 6434 := by
  rw [sineHalfPhase, toInt_fold (by decide), toInt_sinePhase, toInt_piOf_buildF10]

theorem sineHalfPhase_range (a : Word) : 0 ≤ (sineHalfPhase a).toInt ∧ (sineHalfPhase a).toInt ≤ 3217 := by
  rw [toInt_sineHalfPhase]
  split <;> omega

theorem foldSine_fv (a : Word) : (foldSine buildF10 a).fv = decide (3216 < a.toInt % 6434) := by
  rw [foldSine_buildF10, ← toInt_sinePhase]
  rfl

theorem foldSine_fh (a : Word) : (foldSine buildF10 a).fh = decide (1608 < (sineHalfPhase a).toInt) := by
  rw [foldSine_buildF10]
  rfl

theorem toInt_foldSine_r (a : Word) : (foldSine buildF10 a).r.toInt =
    if 1608 < (sineHalfPhase a).toInt then (sineHalfPhase a).toInt - 1608 else (sineHalfPhase a).toInt := by
  rw [foldSine_buildF10]
  exact toInt_fold (by decide)

/-- Settles O27: an angle r of the first quadrant is reached from itself, a mirrored one from the angle r past
3 · PIO2. -/
theorem sineReductionReachesExactlyTheTable : Obligations.SineReductionReachesExactlyTheTable := by
  refine ⟨fun a => ?_, fun r hlo hhi => ⟨s32 r, ?_⟩, fun r hlo hhi => ⟨s32 (r + 4824), ?_⟩⟩
  · have hhalf := toInt_sineHalfPhase a
    have hrange := sineHalfPhase_range a
    simp only [foldSine_fh, toInt_foldSine_r, decide_eq_false_iff_not, decide_eq_true_eq]
    split at hhalf <;> split <;> omega
  · have hhalf : (sineHalfPhase (s32 r)).toInt = r := by
      rw [toInt_sineHalfPhase, toInt_s32_of_range (by omega), if_neg (by omega)]
      omega
    rw [foldSine_fh, toInt_foldSine_r, hhalf, if_neg (by omega)]
    exact ⟨decide_eq_false (by omega), rfl⟩
  · have hhalf : (sineHalfPhase (s32 (r + 4824))).toInt = r + 1608 := by
      rw [toInt_sineHalfPhase, toInt_s32_of_range (by omega), if_pos (by omega)]
      omega
    rw [foldSine_fh, toInt_foldSine_r, hhalf, if_pos (by omega)]
    exact ⟨decide_eq_true (by omega), by omega⟩

/-! ### SIN -/

/-- The index SIN reads, before the clamp: the half phase, reversed about PIO2 when mirrored (R182, R186). -/
def sineIndex (a : Word) : Int :=
  if 1608 < (sineHalfPhase a).toInt then 1608 - ((sineHalfPhase a).toInt - 1608) else (sineHalfPhase a).toInt

theorem sineIndex_le (a : Word) : sineIndex a ≤ 1608 := by
  rw [sineIndex]
  split <;> omega

/-- The word SIN reads. -/
theorem toInt_lookup_sine (a : Word) :
    (lookup buildF10 buildF10.sinRom (foldSine buildF10 a).r (foldSine buildF10 a).fh).toInt =
      (sinRomNumbers.getD (sineIndex a).toNat 0 : Nat) := by
  have hindex : (if (foldSine buildF10 a).fh then 1608 - (foldSine buildF10 a).r.toInt
      else (foldSine buildF10 a).r.toInt) = sineIndex a := by
    simp only [foldSine_fh, toInt_foldSine_r, decide_eq_true_eq, sineIndex]
    split <;> rfl
  have hle := sineIndex_le a
  rw [lookup_buildF10, hindex, clampIndex_eq_toNat (by omega), toInt_romRead_sinRom]

/-- SIN in exact integers: the word at the folded index, negated past PI (R186). -/
theorem toInt_sinRaw (a : Word) : (sinRaw buildF10 a).toInt =
    if 3216 < a.toInt % 6434 then -((sinRomNumbers.getD (sineIndex a).toNat 0 : Nat) : Int)
    else ((sinRomNumbers.getD (sineIndex a).toNat 0 : Nat) : Int) := by
  have hword := toInt_lookup_sine a
  simp only [sinRaw, foldSine_fv, decide_eq_true_eq]
  split
  · rw [toInt_negRaw_of_range (by omega), hword]
  · exact hword

/-- SIN depends on its angle modulo PI2 alone. -/
theorem sinRaw_congr {a b : Word} (h : a.toInt % 6434 = b.toInt % 6434) : sinRaw buildF10 a = sinRaw buildF10 b := by
  have hindex : sineIndex a = sineIndex b := by
    rw [sineIndex, sineIndex, toInt_sineHalfPhase, toInt_sineHalfPhase, h]
  apply word_ext
  rw [toInt_sinRaw, toInt_sinRaw, hindex, h]

/-- Settles O26. -/
theorem sinFoldsAndReadsTheTable : Obligations.SinFoldsAndReadsTheTable := by
  refine ⟨decodesTo_of_getElem? 27 rfl, fun a b s hperiod => ⟨_, completes_sin a s, ?_⟩, fun a s =>
    ⟨_, completes_sin a s, ?_⟩⟩
  · rw [sinRaw_congr (b := b) (by omega)]
    exact completes_sin b s
  · intro r0 r1 r2 i w
    have hphase : r1 = a.toInt % 6434 := tmod_pi2_add_of_neg a.toInt
    have hhalf : r2 = (sineHalfPhase a).toInt := by rw [toInt_sineHalfPhase, ← hphase]
    have hcut : i = max 0 (sineIndex a) := by
      have hrange := sineHalfPhase_range a
      have hi : i = if 1608 < r2 then max 0 (1608 - (r2 - 1608)) else r2 := rfl
      rw [hi, sineIndex, hhalf]
      split <;> omega
    have hword : w = (sinRomNumbers.getD (sineIndex a).toNat 0 : Nat) := by
      have htoNat : i.toNat = (sineIndex a).toNat := by omega
      rw [← htoNat]
    rw [toInt_sinRaw, ← hphase, ← hword]

theorem toInt_sinRaw_range (a : Word) : -1024 ≤ (sinRaw buildF10 a).toInt ∧ (sinRaw buildF10 a).toInt ≤ 1024 := by
  have hle := getD_le sinRomNumbers_le (sineIndex a).toNat
  rw [toInt_sinRaw]
  split <;> omega

/-! ### COS -/

/-- The phase-shifted angle (R188). -/
def cosinePhase (a : Word) : Word := if a.toInt < 0 then addRaw a (pio2Of buildF10) else subRaw (pio2Of buildF10) a

theorem cosRaw_eq (a : Word) : cosRaw buildF10 a = sinRaw buildF10 (cosinePhase a) := rfl

/-- The shift goes towards zero from either side, so it never wraps (R188). -/
theorem toInt_cosinePhase (a : Word) :
    (cosinePhase a).toInt = if a.toInt < 0 then a.toInt + 1608 else 1608 - a.toInt := by
  have hrange := toInt_range a
  rw [cosinePhase]
  split
  · rw [toInt_addRaw_of_range] <;> rw [toInt_pio2Of_buildF10]
    omega
  · rw [toInt_subRaw_of_range] <;> rw [toInt_pio2Of_buildF10]
    omega

/-- Both signs of an angle are shifted to PIO2 - |a| (R188). -/
theorem cosinePhase_neg {a : Word} (ha : a ≠ 0x80000000) : cosinePhase (-a) = cosinePhase a := by
  apply word_ext
  rw [toInt_cosinePhase, toInt_cosinePhase, toInt_neg_of_ne_min ha]
  split <;> split <;> omega

/-- Settles O29. -/
theorem cosShiftsIntoSinAndIsEven : Obligations.CosShiftsIntoSinAndIsEven := by
  refine ⟨decodesTo_of_getElem? 28 rfl, fun a s =>
    ⟨cosinePhase a, _, toInt_cosinePhase a, completes_cos a s, completes_sin (cosinePhase a) s, fun ha => ?_⟩⟩
  rw [cosRaw_eq, ← cosinePhase_neg ha]
  exact completes_cos (-a) s

/-- Settles O28. -/
theorem sinAndCosStayWithinOne : Obligations.SinAndCosStayWithinOne := fun a s =>
  ⟨⟨_, completes_sin a s, toInt_sinRaw_range a⟩, ⟨_, completes_cos a s, toInt_sinRaw_range (cosinePhase a)⟩⟩

/-! ### TAN -/

/-- The index TAN reads: the magnitude of the remainder, folded about PIO2 (R189). -/
def tangentIndex (v : Int) : Nat :=
  if 1608 < (v.tmod 3216).natAbs then 3216 - (v.tmod 3216).natAbs else (v.tmod 3216).natAbs

theorem natAbs_tmod_pi_lt (v : Int) : (v.tmod 3216).natAbs < 3216 := natAbs_tmod_lt v (b := 3216) (by norm_num)

/-- The magnitude of the remainder modulo PI (R189). -/
def tangentMagnitude (a : Word) : Word :=
  if sext32 (remainder a (piOf buildF10)) < 0 then negRaw (remainder a (piOf buildF10)) else remainder a (piOf buildF10)

theorem toInt_remainder_pi (a : Word) : (remainder a (piOf buildF10)).toInt = a.toInt.tmod 3216 :=
  toInt_remainder a (by decide)

theorem toInt_tangentMagnitude (a : Word) : (tangentMagnitude a).toInt = (a.toInt.tmod 3216).natAbs := by
  have hrem := toInt_remainder_pi a
  have hlt := natAbs_tmod_pi_lt a.toInt
  rw [tangentMagnitude]
  split
  next hneg =>
    rw [sext32_eq] at hneg
    rw [toInt_negRaw_of_range (by omega)]
    omega
  next hnonneg =>
    rw [sext32_eq] at hnonneg
    omega

theorem foldTangent_buildF10 (a : Word) : foldTangent buildF10 a =
    if sext32 (pio2Of buildF10) < sext32 (tangentMagnitude a) then
      (subRaw (piOf buildF10) (tangentMagnitude a), !decide (sext32 (remainder a (piOf buildF10)) < 0))
    else (tangentMagnitude a, decide (sext32 (remainder a (piOf buildF10)) < 0)) := by
  simp only [foldTangent, decide_eq_true_eq]
  rfl

/-- The tangent's reduction in exact integers, with the sign flips of both folds (R189). -/
theorem foldTangent_spec (a : Word) :
    (foldTangent buildF10 a).1.toInt = tangentIndex a.toInt ∧
    ((foldTangent buildF10 a).2 = true ↔ ¬ (a.toInt.tmod 3216 < 0 ↔ 1608 < (a.toInt.tmod 3216).natAbs)) := by
  have hlt := natAbs_tmod_pi_lt a.toInt
  have hmag := toInt_tangentMagnitude a
  rw [← toInt_remainder_pi] at hlt hmag
  rw [tangentIndex, ← toInt_remainder_pi]
  by_cases hfold : sext32 (pio2Of buildF10) < sext32 (tangentMagnitude a)
  · have hmirror : 1608 < (tangentMagnitude a).toInt := hfold
    rw [foldTangent_buildF10, if_pos hfold, if_pos (by omega)]
    constructor
    · rw [toInt_subRaw_of_range] <;> rw [toInt_piOf_buildF10] <;> omega
    · rw [Bool.not_eq_true', decide_eq_false_iff_not, sext32_eq]
      omega
  · have hdirect : ¬ 1608 < (tangentMagnitude a).toInt := hfold
    rw [foldTangent_buildF10, if_neg hfold, if_neg (by omega)]
    constructor
    · exact hmag
    · rw [decide_eq_true_eq, sext32_eq]
      omega

/-- The word TAN reads. -/
theorem toInt_lookup_tangent (a : Word) :
    (lookup buildF10 buildF10.tanRom (foldTangent buildF10 a).1 false).toInt =
      (tanRomNumbers.getD (tangentIndex a.toInt) 0 : Nat) := by
  have hlt := natAbs_tmod_pi_lt a.toInt
  have hle : tangentIndex a.toInt ≤ 1608 := by
    rw [tangentIndex]
    split <;> omega
  rw [lookup_buildF10, if_neg Bool.false_ne_true, (foldTangent_spec a).1, clampIndex_eq_toNat (by omega),
    Int.toNat_natCast, toInt_romRead_tanRom]

/-- TAN in exact integers (R189). -/
theorem toInt_tanRaw (a : Word) : (tanRaw buildF10 a).toInt =
    if a.toInt.tmod 3216 < 0 ↔ 1608 < (a.toInt.tmod 3216).natAbs then
      ((tanRomNumbers.getD (tangentIndex a.toInt) 0 : Nat) : Int)
    else -((tanRomNumbers.getD (tangentIndex a.toInt) 0 : Nat) : Int) := by
  have hword := toInt_lookup_tangent a
  simp only [tanRaw, (foldTangent_spec a).2, ite_not]
  split
  · exact hword
  · rw [toInt_negRaw_of_range (by omega), hword]

/-- TAN is odd: the remainder changes its sign, its magnitude stays, and at remainder 0 the word is 0 (R190). -/
theorem toInt_tanRaw_neg {a : Word} (ha : a ≠ 0x80000000) :
    (tanRaw buildF10 (-a)).toInt = -(tanRaw buildF10 a).toInt := by
  have hindex : tangentIndex (-a.toInt) = tangentIndex a.toInt := by
    rw [tangentIndex, tangentIndex, Int.neg_tmod, Int.natAbs_neg]
  rw [toInt_tanRaw, toInt_tanRaw, toInt_neg_of_ne_min ha, hindex, Int.neg_tmod, Int.natAbs_neg]
  by_cases hzero : a.toInt.tmod 3216 = 0
  · have hword : tanRomNumbers.getD (tangentIndex a.toInt) 0 = 0 := by
      rw [tangentIndex, hzero]
      rfl
    rw [hword, hzero]
    rfl
  · split <;> split <;> omega

/-- Settles O30. -/
theorem tanFoldsAndReadsTheTable : Obligations.TanFoldsAndReadsTheTable :=
  ⟨decodesTo_of_getElem? 29 rfl,
    fun a s ha => ⟨_, _, completes_tan a s, completes_tan (-a) s, toInt_tanRaw_neg ha⟩,
    fun a s => ⟨_, completes_tan a s, toInt_tanRaw a⟩⟩

end Sys2Proof.Machine
end

