-- ==== Sys2Proof/Proofs/SampleAngles.lean ====
section
/-! The sine and the cosine of the sample angles (R176), enclosed in integers: from one enclosure of the table step's
angle, the addition theorems give that of every sample angle, one step after the other. -/

namespace Sys2Proof.Machine

/-- The angle of table word `k` (R176). -/
noncomputable def sampleAngle (k : Nat) : ℝ := Real.pi / 2 * k / 1608

theorem sampleAngle_zero : sampleAngle 0 = 0 := by simp [sampleAngle]

theorem sampleAngle_succ (k : Nat) : sampleAngle (k + 1) = sampleAngle k + sampleAngle 1 := by
  simp only [sampleAngle, Nat.cast_add, Nat.cast_one]
  ring

theorem sampleAngle_nonneg (k : Nat) : 0 ≤ sampleAngle k := by
  rw [sampleAngle]
  positivity

theorem sampleAngle_le {k : Nat} (hk : k ≤ 1608) : sampleAngle k ≤ Real.pi / 2 := by
  have hk' : (k : ℝ) ≤ 1608 := by exact_mod_cast hk
  rw [sampleAngle, div_le_iff₀ (by norm_num)]
  gcongr

theorem sampleAngle_lt {k : Nat} (hk : k < 1608) : sampleAngle k < Real.pi / 2 := by
  have hk' : (k : ℝ) < 1608 := by exact_mod_cast hk
  rw [sampleAngle, div_lt_iff₀ (by norm_num)]
  gcongr

theorem cos_sampleAngle_nonneg {k : Nat} (hk : k ≤ 1608) : 0 ≤ Real.cos (sampleAngle k) :=
  Real.cos_nonneg_of_neg_pi_div_two_le_of_le
    ((neg_nonpos.2 Real.pi_div_two_pos.le).trans (sampleAngle_nonneg k)) (sampleAngle_le hk)

theorem cos_sampleAngle_pos {k : Nat} (hk : k < 1608) : 0 < Real.cos (sampleAngle k) :=
  Real.cos_pos_of_mem_Ioo
    ⟨(neg_neg_of_pos Real.pi_div_two_pos).trans_le (sampleAngle_nonneg k), sampleAngle_lt hk⟩

/-! ### Enclosures of a sine and a cosine -/

/-- Lower and upper bounds of the sine and the cosine of one angle, in units of 2^-56. -/
structure SineBox where
  sinLo : Nat
  sinHi : Nat
  cosLo : Nat
  cosHi : Nat

/-- The number of units in 1. -/
def boxOne : Nat := 2 ^ 56

theorem boxOne_pos : (0 : ℝ) < boxOne := by simp [boxOne]

/-- The bounds hold for the angle `x`. -/
structure SineBox.Encloses (b : SineBox) (x : ℝ) : Prop where
  le_sin : (b.sinLo : ℝ) ≤ boxOne * Real.sin x
  sin_le : boxOne * Real.sin x ≤ b.sinHi
  le_cos : (b.cosLo : ℝ) ≤ boxOne * Real.cos x
  cos_le : boxOne * Real.cos x ≤ b.cosHi

/-- The bounds of a sum of two angles (the addition theorems), rounded outwards. -/
def SineBox.add (b d : SineBox) : SineBox where
  sinLo := (b.sinLo * d.cosLo + b.cosLo * d.sinLo) / boxOne
  sinHi := (b.sinHi * d.cosHi + b.cosHi * d.sinHi) / boxOne + 1
  cosLo := (b.cosLo * d.cosLo - b.sinHi * d.sinHi) / boxOne
  cosHi := (b.cosHi * d.cosHi - b.sinLo * d.sinLo) / boxOne + 1

theorem cast_div_boxOne_le {n : Nat} {v : ℝ} (h : (n : ℝ) ≤ boxOne * (boxOne * v)) :
    ((n / boxOne : Nat) : ℝ) ≤ boxOne * v :=
  Nat.cast_div_le.trans ((div_le_iff₀' boxOne_pos).2 h)

theorem le_cast_div_boxOne_add_one {n : Nat} {v : ℝ} (h : boxOne * (boxOne * v) ≤ n) :
    boxOne * v ≤ ((n / boxOne + 1 : Nat) : ℝ) := by
  have hlt : n < boxOne * (n / boxOne + 1) := Nat.lt_mul_div_succ n (by norm_num [boxOne])
  have hlt' : (n : ℝ) ≤ boxOne * ((n / boxOne + 1 : Nat) : ℝ) := by exact_mod_cast hlt.le
  exact le_of_mul_le_mul_left (h.trans hlt') boxOne_pos

/-- A subtraction cut off at 0 stays below a difference that is not negative. -/
theorem cast_tsub_le {m n : Nat} {v : ℝ} (hv : 0 ≤ v) (h : (m : ℝ) - n ≤ v) : ((m - n : Nat) : ℝ) ≤ v := by
  obtain hle | hlt := Nat.le_or_le n m
  · rwa [Nat.cast_sub hle]
  · rwa [Nat.sub_eq_zero_of_le hlt, Nat.cast_zero]

theorem le_cast_tsub {m n : Nat} {v : ℝ} (h : v ≤ (m : ℝ) - n) : v ≤ ((m - n : Nat) : ℝ) :=
  h.trans (by rw [sub_le_iff_le_add]; exact_mod_cast Nat.le_add_of_sub_le le_rfl)

/-- The bounds of a sum hold as long as its cosine is not negative. -/
theorem SineBox.Encloses.add {b d : SineBox} {x y : ℝ} (hb : b.Encloses x) (hd : d.Encloses y)
    (hcos : 0 ≤ Real.cos (x + y)) : (b.add d).Encloses (x + y) := by
  have hbs := (Nat.cast_nonneg b.sinLo).trans hb.le_sin
  have hbc := (Nat.cast_nonneg b.cosLo).trans hb.le_cos
  have hds := (Nat.cast_nonneg d.sinLo).trans hd.le_sin
  have hdc := (Nat.cast_nonneg d.cosLo).trans hd.le_cos
  have hsin : boxOne * (boxOne * Real.sin (x + y)) = boxOne * Real.sin x * (boxOne * Real.cos y) +
      boxOne * Real.cos x * (boxOne * Real.sin y) := by rw [Real.sin_add]; ring
  have hcosadd : boxOne * (boxOne * Real.cos (x + y)) = boxOne * Real.cos x * (boxOne * Real.cos y) -
      boxOne * Real.sin x * (boxOne * Real.sin y) := by rw [Real.cos_add]; ring
  constructor
  · refine cast_div_boxOne_le ?_
    rw [hsin]
    push_cast
    exact add_le_add (mul_le_mul hb.le_sin hd.le_cos (Nat.cast_nonneg _) hbs)
      (mul_le_mul hb.le_cos hd.le_sin (Nat.cast_nonneg _) hbc)
  · refine le_cast_div_boxOne_add_one ?_
    rw [hsin]
    push_cast
    exact add_le_add (mul_le_mul hb.sin_le hd.cos_le hdc (Nat.cast_nonneg _))
      (mul_le_mul hb.cos_le hd.sin_le hds (Nat.cast_nonneg _))
  · refine cast_div_boxOne_le (cast_tsub_le (by positivity) ?_)
    rw [hcosadd]
    push_cast
    exact sub_le_sub (mul_le_mul hb.le_cos hd.le_cos (Nat.cast_nonneg _) hbc)
      (mul_le_mul hb.sin_le hd.sin_le hds (Nat.cast_nonneg _))
  · refine le_cast_div_boxOne_add_one (le_cast_tsub ?_)
    rw [hcosadd]
    push_cast
    exact sub_le_sub (mul_le_mul hb.cos_le hd.cos_le hdc (Nat.cast_nonneg _))
      (mul_le_mul hb.le_sin hd.le_sin (Nat.cast_nonneg _) hbs)

/-! ### The first sample angle -/

/-- The sine of an angle between two numbers, by the first two terms of its series. -/
theorem sin_mem_of_mem {a b x : ℝ} (ha : 0 ≤ a) (hax : a ≤ x) (hxb : x ≤ b) (hb : b ≤ 1) :
    a - b ^ 3 / 6 - b ^ 5 / 100 ≤ Real.sin x ∧ Real.sin x ≤ b - a ^ 3 / 6 + b ^ 5 / 100 := by
  have hx : 0 ≤ x := ha.trans hax
  have hseries := Real.sin_bound (x := x) (by rw [abs_of_nonneg hx]; linarith)
  rw [abs_of_nonneg hx, abs_le] at hseries
  obtain ⟨hlower, hupper⟩ := hseries
  have hcube : a ^ 3 ≤ x ^ 3 := by gcongr
  have hcube' : x ^ 3 ≤ b ^ 3 := by gcongr
  have hfifth : x ^ 5 ≤ b ^ 5 := by gcongr
  constructor <;> linarith

/-- Bounds of the cosine that satisfy Pythagoras with the bounds of the sine. -/
theorem SineBox.encloses_of_sin {b : SineBox} {x : ℝ} (hcos : 0 ≤ Real.cos x)
    (hlo : (b.sinLo : ℝ) ≤ boxOne * Real.sin x) (hhi : boxOne * Real.sin x ≤ b.sinHi)
    (hcosLo : b.cosLo ^ 2 + b.sinHi ^ 2 ≤ boxOne ^ 2) (hcosHi : boxOne ^ 2 ≤ b.cosHi ^ 2 + b.sinLo ^ 2) :
    b.Encloses x := by
  have hsin := (Nat.cast_nonneg b.sinLo).trans hlo
  have hpyth : (boxOne * Real.sin x) ^ 2 + (boxOne * Real.cos x) ^ 2 = (boxOne : ℝ) ^ 2 := by
    rw [mul_pow, mul_pow, ← mul_add, Real.sin_sq_add_cos_sq, mul_one]
  have hlo2 : (b.sinLo : ℝ) ^ 2 ≤ (boxOne * Real.sin x) ^ 2 := by gcongr
  have hhi2 : (boxOne * Real.sin x) ^ 2 ≤ (b.sinHi : ℝ) ^ 2 := by gcongr
  have hcosLo' : (b.cosLo : ℝ) ^ 2 + b.sinHi ^ 2 ≤ boxOne ^ 2 := by exact_mod_cast hcosLo
  have hcosHi' : (boxOne : ℝ) ^ 2 ≤ b.cosHi ^ 2 + b.sinLo ^ 2 := by exact_mod_cast hcosHi
  exact ⟨hlo, hhi, le_of_sq_le_sq (by linarith) (by positivity), le_of_sq_le_sq (by linarith) (by positivity)⟩

/-- The enclosure of one table step, π/3216. -/
def stepBox : SineBox where
  sinLo := 70390414198164
  sinHi := 70390414198168
  cosLo := 72057559657015977
  cosHi := 72057559657015980

theorem encloses_stepBox : stepBox.Encloses (sampleAngle 1) := by
  have hangle : sampleAngle 1 = Real.pi / 3216 := by rw [sampleAngle]; ring
  have hlo : (3.14159265358979323846 / 3216 : ℝ) ≤ sampleAngle 1 := by
    rw [hangle]
    exact div_le_div_of_nonneg_right Real.pi_gt_d20.le (by norm_num)
  have hhi : sampleAngle 1 ≤ (3.14159265358979323847 / 3216 : ℝ) := by
    rw [hangle]
    exact div_le_div_of_nonneg_right Real.pi_lt_d20.le (by norm_num)
  obtain ⟨hsinLo, hsinHi⟩ := sin_mem_of_mem (by norm_num) hlo hhi (by norm_num)
  refine SineBox.encloses_of_sin (cos_sampleAngle_nonneg (by norm_num)) ?_ ?_
    (by norm_num [stepBox, boxOne]) (by norm_num [stepBox, boxOne])
  · refine le_trans ?_ (mul_le_mul_of_nonneg_left hsinLo boxOne_pos.le)
    norm_num [stepBox, boxOne]
  · refine (mul_le_mul_of_nonneg_left hsinHi boxOne_pos.le).trans ?_
    norm_num [stepBox, boxOne]

/-! ### All sample angles -/

/-- The enclosure of the sample angle of word `k`: the exact one of angle 0, and one step more at a time. -/
def sampleBox (k : Nat) : SineBox := (fun b => b.add stepBox)^[k] ⟨0, 0, boxOne, boxOne⟩

theorem sampleBox_succ (k : Nat) : sampleBox (k + 1) = (sampleBox k).add stepBox :=
  Function.iterate_succ_apply' ..

theorem encloses_sampleBox {k : Nat} (hk : k ≤ 1608) : (sampleBox k).Encloses (sampleAngle k) := by
  induction k with
  | zero => constructor <;> simp [sampleBox, sampleAngle_zero]
  | succ k ih =>
    have hcos := cos_sampleAngle_nonneg hk
    rw [sampleAngle_succ] at hcos ⊢
    rw [sampleBox_succ]
    exact (ih (by omega)).add encloses_stepBox hcos

/-! ### One walk along a table -/

/-- A check of each table word, at its index, against the enclosure of its sample angle. The enclosures follow the
list, so that each is computed from the one before. -/
def checkWords (check : Nat → SineBox → Nat → Bool) : Nat → SineBox → List Nat → Bool
  | _, _, [] => true
  | k, b, w :: ws => check k b w && checkWords check (k + 1) (b.add stepBox) ws

theorem check_of_checkWords {check : Nat → SineBox → Nat → Bool} {ws : List Nat} {k : Nat}
    (h : checkWords check k (sampleBox k) ws = true) {i : Nat} (hi : i < ws.length) :
    check (k + i) (sampleBox (k + i)) (ws.getD i 0) = true := by
  induction ws generalizing k i with
  | nil => exact absurd hi (Nat.not_lt_zero i)
  | cons w ws ih =>
    rw [checkWords, Bool.and_eq_true, ← sampleBox_succ] at h
    obtain ⟨hfirst, hrest⟩ := h
    cases i with
    | zero => exact hfirst
    | succ i =>
      rw [List.getD_cons_succ, Nat.add_comm i 1, ← Nat.add_assoc]
      exact ih hrest (Nat.lt_of_succ_lt_succ hi)

end Sys2Proof.Machine
end

