-- ==== Sys2Proof/Proofs/RomWords.lean ====
section
/-! SIN_ROM and TAN_ROM against the real sine and tangent (R176 to R178): each word but the few whose exact value is an
integer is decided by the enclosure of its sample angle; those few are angles with a known sine or tangent. The walks
along the tables are checked one after the other, not each in a thread of its own. -/

namespace Sys2Proof.Machine

set_option Elab.async false

/-! ### SIN_ROM -/

/-- The enclosure decides that `w` is the floored sine. -/
def SineBox.flooredSine (b : SineBox) (w : Nat) : Bool :=
  w * boxOne ≤ 1024 * b.sinLo && 1024 * b.sinHi < (w + 1) * boxOne

theorem SineBox.Encloses.eq_floor_sin {b : SineBox} {x : ℝ} {w : Nat} (hb : b.Encloses x)
    (h : b.flooredSine w = true) : (w : Int) = ⌊Real.sin x * 1024⌋ := by
  rw [flooredSine, Bool.and_eq_true, decide_eq_true_eq, decide_eq_true_eq] at h
  obtain ⟨hunder, hover⟩ := h
  have hlo : (w : ℝ) * boxOne ≤ 1024 * b.sinLo := by exact_mod_cast hunder
  have hhi : (1024 : ℝ) * b.sinHi < (w + 1) * boxOne := by exact_mod_cast hover
  have hsinLo := hb.le_sin
  have hsinHi := hb.sin_le
  rw [eq_comm, Int.floor_eq_iff]
  exact ⟨le_of_mul_le_mul_right (by push_cast; linarith) boxOne_pos,
    lt_of_mul_lt_mul_right (by push_cast; linarith) boxOne_pos.le⟩

/-- At π/6 and π/2 the sine times 2^10 is an integer, which no enclosure of positive width decides. -/
def sineExactAt (k : Nat) : Bool := k == 536 || k == 1608

theorem checkWords_sinRom :
    checkWords (fun k b w => sineExactAt k || b.flooredSine w) 0 (sampleBox 0) sinRomNumbers = true := by
  decide +kernel

theorem sinRom_of_sineExactAt {k : Nat} (hk : sineExactAt k = true) :
    ((sinRomNumbers.getD k 0 : Nat) : Int) = ⌊Real.sin (sampleAngle k) * 1024⌋ := by
  rw [sineExactAt, Bool.or_eq_true, beq_iff_eq, beq_iff_eq] at hk
  obtain rfl | rfl := hk
  · have hangle : sampleAngle 536 = Real.pi / 6 := by rw [sampleAngle]; push_cast; ring
    rw [show sinRomNumbers.getD 536 0 = 512 by decide +kernel, hangle, Real.sin_pi_div_six]
    norm_num
  · have hangle : sampleAngle 1608 = Real.pi / 2 := by rw [sampleAngle]; push_cast; ring
    rw [show sinRomNumbers.getD 1608 0 = 1024 by decide +kernel, hangle, Real.sin_pi_div_two]
    norm_num

/-- Settles O33. -/
theorem sinRomIsTheFlooredRealSine : Obligations.SinRomIsTheFlooredRealSine := by
  intro k hk
  have hcheck := check_of_checkWords checkWords_sinRom (i := k) (by rw [length_sinRomNumbers]; omega)
  rw [Nat.zero_add, Bool.or_eq_true] at hcheck
  obtain hexact | hfloor := hcheck
  · exact sinRom_of_sineExactAt hexact
  · exact (encloses_sampleBox hk).eq_floor_sin hfloor

/-! ### TAN_ROM -/

/-- The enclosure decides that `w` is the floored tangent. -/
def SineBox.flooredTangent (b : SineBox) (w : Nat) : Bool :=
  w * b.cosHi ≤ 1024 * b.sinLo && 1024 * b.sinHi < (w + 1) * b.cosLo

theorem SineBox.Encloses.eq_floor_tan {b : SineBox} {x : ℝ} {w : Nat} (hb : b.Encloses x) (hcos : 0 < Real.cos x)
    (h : b.flooredTangent w = true) : (w : Int) = ⌊Real.tan x * 1024⌋ := by
  rw [flooredTangent, Bool.and_eq_true, decide_eq_true_eq, decide_eq_true_eq] at h
  obtain ⟨hunder, hover⟩ := h
  have hlo : (w : ℝ) * b.cosHi ≤ 1024 * b.sinLo := by exact_mod_cast hunder
  have hhi : (1024 : ℝ) * b.sinHi < (w + 1) * b.cosLo := by exact_mod_cast hover
  have hone := boxOne_pos
  have hscale : Real.tan x * 1024 * (boxOne * Real.cos x) = 1024 * (boxOne * Real.sin x) := by
    rw [Real.tan_eq_sin_div_cos]
    field_simp
  have hle : (w : ℝ) * (boxOne * Real.cos x) ≤ 1024 * (boxOne * Real.sin x) :=
    calc (w : ℝ) * (boxOne * Real.cos x) ≤ w * b.cosHi := by gcongr; exact hb.cos_le
      _ ≤ 1024 * b.sinLo := hlo
      _ ≤ 1024 * (boxOne * Real.sin x) := by gcongr; exact hb.le_sin
  have hlt : 1024 * (boxOne * Real.sin x) < ((w : ℝ) + 1) * (boxOne * Real.cos x) :=
    calc 1024 * (boxOne * Real.sin x) ≤ 1024 * b.sinHi := by gcongr; exact hb.sin_le
      _ < (w + 1) * b.cosLo := hhi
      _ ≤ (w + 1) * (boxOne * Real.cos x) := by gcongr; exact hb.le_cos
  have hpos : 0 < boxOne * Real.cos x := mul_pos hone hcos
  rw [eq_comm, Int.floor_eq_iff]
  exact ⟨le_of_mul_le_mul_right (hscale ▸ hle) hpos, lt_of_mul_lt_mul_right (hscale ▸ hlt) hpos.le⟩

/-- At π/4 the tangent times 2^10 is an integer; at π/2 there is no tangent, and the word is MAX (R178). -/
def tangentExactAt (k : Nat) : Bool := k == 804 || k == 1608

theorem checkWords_tanRom :
    checkWords (fun k b w => tangentExactAt k || b.flooredTangent w) 0 (sampleBox 0) tanRomNumbers = true := by
  decide +kernel

theorem tanRom_eq_floor {k : Nat} (hk : k < 1608) :
    ((tanRomNumbers.getD k 0 : Nat) : Int) = ⌊Real.tan (sampleAngle k) * 1024⌋ := by
  have hcheck := check_of_checkWords checkWords_tanRom (i := k) (by rw [length_tanRomNumbers]; omega)
  rw [Nat.zero_add, Bool.or_eq_true] at hcheck
  obtain hexact | hfloor := hcheck
  · rw [tangentExactAt, Bool.or_eq_true, beq_iff_eq, beq_iff_eq] at hexact
    obtain rfl : k = 804 := by omega
    have hangle : sampleAngle 804 = Real.pi / 4 := by rw [sampleAngle]; push_cast; ring
    rw [show tanRomNumbers.getD 804 0 = 1024 by decide +kernel, hangle, Real.tan_pi_div_four]
    norm_num
  · exact (encloses_sampleBox hk.le).eq_floor_tan (cos_sampleAngle_pos hk) hfloor

/-- Settles O34. -/
theorem tanRomIsTheFlooredRealTangent : Obligations.TanRomIsTheFlooredRealTangent := by
  refine ⟨fun k hk => ⟨tanRom_eq_floor hk, ?_⟩, by decide +kernel⟩
  have hmax := getD_le tanRomNumbers_le k
  refine (tanRom_eq_floor hk).symm.trans_le ?_
  exact_mod_cast hmax

end Sys2Proof.Machine
end

