-- ==== Sys2Proof/Proofs/Arctangent.lean ====
section
/-! ATAN2 at F = 10 (R192 to R197): the axis, the two rational forms with their denominators in exact integers, and the
quadrant corrections. In both forms the numerator is at most the denominator, so that no quotient exceeds ONE. -/

namespace Sys2Proof.Machine

theorem completes_atan2 (y x : Word) (s : State) : Completes (.atan2 y x) s (atan2Raw buildF10 y x) := by
  rw [← RomImage.build_eq s.rom]
  rfl

/-! ### The axis -/

theorem atan2Raw_zero (y : Word) : atan2Raw buildF10 y 0 =
    if 0 < y.toInt then pio2Of buildF10 else if y.toInt < 0 then negRaw (pio2Of buildF10) else 0 := rfl

theorem atan2Raw_zero_of_pos {y : Word} (hy : 0 < y.toInt) : atan2Raw buildF10 y 0 = 1608 := by
  rw [atan2Raw_zero, if_pos hy]
  rfl

theorem toInt_atan2Raw_zero_of_neg {y : Word} (hy : y.toInt < 0) : (atan2Raw buildF10 y 0).toInt = -1608 := by
  rw [atan2Raw_zero, if_neg (Int.lt_asymm hy), if_pos hy]
  rfl

/-- Settles O36. -/
theorem atan2OnTheYAxis : Obligations.Atan2OnTheYAxis := by
  refine ⟨decodesTo_of_getElem? 30 rfl, fun y s => ⟨fun hpos => ?_, fun hneg => ?_, ?_⟩⟩
  · rw [← atan2Raw_zero_of_pos hpos]
    exact completes_atan2 y 0 s
  · exact ⟨_, completes_atan2 y 0 s, toInt_atan2Raw_zero_of_neg hneg⟩
  · rintro rfl
    exact completes_atan2 0 0 s

/-! ### The rounded quotient -/

theorem toInt_signedOrSaturated_false_nonneg (m : Nat) : 0 ≤ (signedOrSaturated false m).toInt := by
  obtain hlarge | hsmall := Nat.lt_or_ge 2147483647 m
  · rw [signedOrSaturated_of_gt _ hlarge]
    decide
  · rw [toInt_signedOrSaturated _ hsmall]
    exact Int.natCast_nonneg m

theorem toInt_signedOrSaturated_true_nonpos (m : Nat) : (signedOrSaturated true m).toInt ≤ 0 := by
  obtain hlarge | hsmall := Nat.lt_or_ge 2147483647 m
  · rw [signedOrSaturated_of_gt _ hlarge]
    decide
  · rw [toInt_signedOrSaturated _ hsmall]
    exact Int.neg_nonpos_of_nonneg (Int.natCast_nonneg m)

/-- A quotient of operands of one sign is not negative, saturated or not (R150). -/
theorem toInt_quotient_nonneg (f : Nat) {a b : Word} (h : a.toInt < 0 ↔ b.toInt < 0) :
    0 ≤ (quotient f a b).toInt := by
  have hsign : (isNeg a != isNeg b) = false := by
    rw [← Bool.not_eq_true, bne_isNeg_iff, not_not]
    exact h
  rw [quotient_eq, hsign]
  exact toInt_signedOrSaturated_false_nonneg _

/-- A quotient of operands of differing signs is not positive, saturated or not (R150). -/
theorem toInt_quotient_nonpos (f : Nat) {a b : Word} (h : ¬ (a.toInt < 0 ↔ b.toInt < 0)) :
    (quotient f a b).toInt ≤ 0 := by
  rw [quotient_eq, (bne_isNeg_iff a b).2 h]
  exact toInt_signedOrSaturated_true_nonpos _

/-- For a positive divisor the sign of a rounded quotient is that of its dividend. -/
theorem roundDiv_of_pos (q : Int) {d : Int} (hd : 0 < d) :
    roundDiv (q * 1024) d = q.sign * ((2 * (q.natAbs * 1024) + d.natAbs) / (2 * d.natAbs) : Nat) := by
  have hsign : (1024 : Int).sign = 1 := rfl
  have habs : (1024 : Int).natAbs = 1024 := rfl
  rw [roundDiv, Int.sign_mul, Int.sign_eq_one_of_pos hd, Int.natAbs_mul, hsign, habs, Int.mul_one, Int.mul_one]

theorem rounded_le_one {m d : Nat} (hd : 0 < d) (hle : m ≤ d) : (2 * (m * 1024) + d) / (2 * d) ≤ 1024 :=
  Nat.le_of_lt_succ (Nat.div_lt_of_lt_mul (by omega))

/-- A fraction of magnitude at most 1 is rounded to at most ONE, on the side of its sign. -/
theorem roundDiv_range {q d : Int} (hd : 0 < d) (hle : q.natAbs ≤ d) :
    (0 ≤ q → 0 ≤ roundDiv (q * 1024) d ∧ roundDiv (q * 1024) d ≤ 1024) ∧
    (q ≤ 0 → -1024 ≤ roundDiv (q * 1024) d ∧ roundDiv (q * 1024) d ≤ 0) := by
  have hone : (2 * (q.natAbs * 1024) + d.natAbs) / (2 * d.natAbs) ≤ 1024 := rounded_le_one (by omega) (by omega)
  rw [roundDiv_of_pos q hd]
  generalize (2 * (q.natAbs * 1024) + d.natAbs) / (2 * d.natAbs) = m at hone
  obtain hneg | rfl | hpos := Int.lt_trichotomy q 0
  · rw [Int.sign_eq_neg_one_of_neg hneg]
    omega
  · rw [Int.sign_zero]
    omega
  · rw [Int.sign_eq_one_of_pos hpos]
    omega

/-- A quotient of magnitude at most ONE is not saturated: it is the rounded quotient (R150). -/
theorem toInt_quotient_of_le {z den : Word} (hpos : 0 < den.toInt) (hle : z.toInt.natAbs ≤ den.toInt) :
    (quotient Config.F z den).toInt = roundDiv (z.toInt * 1024) den.toInt := by
  have hne : den ≠ 0 := by
    rintro rfl
    exact absurd hpos (by decide)
  have hone : (2 * (z.toInt.natAbs * 1024) + den.toInt.natAbs) / (2 * den.toInt.natAbs) ≤ 1024 :=
    rounded_le_one (by omega) (by omega)
  have hmag : roundedMagnitude Config.F z den =
      (2 * (z.toInt.natAbs * 1024) + den.toInt.natAbs) / (2 * den.toInt.natAbs) := roundedMagnitude_eq Config.F z hne
  rw [quotient_eq, hmag, toInt_signedOrSaturated _ (by omega), ite_bne_isNeg, roundDiv_of_pos _ hpos]
  generalize hm : (2 * (z.toInt.natAbs * 1024) + den.toInt.natAbs) / (2 * den.toInt.natAbs) = m
  obtain hneg | hzero | hzpos := Int.lt_trichotomy z.toInt 0
  · rw [Int.sign_eq_neg_one_of_neg hneg, if_neg (by omega)]
    omega
  · have hm0 : m = 0 := by
      rw [← hm, hzero]
      exact Nat.div_eq_of_lt (by omega)
    rw [hzero, hm0]
    simp
  · rw [Int.sign_eq_one_of_pos hzpos, if_pos (by omega)]
    omega

/-! ### The denominators -/

/-- The denominator of the form for |z| < ONE (R192, R194). -/
def nearDenominator (z : Word) : Word :=
  addSafe (wordOne Config.F) (mulSafe Config.F buildF10.atanK (mulSafe Config.F z z))

/-- The denominator of the complementary form (R192, R195). -/
def farDenominator (z : Word) : Word := addSafe (mulSafe Config.F z z) buildF10.atanK

theorem toInt_addSafe (a b : Word) :
    (addSafe a b).toInt = max (-2147483648) (min 2147483647 (a.toInt + b.toInt)) := by
  rw [addSafe_eq_s32_clamp, toInt_s32_clamp]

theorem toInt_mulSafe_F (a b : Word) :
    (mulSafe Config.F a b).toInt = max (-2147483648) (min 2147483647 (a.toInt * b.toInt / 1024)) := by
  rw [mulSafe_F, toInt_s32_clamp]

/-- Below ONE nothing saturates. -/
theorem toInt_nearDenominator {z : Word} (hz : -1024 < z.toInt ∧ z.toInt < 1024) :
    (nearDenominator z).toInt = 1024 + 287 * (z.toInt * z.toInt / 1024) / 1024 := by
  have hnonneg := mul_self_nonneg z.toInt
  have hsq : z.toInt * z.toInt ≤ 1024 * 1024 := by nlinarith
  have hone : (wordOne Config.F).toInt = 1024 := rfl
  have hk : buildF10.atanK.toInt = 287 := rfl
  rw [nearDenominator, toInt_addSafe, toInt_mulSafe_F, toInt_mulSafe_F, hone, hk]
  omega

theorem toInt_farDenominator (z : Word) :
    (farDenominator z).toInt = min (z.toInt * z.toInt / 1024 + 287) 2147483647 := by
  have hnonneg := mul_self_nonneg z.toInt
  have hk : buildF10.atanK.toInt = 287 := rfl
  rw [farDenominator, toInt_addSafe, toInt_mulSafe_F, hk]
  omega

/-- Below ONE the denominator, at least ONE, is above z. -/
theorem nearDenominator_bounds {z : Word} (hz : -1024 < z.toInt ∧ z.toInt < 1024) :
    0 < (nearDenominator z).toInt ∧ (z.toInt.natAbs : Int) ≤ (nearDenominator z).toInt := by
  have hnonneg := mul_self_nonneg z.toInt
  rw [toInt_nearDenominator hz]
  omega

/-- From ONE up, z is at most its square, which the denominator is above unless it is saturated. -/
theorem farDenominator_bounds {z : Word} (hz : ¬ (-1024 < z.toInt ∧ z.toInt < 1024))
    (hden : farDenominator z ≠ wordMax) :
    0 < (farDenominator z).toInt ∧ (z.toInt.natAbs : Int) ≤ (farDenominator z).toInt := by
  have hsq : 1024 * (z.toInt.natAbs : Int) ≤ z.toInt * z.toInt := by
    rw [← Int.natAbs_mul_self' z.toInt]
    exact Int.mul_le_mul_of_nonneg_right (by omega) (by omega)
  have hmax : (farDenominator z).toInt ≠ 2147483647 := fun h => hden (word_ext h)
  rw [toInt_farDenominator] at hmax ⊢
  omega

/-! ### The two forms -/

/-- The angle of the form for |z| < ONE, before the quadrant is corrected (R192). -/
def nearAngle (z : Word) : Word := quotient Config.F z (nearDenominator z)

/-- The angle of the complementary form, before the quadrant is corrected (R192). -/
def farAngle (z : Word) : Word := subRaw (pio2Of buildF10) (quotient Config.F z (farDenominator z))

theorem atan2Raw_of_ne_zero (y : Word) {x : Word} (hx : x ≠ 0) : atan2Raw buildF10 y x =
    if -1024 < (quotient Config.F y x).toInt ∧ (quotient Config.F y x).toInt < 1024 then
      if x.toInt < 0 then
        if y.toInt < 0 then subRaw (nearAngle (quotient Config.F y x)) (piOf buildF10)
        else addRaw (nearAngle (quotient Config.F y x)) (piOf buildF10)
      else nearAngle (quotient Config.F y x)
    else if farDenominator (quotient Config.F y x) = wordMax then
      if y.toInt < 0 then negRaw (pio2Of buildF10) else pio2Of buildF10
    else if y.toInt < 0 then subRaw (farAngle (quotient Config.F y x)) (piOf buildF10)
    else farAngle (quotient Config.F y x) := if_neg hx

theorem toInt_nearAngle {z : Word} (hz : -1024 < z.toInt ∧ z.toInt < 1024) :
    (nearAngle z).toInt = roundDiv (z.toInt * 1024) (nearDenominator z).toInt := by
  obtain ⟨hpos, hle⟩ := nearDenominator_bounds hz
  exact toInt_quotient_of_le hpos hle

/-- The near angle is at most ONE, on the side of z. -/
theorem nearAngle_range {z : Word} (hz : -1024 < z.toInt ∧ z.toInt < 1024) :
    (0 ≤ z.toInt → 0 ≤ (nearAngle z).toInt ∧ (nearAngle z).toInt ≤ 1024) ∧
    (z.toInt ≤ 0 → -1024 ≤ (nearAngle z).toInt ∧ (nearAngle z).toInt ≤ 0) := by
  obtain ⟨hpos, hle⟩ := nearDenominator_bounds hz
  rw [toInt_nearAngle hz]
  exact roundDiv_range hpos hle

/-- The far angle is exact, and within ONE of PIO2. -/
theorem toInt_farAngle {z : Word} (hz : ¬ (-1024 < z.toInt ∧ z.toInt < 1024)) (hden : farDenominator z ≠ wordMax) :
    (farAngle z).toInt = 1608 - roundDiv (z.toInt * 1024) (farDenominator z).toInt ∧
      584 ≤ (farAngle z).toInt ∧ (farAngle z).toInt ≤ 2632 := by
  obtain ⟨hpos, hle⟩ := farDenominator_bounds hz hden
  obtain ⟨hnonneg, hnonpos⟩ := roundDiv_range hpos hle
  have hquot := toInt_quotient_of_le hpos hle
  have hexact : (farAngle z).toInt = 1608 - roundDiv (z.toInt * 1024) (farDenominator z).toInt := by
    rw [farAngle, toInt_subRaw_of_range, toInt_pio2Of_buildF10, hquot]
    rw [toInt_pio2Of_buildF10, hquot]
    omega
  omega

/-- ATAN2 for |z| < ONE: the near angle, corrected by PI towards the other side of the y axis (R192). -/
theorem toInt_atan2Raw_near {y x : Word} (hx : x ≠ 0)
    (hz : -1024 < (quotient Config.F y x).toInt ∧ (quotient Config.F y x).toInt < 1024) :
    (atan2Raw buildF10 y x).toInt =
      if x.toInt < 0 then
        if y.toInt < 0 then (nearAngle (quotient Config.F y x)).toInt - 3216
        else (nearAngle (quotient Config.F y x)).toInt + 3216
      else (nearAngle (quotient Config.F y x)).toInt := by
  have hrange := nearAngle_range hz
  rw [atan2Raw_of_ne_zero y hx, if_pos hz]
  split
  · split
    · rw [toInt_subRaw_of_range] <;> rw [toInt_piOf_buildF10]
      omega
    · rw [toInt_addRaw_of_range] <;> rw [toInt_piOf_buildF10]
      omega
  · rfl

/-- ATAN2 where the denominator saturates: PIO2 by the sign of y (R192, R195). -/
theorem toInt_atan2Raw_saturated {y x : Word} (hx : x ≠ 0)
    (hz : ¬ (-1024 < (quotient Config.F y x).toInt ∧ (quotient Config.F y x).toInt < 1024))
    (hden : farDenominator (quotient Config.F y x) = wordMax) :
    (atan2Raw buildF10 y x).toInt = if y.toInt < 0 then -1608 else 1608 := by
  rw [atan2Raw_of_ne_zero y hx, if_neg hz, if_pos hden]
  split <;> rfl

/-- ATAN2 by the complementary form: the far angle, less PI below the x axis (R192). -/
theorem toInt_atan2Raw_far {y x : Word} (hx : x ≠ 0)
    (hz : ¬ (-1024 < (quotient Config.F y x).toInt ∧ (quotient Config.F y x).toInt < 1024))
    (hden : farDenominator (quotient Config.F y x) ≠ wordMax) :
    (atan2Raw buildF10 y x).toInt =
      (farAngle (quotient Config.F y x)).toInt - if y.toInt < 0 then 3216 else 0 := by
  obtain ⟨-, hlo, hhi⟩ := toInt_farAngle hz hden
  rw [atan2Raw_of_ne_zero y hx, if_neg hz, if_neg hden]
  split
  · rw [toInt_subRaw_of_range] <;> rw [toInt_piOf_buildF10]
    omega
  · exact (Int.sub_zero _).symm

/-- Settles O37: the three endings of R192, each with its denominator written out. -/
theorem atan2FollowsTheRationalApproximation : Obligations.Atan2FollowsTheRationalApproximation := by
  intro y x s hx
  refine ⟨_, _, completes_div y hx s, completes_atan2 y x s, ?_⟩
  intro q
  have hfar : (farDenominator (quotient Config.F y x)).toInt = min (q * q / 1024 + 287) 2147483647 :=
    toInt_farDenominator _
  by_cases hz : -1024 < q ∧ q < 1024
  · rw [if_pos hz, toInt_atan2Raw_near hx hz, toInt_nearAngle hz, toInt_nearDenominator hz]
  · rw [if_neg hz, ← hfar]
    intro den
    by_cases hden : den = 2147483647
    · rw [if_pos hden]
      exact toInt_atan2Raw_saturated hx hz (word_ext hden)
    · have hne : farDenominator (quotient Config.F y x) ≠ wordMax := fun h => hden (congrArg BitVec.toInt h)
      rw [if_neg hden, toInt_atan2Raw_far hx hz hne, (toInt_farAngle hz hne).1]

/-- Left of the y axis the near angle lies on the side that the correction by PI leaves within [-PI, PI] (R197). -/
theorem atan2Raw_near_range {y x : Word} (hx : x ≠ 0)
    (hz : -1024 < (quotient Config.F y x).toInt ∧ (quotient Config.F y x).toInt < 1024) :
    -3216 ≤ (atan2Raw buildF10 y x).toInt ∧ (atan2Raw buildF10 y x).toInt ≤ 3216 := by
  obtain ⟨hnonneg, hnonpos⟩ := nearAngle_range hz
  rw [toInt_atan2Raw_near hx hz]
  split
  next hxneg =>
    split
    next hyneg =>
      have hsign := toInt_quotient_nonneg Config.F (a := y) (b := x) (iff_of_true hyneg hxneg)
      omega
    next hynonneg =>
      have hsign := toInt_quotient_nonpos Config.F (a := y) (b := x) (fun h => hynonneg (h.2 hxneg))
      omega
  next => omega

theorem atan2Raw_range (y x : Word) :
    -3216 ≤ (atan2Raw buildF10 y x).toInt ∧ (atan2Raw buildF10 y x).toInt ≤ 3216 := by
  by_cases hx : x = 0
  · subst hx
    rw [atan2Raw_zero]
    split
    · decide
    · split <;> decide
  by_cases hz : -1024 < (quotient Config.F y x).toInt ∧ (quotient Config.F y x).toInt < 1024
  · exact atan2Raw_near_range hx hz
  by_cases hden : farDenominator (quotient Config.F y x) = wordMax
  · rw [toInt_atan2Raw_saturated hx hz hden]
    split <;> decide
  · obtain ⟨-, hlo, hhi⟩ := toInt_farAngle hz hden
    rw [toInt_atan2Raw_far hx hz hden]
    split <;> omega

/-- Settles O38. -/
theorem atan2StaysWithinPI : Obligations.Atan2StaysWithinPI := fun y x s =>
  ⟨_, completes_atan2 y x s, atan2Raw_range y x⟩

end Sys2Proof.Machine
end

