-- ==== Sys2Proof/Proofs/InterpolatedLookup.lean ====
section
/-! The interpolated lookup at F = 16 (R183, R184): the rounded index and its exact error, the table index in steps, and
the floored interpolation between two table words. -/

namespace Sys2Proof.Machine

/-! ### The rounded index -/

/-- RNDEVEN at F = 16 gives a whole unit at most half a unit away, wrapped (R114). -/
theorem rndEvenRaw_16 (a : Word) : ∃ k : Int, rndEvenRaw 16 a = s32 (65536 * k) ∧
    -32768 ≤ a.toInt - 65536 * k ∧ a.toInt - 65536 * k ≤ 32768 := by
  have hrange := toInt_range a
  have hfraction : (fraction 16 a : Int) = a.toInt % 65536 := fraction_eq_emod (f := 16) (by norm_num) a
  have hfloor : floorRaw 16 a = s32 (65536 * (a.toInt / 65536)) := floorRaw_eq_s32 (f := 16) (by norm_num) a
  have hup : s32 (sext32 (floorRaw 16 a) + 2 ^ 16) = s32 (65536 * (a.toInt / 65536 + 1)) := by
    rw [sext32_eq, hfloor, toInt_s32_of_range (by omega), Int.mul_add]
    rfl
  have hhalf : 2 ^ (16 - 1) = 32768 := rfl
  simp only [rndEvenRaw, hup, hhalf]
  obtain habove | htie | hbelow := Nat.lt_trichotomy 32768 (fraction 16 a)
  · rw [if_pos habove]
    exact ⟨a.toInt / 65536 + 1, rfl, by omega, by omega⟩
  · rw [if_neg (by omega), if_neg (by omega)]
    split
    · exact ⟨a.toInt / 65536 + 1, rfl, by omega, by omega⟩
    · exact ⟨a.toInt / 65536, hfloor, by omega, by omega⟩
  · rw [if_neg (by omega), if_pos hbelow]
    exact ⟨a.toInt / 65536, hfloor, by omega, by omega⟩

/-- The rounding error of the index (R183). -/
def indexError (fidx : Word) : Word := subRaw fidx (rndEvenRaw 16 fidx)

/-- The wrap of the rounding and the wrap of the subtraction cancel: the error is exact, at most half a unit. -/
theorem toInt_indexError {fidx : Word} {k : Int} (hk : rndEvenRaw 16 fidx = s32 (65536 * k))
    (hlo : -32768 ≤ fidx.toInt - 65536 * k) (hhi : fidx.toInt - 65536 * k ≤ 32768) :
    (indexError fidx).toInt = fidx.toInt - 65536 * k := by
  have hwraps : indexError fidx = s32 (fidx.toInt - 65536 * k) := by
    rw [indexError, hk, subRaw_eq, s32_sub, s32_toInt]
  rw [hwraps]
  exact toInt_s32_of_range (by omega)

theorem natAbs_indexError_le (fidx : Word) : (indexError fidx).toInt.natAbs ≤ 32768 := by
  obtain ⟨k, hk, hlo, hhi⟩ := rndEvenRaw_16 fidx
  rw [toInt_indexError hk hlo hhi]
  omega

/-- Below 32767.5 steps the rounding does not wrap either, so that index and error recompose. -/
theorem rndEvenRaw_16_of_lt {fidx : Word} (h : fidx.toInt < 2147450880) :
    (rndEvenRaw 16 fidx).toInt = 65536 * (toIntRaw 16 (rndEvenRaw 16 fidx)).toInt ∧
      fidx.toInt = (rndEvenRaw 16 fidx).toInt + (indexError fidx).toInt := by
  obtain ⟨k, hk, hlo, hhi⟩ := rndEvenRaw_16 fidx
  have hrange := toInt_range fidx
  have herr := toInt_indexError hk hlo hhi
  have hnear : (rndEvenRaw 16 fidx).toInt = 65536 * k := by
    rw [hk]
    exact toInt_s32_of_range (by omega)
  have hsteps : (toIntRaw 16 (rndEvenRaw 16 fidx)).toInt = k := by
    have hunits : asr (65536 * k) 16 = k := Int.mul_ediv_cancel_left k (show (65536 : Int) ≠ 0 by norm_num)
    rw [toIntRaw, sext32_eq, hnear, hunits]
    exact toInt_s32_of_range (by omega)
  rw [hsteps, hnear, herr]
  omega

/-! ### The index in table steps -/

theorem legalLutSizeInterp_16_iff {n : Nat} : legalLutSizeInterp 16 n = true ↔ 2 ≤ n ∧ n ≤ 32768 := by
  rw [legalLutSizeInterp, Bool.and_eq_true, decide_eq_true_eq, decide_eq_true_eq]
  rfl

/-- IDX_SCALE is exact for every legal table size (R184). -/
theorem toInt_indexScale_16 {n : Nat} (hlo : 2 ≤ n) (hhi : n ≤ 32768) :
    (indexScale 16 n 41720).toInt = ((n : Int) - 1) * 41720 := by
  have hsteps : (s32 ((n : Int) - 1)).toInt = (n : Int) - 1 := toInt_s32_of_range (by omega)
  have hunits : (fromIntRaw 16 (s32 ((n : Int) - 1))).toInt = ((n : Int) - 1) * 65536 := by
    rw [fromIntRaw, sext32_eq, hsteps]
    exact toInt_s32_of_range (v := ((n : Int) - 1) * 65536) (by omega)
  have hconst : (41720 : Word).toInt = 41720 := rfl
  have hscale : asr (((n : Int) - 1) * 65536 * 41720) 16 = ((n : Int) - 1) * 41720 := by
    rw [asr]
    omega
  rw [indexScale, mulRaw, sext32_eq, sext32_eq, hunits, hconst, hscale]
  exact toInt_s32_of_range (by omega)

/-- For every reduced angle the product with IDX_SCALE stays in range, floored (R184). -/
theorem toInt_index_16 {n : Nat} (hlo : 2 ≤ n) (hhi : n ≤ 32768) {r : Word} (hr : 0 ≤ r.toInt)
    (hmax : r.toInt ≤ 102950) :
    (mulRaw 16 r (indexScale 16 n 41720)).toInt = r.toInt * (((n : Int) - 1) * 41720) / 65536 := by
  have hpos : 0 ≤ r.toInt * (((n : Int) - 1) * 41720) := Int.mul_nonneg hr (by omega)
  have hle : r.toInt * (((n : Int) - 1) * 41720) ≤ 102950 * (32767 * 41720) :=
    Int.mul_le_mul hmax (by omega) (by omega) (by norm_num)
  rw [mulRaw, sext32_eq, sext32_eq, toInt_indexScale_16 hlo hhi]
  exact toInt_s32_of_range (v := r.toInt * (((n : Int) - 1) * 41720) / 65536) (by omega)

/-! ### The interpolation -/

/-- A difference scaled by a weight between 0 and 1 and floored lies between 0 and the difference. -/
theorem scaled_difference_range {d w : Int} (hw : 0 ≤ w) (hw1 : w ≤ 65536) :
    min 0 d ≤ d * w / 65536 ∧ d * w / 65536 ≤ max 0 d := by
  obtain hd | hd := Int.le_total 0 d
  · have hlo := Int.mul_nonneg hd hw
    have hhi := Int.mul_le_mul_of_nonneg_left hw1 hd
    omega
  · have hlo := Int.mul_le_mul_of_nonpos_left hd hw1
    have hhi := Int.mul_nonpos_of_nonpos_of_nonneg hd hw
    omega

/-- Between two words that are not negative the interpolation does not wrap, and stays between them (R183). -/
theorem toInt_interpolation {t0 t1 w : Word} (h0 : 0 ≤ t0.toInt) (h1 : 0 ≤ t1.toInt) (hw : 0 ≤ w.toInt)
    (hw1 : w.toInt ≤ 65536) :
    (addRaw t0 (mulRaw 16 (subRaw t1 t0) w)).toInt = t0.toInt + (t1.toInt - t0.toInt) * w.toInt / 65536 ∧
      min t0.toInt t1.toInt ≤ t0.toInt + (t1.toInt - t0.toInt) * w.toInt / 65536 ∧
      t0.toInt + (t1.toInt - t0.toInt) * w.toInt / 65536 ≤ max t0.toInt t1.toInt := by
  have hr0 := toInt_range t0
  have hr1 := toInt_range t1
  have hscaled := scaled_difference_range (d := t1.toInt - t0.toInt) hw hw1
  have hdiff : (subRaw t1 t0).toInt = t1.toInt - t0.toInt := toInt_subRaw_of_range (by omega)
  have hmul : (mulRaw 16 (subRaw t1 t0) w).toInt = (t1.toInt - t0.toInt) * w.toInt / 65536 := by
    rw [mulRaw, sext32_eq, sext32_eq, hdiff]
    exact toInt_s32_of_range (v := (t1.toInt - t0.toInt) * w.toInt / 65536) (by omega)
  refine ⟨?_, by omega, by omega⟩
  rw [toInt_addRaw_of_range] <;> rw [hmul]
  omega

/-- The magnitude of any raw store but MIN. -/
theorem toInt_absRaw {a : Word} (ha : a.toInt ≠ -2147483648) : (absRaw a).toInt = a.toInt.natAbs := by
  obtain hneg | hnonneg := Int.lt_or_le a.toInt 0
  · have hne : a ≠ 0x80000000 := fun h => ha (congrArg BitVec.toInt h)
    rw [absRaw_of_neg hneg, toInt_neg_of_ne_min hne]
    omega
  · rw [absRaw_of_nonneg hnonneg]
    omega

theorem romRead_nonneg {table : List Word} (htable : ∀ x ∈ table, 0 ≤ x.toInt) (i : Nat) :
    0 ≤ (romRead table i).toInt := by
  rw [romRead]
  by_cases hi : i < table.length
  · rw [List.getD_eq_getElem _ _ hi]
    exact htable _ (List.getElem_mem hi)
  · rw [List.getD_eq_default _ _ (Nat.le_of_not_lt hi)]
    decide

/-- The lookup of R183 over the index, its rounded steps and its error. -/
theorem lookupInterpolated_16 (n : Nat) (table : List Word) (r : Word) (rev : Bool) :
    let fidx := mulRaw 16 r (indexScale 16 n 41720)
    let i0 := (toIntRaw 16 (rndEvenRaw 16 fidx)).toInt
    let j0 := if rev then (n : Int) - 1 - i0 else i0
    let j1 := if rev then j0 - (indexError fidx).toInt.sign else j0 + (indexError fidx).toInt.sign
    let t0 := romRead table (clampIndex n j0)
    let t1 := romRead table (clampIndex n j1)
    lookupInterpolated 16 n 41720 table r rev =
      addRaw t0 (mulRaw 16 (subRaw t1 t0) (absRaw (indexError fidx))) := by
  simp only [← toInt_signRaw]
  rfl

/-- Settles O35: the error is at most half a unit and the words are not negative, so the interpolation is exact. -/
theorem interpolatedLookupStaysBetweenNeighbours : Obligations.InterpolatedLookupStaysBetweenNeighbours := by
  intro n table r rev hlegal _ htable fidx near i0 err j0 j1 t0 t1 v
  obtain ⟨hlo, hhi⟩ := legalLutSizeInterp_16_iff.1 hlegal
  have herr : err.natAbs ≤ 32768 := natAbs_indexError_le fidx
  have hweight : (absRaw (indexError fidx)).toInt = err.natAbs :=
    toInt_absRaw (show err ≠ -2147483648 by omega)
  have hinterp := toInt_interpolation (w := absRaw (indexError fidx)) (romRead_nonneg htable (clampIndex n j0))
    (romRead_nonneg htable (clampIndex n j1)) (by omega) (by omega)
  rw [hweight] at hinterp
  obtain ⟨hvalue, hmin, hmax⟩ := hinterp
  have hv : v = t0 + (t1 - t0) * (err.natAbs : Int) / 65536 :=
    (congrArg BitVec.toInt (lookupInterpolated_16 n table r rev)).trans hvalue
  refine ⟨⟨clampIndex_lt (by omega) j0, clampIndex_lt (by omega) j1, herr, hv, hv ▸ hmin, hv ▸ hmax⟩, ?_⟩
  exact fun hr hrmax => ⟨toInt_index_16 hlo hhi hr hrmax, fun hwrap => rndEvenRaw_16_of_lt hwrap⟩

end Sys2Proof.Machine
end

