-- ==== Sys2Proof/Proofs/DecimalDigits.lean ====
section
/-! Texts of decimal digits (R212, R216): their value, and the two loops of TOSTR that write them. -/

namespace Sys2Proof.Machine

/-! ### Digit characters -/

theorem isDigit_iff {c : Byte} : isDigit c = true ↔ 0x30 ≤ c.toNat ∧ c.toNat ≤ 0x39 := by
  rw [isDigit, Bool.and_eq_true, decide_eq_true_eq, decide_eq_true_eq]

@[simp] theorem toNat_digitChar {d : Nat} (h : d < 10) : (digitChar d).toNat = 0x30 + d := by
  rw [digitChar, BitVec.toNat_ofNat]
  omega

theorem isDigit_digitChar {d : Nat} (h : d < 10) : isDigit (digitChar d) = true := by
  rw [isDigit_iff, toNat_digitChar h]
  omega

/-- No digit is a sign or a separator: their codes lie below that of `0` (R25). -/
theorem ne_of_isDigit {c d : Byte} (hc : isDigit c = true) (hd : d.toNat < 0x30) : c ≠ d := by
  rintro rfl
  rw [isDigit_iff] at hc
  omega

theorem isSeparator_of_isDigit {c : Byte} (hc : isDigit c = true) : isSeparator c = false := by
  have hpoint : c ≠ charPoint := ne_of_isDigit hc (by decide)
  have hcomma : c ≠ charComma := ne_of_isDigit hc (by decide)
  simp [isSeparator, hpoint, hcomma]

/-! ### Texts of digits -/

@[simp] theorem allDigits_nil : AllDigits [] := List.forall_mem_nil _

@[simp] theorem allDigits_cons {c : Byte} {t : List Byte} : AllDigits (c :: t) ↔ isDigit c = true ∧ AllDigits t :=
  List.forall_mem_cons

@[simp] theorem allDigits_append {t u : List Byte} : AllDigits (t ++ u) ↔ AllDigits t ∧ AllDigits u :=
  List.forall_mem_append

theorem all_isDigit_iff {t : List Byte} : t.all isDigit = true ↔ AllDigits t := List.all_eq_true

theorem AllDigits.take {t : List Byte} (h : AllDigits t) (k : Nat) : AllDigits (t.take k) :=
  fun c hc => h c (List.mem_of_mem_take hc)

@[simp] theorem digitsValue_nil : digitsValue [] = 0 := rfl

theorem digitsValue_append (t u : List Byte) :
    digitsValue (t ++ u) = digitsValue t * 10 ^ u.length + digitsValue u := by
  simp only [digitsValue, List.reverse_append, List.map_append, Nat.ofDigits_append, List.length_map,
    List.length_reverse]
  ring

theorem digitsValue_singleton (c : Byte) : digitsValue [c] = c.toNat - 0x30 :=
  Nat.ofDigits_singleton

theorem digitsValue_digitChar {d : Nat} (h : d < 10) : digitsValue [digitChar d] = d := by
  rw [digitsValue_singleton, toNat_digitChar h, Nat.add_sub_cancel_left]

/-- A text of k digits is below 10^k (R214). -/
theorem digitsValue_lt {t : List Byte} (h : AllDigits t) : digitsValue t < 10 ^ t.length := by
  have hdigit : ∀ d ∈ t.reverse.map (fun c => c.toNat - 0x30), d < 10 := by
    simp only [List.mem_map, List.mem_reverse]
    rintro d ⟨c, hc, rfl⟩
    have hcode := isDigit_iff.1 (h c hc)
    omega
  simpa [digitsValue] using Nat.ofDigits_lt_base_pow_length (by norm_num) hdigit

/-- The parser's left-to-right sum is the positional value (R212). -/
theorem decimalValue_eq_digitsValue (t : List Byte) : decimalValue t = digitsValue t := by
  induction t using List.reverseRecOn with
  | nil => rfl
  | append_singleton t c ih =>
    rw [decimalValue, List.foldl_append, List.foldl_cons, List.foldl_nil, ← decimalValue, ih, digitsValue_append,
      digitsValue_singleton, List.length_singleton, Nat.pow_one, Nat.mul_comm]

/-! ### The integer digits of TOSTR (R216) -/

theorem decimalDigits_append (fuel n : Nat) (acc : List Byte) :
    decimalDigits fuel n acc = decimalDigits fuel n [] ++ acc := by
  induction fuel generalizing n acc with
  | zero => rfl
  | succ fuel ih =>
    by_cases hlast : n / 10 = 0
    · simp only [decimalDigits, if_pos hlast, List.singleton_append]
    · simp only [decimalDigits, if_neg hlast]
      rw [ih _ (_ :: acc), ih _ [_], List.append_assoc, List.singleton_append]

theorem decimalDigits_of_lt {n : Nat} (h : n < 10) (fuel : Nat) : decimalDigits (fuel + 1) n [] = [digitChar n] := by
  rw [decimalDigits, if_pos (Nat.div_eq_of_lt h), Nat.mod_eq_of_lt h]

theorem decimalDigits_of_ge {n : Nat} (h : 10 ≤ n) (fuel : Nat) :
    decimalDigits (fuel + 1) n [] = decimalDigits fuel (n / 10) [] ++ [digitChar (n % 10)] := by
  rw [decimalDigits, if_neg (by omega), decimalDigits_append]

theorem allDigits_decimalDigits (fuel n : Nat) : AllDigits (decimalDigits fuel n []) := by
  induction fuel generalizing n with
  | zero => exact allDigits_nil
  | succ fuel ih =>
    obtain hlast | hmore := Nat.lt_or_ge n 10
    · rw [decimalDigits_of_lt hlast]
      simp [isDigit_digitChar hlast]
    · rw [decimalDigits_of_ge hmore]
      simp [ih, isDigit_digitChar (Nat.mod_lt n (by norm_num : 0 < 10))]

/-- With fuel for every digit the number itself is written. -/
theorem digitsValue_decimalDigits {fuel n : Nat} (h : n < 10 ^ fuel) : digitsValue (decimalDigits fuel n []) = n := by
  induction fuel generalizing n with
  | zero =>
    obtain rfl : n = 0 := Nat.lt_one_iff.1 h
    rfl
  | succ fuel ih =>
    obtain hlast | hmore := Nat.lt_or_ge n 10
    · rw [decimalDigits_of_lt hlast, digitsValue_digitChar hlast]
    · have hlead : n / 10 < 10 ^ fuel := Nat.div_lt_of_lt_mul (Nat.pow_succ' ▸ h)
      rw [decimalDigits_of_ge hmore, digitsValue_append, ih hlead,
        digitsValue_digitChar (Nat.mod_lt n (by norm_num : 0 < 10)), List.length_singleton, Nat.pow_one]
      omega

theorem decimalDigits_ne_nil (fuel n : Nat) : decimalDigits (fuel + 1) n [] ≠ [] := by
  obtain hlast | hmore := Nat.lt_or_ge n 10
  · rw [decimalDigits_of_lt hlast]
    exact List.cons_ne_nil _ _
  · rw [decimalDigits_of_ge hmore]
    exact List.append_ne_nil_of_right_ne_nil _ (List.cons_ne_nil _ _)

/-- A number that is not zero is written without a leading zero. -/
theorem head?_decimalDigits_ne {fuel n : Nat} (hn : n ≠ 0) (h : n < 10 ^ fuel) :
    (decimalDigits fuel n []).head? ≠ some charZero := by
  induction fuel generalizing n with
  | zero => exact absurd (Nat.lt_one_iff.1 h) hn
  | succ fuel ih =>
    obtain hlast | hmore := Nat.lt_or_ge n 10
    · rw [decimalDigits_of_lt hlast, List.head?_cons, ne_eq, Option.some_inj]
      intro hzero
      have hcode := congrArg BitVec.toNat hzero
      rw [toNat_digitChar hlast, charZero] at hcode
      exact hn (by simpa using hcode)
    · have hlead : n / 10 < 10 ^ fuel := Nat.div_lt_of_lt_mul (Nat.pow_succ' ▸ h)
      have hfuel : fuel ≠ 0 := by
        rintro rfl
        rw [Nat.pow_zero] at hlead
        omega
      obtain ⟨k, rfl⟩ := Nat.exists_eq_succ_of_ne_zero hfuel
      rw [decimalDigits_of_ge hmore, List.head?_append_of_ne_nil _ (decimalDigits_ne_nil k _)]
      exact ih (by omega) hlead

/-! ### The fraction digits of TOSTR (R216, R217) -/

@[simp] theorem fractionDigits_zero (f fuel : Nat) : fractionDigits f fuel 0 = [] := by
  cases fuel with
  | zero => rfl
  | succ fuel => exact if_pos rfl

theorem fractionDigits_of_ne_zero {fr : Nat} (h : fr ≠ 0) (f fuel : Nat) :
    fractionDigits f (fuel + 1) fr =
      digitChar (fr * 10 / 2 ^ f) :: fractionDigits f fuel (fr * 10 % 2 ^ f) := if_neg h

/-- One pass writes one digit. -/
theorem fractionDigit_lt {f fr : Nat} (h : fr < 2 ^ f) : fr * 10 / 2 ^ f < 10 := by
  rw [Nat.div_lt_iff_lt_mul (Nat.two_pow_pos f)]
  omega

theorem allDigits_fractionDigits {f fr : Nat} (h : fr < 2 ^ f) (fuel : Nat) : AllDigits (fractionDigits f fuel fr) := by
  induction fuel generalizing fr with
  | zero => exact allDigits_nil
  | succ fuel ih =>
    by_cases hfr : fr = 0
    · simp [hfr]
    · rw [fractionDigits_of_ne_zero hfr, allDigits_cons]
      exact ⟨isDigit_digitChar (fractionDigit_lt h), ih (Nat.mod_lt _ (Nat.two_pow_pos f))⟩

/-- Each pass takes one factor 2 from the denominator of fr / 2^F (R217). -/
theorem two_pow_dvd_next {f k fr : Nat} (h : 2 ^ f ∣ fr * 2 ^ (k + 1)) : 2 ^ f ∣ fr * 10 % 2 ^ f * 2 ^ k := by
  rw [Nat.dvd_iff_mod_eq_zero, Nat.mod_mul_mod, ← Nat.dvd_iff_mod_eq_zero]
  have hten : fr * 10 * 2 ^ k = fr * 2 ^ (k + 1) * 5 := by ring
  exact hten ▸ Dvd.dvd.mul_right h 5

theorem eq_zero_of_two_pow_dvd {f fr : Nat} (hlt : fr < 2 ^ f) (h : 2 ^ f ∣ fr * 2 ^ 0) : fr = 0 :=
  Nat.eq_zero_of_dvd_of_lt (by simpa using h) hlt

/-- With a pass for every factor 2 of the denominator the loop writes fr / 2^F exactly. -/
theorem digitsValue_fractionDigits {f fuel fr : Nat} (hlt : fr < 2 ^ f) (h : 2 ^ f ∣ fr * 2 ^ fuel) :
    digitsValue (fractionDigits f fuel fr) * 2 ^ f = fr * 10 ^ (fractionDigits f fuel fr).length := by
  induction fuel generalizing fr with
  | zero => simp [eq_zero_of_two_pow_dvd hlt h, fractionDigits]
  | succ fuel ih =>
    by_cases hfr : fr = 0
    · simp [hfr]
    · have hrest := ih (Nat.mod_lt _ (Nat.two_pow_pos f)) (two_pow_dvd_next h)
      rw [fractionDigits_of_ne_zero hfr, ← List.singleton_append, digitsValue_append,
        digitsValue_digitChar (fractionDigit_lt hlt), List.length_append, List.length_singleton]
      generalize fractionDigits f fuel (fr * 10 % 2 ^ f) = ds at hrest
      calc (fr * 10 / 2 ^ f * 10 ^ ds.length + digitsValue ds) * 2 ^ f
          = fr * 10 / 2 ^ f * 2 ^ f * 10 ^ ds.length + digitsValue ds * 2 ^ f := by ring
        _ = (fr * 10 / 2 ^ f * 2 ^ f + fr * 10 % 2 ^ f) * 10 ^ ds.length := by rw [hrest]; ring
        _ = fr * 10 ^ (1 + ds.length) := by rw [Nat.div_add_mod']; ring

/-- The loop stops after as many passes as the denominator of fr / 2^F has factors 2. -/
theorem length_fractionDigits_le_of_dvd {f k fr : Nat} (hlt : fr < 2 ^ f) (h : 2 ^ f ∣ fr * 2 ^ k) (fuel : Nat) :
    (fractionDigits f fuel fr).length ≤ k := by
  induction fuel generalizing k fr with
  | zero => exact Nat.zero_le k
  | succ fuel ih =>
    by_cases hfr : fr = 0
    · simp [hfr]
    · cases k with
      | zero => exact absurd (eq_zero_of_two_pow_dvd hlt h) hfr
      | succ k =>
        rw [fractionDigits_of_ne_zero hfr, List.length_cons]
        exact Nat.succ_le_succ (ih (Nat.mod_lt _ (Nat.two_pow_pos f)) (two_pow_dvd_next h))

/-- The digit of a pass that uses the fraction up is a 5: it is a multiple of 5 below 10, and not 0 (R217). -/
theorem fractionDigit_eq_five {f fr : Nat} (hfr : fr ≠ 0) (hlt : fr < 2 ^ f) (h : fr * 10 % 2 ^ f = 0) :
    fr * 10 / 2 ^ f = 5 := by
  have hexact : fr * 10 / 2 ^ f * 2 ^ f = fr * 10 := Nat.div_mul_cancel (Nat.dvd_of_mod_eq_zero h)
  have hfive : 5 ∣ fr * 10 / 2 ^ f :=
    (Nat.Coprime.pow_right f (by norm_num : Nat.Coprime 5 2)).dvd_of_dvd_mul_right (by omega)
  have hpos : fr * 10 / 2 ^ f ≠ 0 := fun hzero => hfr (by rw [hzero, Nat.zero_mul] at hexact; omega)
  have hten := fractionDigit_lt hlt
  generalize fr * 10 / 2 ^ f = d at hfive hpos hten ⊢
  omega

/-- The last fraction digit is a 5 (R217). -/
theorem getLast?_fractionDigits {f fuel fr : Nat} (hfr : fr ≠ 0) (hlt : fr < 2 ^ f) (h : 2 ^ f ∣ fr * 2 ^ fuel) :
    (fractionDigits f fuel fr).getLast? = some 0x35 := by
  induction fuel generalizing fr with
  | zero => exact absurd (eq_zero_of_two_pow_dvd hlt h) hfr
  | succ fuel ih =>
    rw [fractionDigits_of_ne_zero hfr]
    by_cases hlast : fr * 10 % 2 ^ f = 0
    · rw [hlast, fractionDigits_zero, fractionDigit_eq_five hfr hlt hlast]
      rfl
    · rw [List.getLast?_cons, ih hlast (Nat.mod_lt _ (Nat.two_pow_pos f)) (two_pow_dvd_next h)]
      rfl

end Sys2Proof.Machine
end

