-- ==== Sys2Proof/Proofs/ToStr.lean ====
section
/-! TOSTR (R216): the sign, the integer digits and the fraction digits of its text, and the state it leaves. -/

namespace Sys2Proof.Machine

/-! ### The three parts of the text -/

/-- The sign of the text of a raw store (R216). -/
def signText (a : Word) : List Byte := if a.toInt < 0 then [charMinus] else []

/-- The integer digits of the text of a raw store at F = 10 (R216). -/
def integerText (a : Word) : List Byte := decimalDigits 10 (a.toInt.natAbs / 1024) []

/-- The fraction digits of the text of a raw store at F = 10, none when it is whole (R216). -/
def fractionText (a : Word) : List Byte := fractionDigits 10 10 (a.toInt.natAbs % 1024)

/-- What follows the integer digits: nothing, or the point and the fraction digits (R216). -/
def fractionTail (a : Word) : List Byte :=
  if a.toInt.natAbs % 1024 = 0 then [] else charPoint :: fractionText a

theorem textOf_F (a : Word) : textOf Config.F a = signText a ++ integerText a ++ fractionTail a := rfl

theorem integerPart_lt (a : Word) : a.toInt.natAbs / 1024 < 10 ^ 10 := by
  have hrange := toInt_range a
  omega

theorem integerText_ne_nil (a : Word) : integerText a ≠ [] := decimalDigits_ne_nil 9 _

theorem allDigits_integerText (a : Word) : AllDigits (integerText a) := allDigits_decimalDigits 10 _

theorem digitsValue_integerText (a : Word) : digitsValue (integerText a) = a.toInt.natAbs / 1024 :=
  digitsValue_decimalDigits (integerPart_lt a)

/-- The integer digits are a single 0 or have no leading zero. -/
theorem integerText_no_leading_zero (a : Word) :
    integerText a = [charZero] ∨ (integerText a).head? ≠ some charZero := by
  by_cases hzero : a.toInt.natAbs / 1024 = 0
  · left
    rw [integerText, hzero]
    rfl
  · exact .inr (head?_decimalDigits_ne hzero (integerPart_lt a))

theorem fractionPart_lt (a : Word) : a.toInt.natAbs % 1024 < 2 ^ 10 := Nat.mod_lt _ (by norm_num)

theorem allDigits_fractionText (a : Word) : AllDigits (fractionText a) :=
  allDigits_fractionDigits (fractionPart_lt a) 10

theorem digitsValue_fractionText (a : Word) :
    digitsValue (fractionText a) * 1024 = a.toInt.natAbs % 1024 * 10 ^ (fractionText a).length :=
  digitsValue_fractionDigits (f := 10) (fractionPart_lt a) (Nat.dvd_mul_left _ _)

theorem getLast?_fractionText {a : Word} (h : a.toInt.natAbs % 1024 ≠ 0) :
    (fractionText a).getLast? = some 0x35 :=
  getLast?_fractionDigits h (fractionPart_lt a) (Nat.dvd_mul_left _ _)

/-! ### The state TOSTR leaves -/

theorem length_textOf_F_le_txtCap (a : Word) : (textOf Config.F a).length ≤ Config.txtCap :=
  (tostrTextsFitTheBuffer.2 a).trans (by decide)

theorem toNat_txtLen_completeText {s : State} {t : List Byte} (ht : t.length ≤ Config.txtCap) :
    (s.completeText t).txtLen.toNat = t.length := by
  rw [State.completeText_txtLen, BitVec.toNat_ofNat]
  exact Nat.mod_eq_of_lt (ht.trans_lt (by decide))

/-- After TOSTR the current text is the one it wrote (R216). -/
theorem text_after_tostr {s : State} (hs : s.wf) (a : Word) :
    (s.completeText (textOf Config.F a)).text = some (textOf Config.F a) := by
  obtain ⟨hcanonical, -⟩ := hs
  exact State.text_completeText hcanonical (length_textOf_F_le_txtCap a)

/-- Settles O41. -/
theorem tostrWritesTheExactExpansion : Obligations.TostrWritesTheExactExpansion := by
  refine ⟨decodesTo_of_getElem? 32 rfl, fun a s hs => ?_⟩
  refine ⟨_, signText a, integerText a, fractionTail a, exec_tostr a s, rfl, text_after_tostr hs a,
    toNat_txtLen_completeText (length_textOf_F_le_txtCap a), rfl, integerText_ne_nil a, allDigits_integerText a,
    digitsValue_integerText a, integerText_no_leading_zero a, ?_⟩
  by_cases hwhole : a.toInt.natAbs % 1024 = 0
  · rw [if_pos hwhole, fractionTail, if_pos hwhole]
  · rw [if_neg hwhole, fractionTail, if_neg hwhole]
    exact ⟨fractionText a, rfl, allDigits_fractionText a, getLast?_fractionText hwhole, digitsValue_fractionText a⟩

end Sys2Proof.Machine
end

