-- ==== Sys2Proof/Proofs/ParseReading.lean ====
section
/-! What PARSE reads (R212, R213): the texts the parser accepts are the decimal texts in range, and one text has one
reading. -/

namespace Sys2Proof.Machine

/-! ### The sign -/

theorem splitSign_minus (t : List Byte) : splitSign (charMinus :: t) = (true, t) := rfl

theorem splitSign_plus (t : List Byte) : splitSign (charPlus :: t) = (false, t) := rfl

/-- A text that begins with a digit has no sign. -/
theorem splitSign_of_isDigit {c : Byte} (hc : isDigit c = true) (t : List Byte) :
    splitSign (c :: t) = (false, c :: t) := by
  have hminus : c ≠ charMinus := ne_of_isDigit hc (by decide)
  have hplus : c ≠ charPlus := ne_of_isDigit hc (by decide)
  rw [splitSign, if_neg hminus, if_neg hplus]

/-- What `splitSign` takes off is a minus sign, a plus sign or nothing. -/
theorem eq_sign_append_of_splitSign {t body : List Byte} {neg : Bool} (h : splitSign t = (neg, body)) :
    ∃ sg, t = sg ++ body ∧ if neg then sg = [charMinus] else sg = [] ∨ sg = [charPlus] := by
  cases t with
  | nil =>
    cases h
    exact ⟨[], rfl, .inl rfl⟩
  | cons c t =>
    rw [splitSign] at h
    split at h
    next hminus =>
      cases h
      exact ⟨[c], rfl, by rw [hminus]; rfl⟩
    next =>
      split at h
      next hplus =>
        cases h
        exact ⟨[c], rfl, .inr (by rw [hplus])⟩
      next =>
        cases h
        exact ⟨[], rfl, .inl rfl⟩

/-- The sign of a number text is what `splitSign` takes off. -/
theorem splitSign_sign_append {sg ip tl : List Byte} {neg : Bool} (hip : ip ≠ []) (hdigits : AllDigits ip)
    (hsg : if neg then sg = [charMinus] else sg = [] ∨ sg = [charPlus]) :
    splitSign (sg ++ ip ++ tl) = (neg, ip ++ tl) := by
  obtain ⟨c, rest, rfl⟩ := List.exists_cons_of_ne_nil hip
  cases neg with
  | true =>
    obtain rfl : sg = [charMinus] := hsg
    exact splitSign_minus _
  | false =>
    obtain rfl | rfl : sg = [] ∨ sg = [charPlus] := hsg
    · exact splitSign_of_isDigit (allDigits_cons.1 hdigits).1 _
    · exact splitSign_plus _

/-! ### The integer and the fractional part -/

theorem not_isSeparator_of_mem {ip : List Byte} (h : AllDigits ip) : ∀ c ∈ ip, (!isSeparator c) = true :=
  fun c hc => by rw [isSeparator_of_isDigit (h c hc), Bool.not_false]

theorem countP_isSeparator_eq_zero {t : List Byte} (h : AllDigits t) : t.countP isSeparator = 0 :=
  List.countP_eq_zero.2 fun c hc => by rw [isSeparator_of_isDigit (h c hc)]; exact Bool.false_ne_true

theorem splitParts_of_allDigits {ip : List Byte} (h : AllDigits ip) : splitParts ip = (ip, none) := by
  have hnone : ¬ ip.any isSeparator = true := by
    rw [List.any_eq_true]
    rintro ⟨c, hc, hsep⟩
    rw [isSeparator_of_isDigit (h c hc)] at hsep
    cases hsep
  exact if_neg hnone

theorem splitParts_of_separator {ip x : List Byte} {c : Byte} (h : AllDigits ip) (hc : isSeparator c = true) :
    splitParts (ip ++ c :: x) = (ip, some x) := by
  have hany : (ip ++ c :: x).any isSeparator = true := by simp [hc]
  rw [splitParts, if_pos hany, List.takeWhile_append_of_pos (not_isSeparator_of_mem h),
    List.dropWhile_append_of_pos (not_isSeparator_of_mem h)]
  simp [hc]

/-- `splitParts` cuts at a separator where one stands. -/
theorem eq_parts_of_splitParts {body ip : List Byte} {fp : Option (List Byte)} (h : splitParts body = (ip, fp)) :
    (fp = none ∧ body = ip) ∨ ∃ x c, fp = some x ∧ isSeparator c = true ∧ body = ip ++ c :: x := by
  rw [splitParts] at h
  split at h
  next hany =>
    cases h
    have hcut := List.takeWhile_append_dropWhile (p := fun c => !isSeparator c) (l := body)
    have hrest : body.dropWhile (fun c => !isSeparator c) ≠ [] := by
      rw [ne_eq, List.dropWhile_eq_nil_iff]
      intro hall
      obtain ⟨c, hc, hsep⟩ := List.any_eq_true.1 hany
      have hnot := hall c hc
      rw [hsep] at hnot
      cases hnot
    have hhead := List.head_dropWhile_not (fun c => !isSeparator c) hrest
    exact .inr ⟨_, _, rfl, by simpa using hhead, by rw [List.cons_head_tail, hcut]⟩
  next =>
    cases h
    exact .inl ⟨rfl, rfl⟩

/-! ### Decimal texts -/

/-- The decimal texts are those that pass the first four checks of the parser, with the parts it cuts them into (R213):
so a text has at most one reading. -/
theorem isDecimalText_iff {t ip : List Byte} {neg : Bool} {fp : Option (List Byte)} :
    IsDecimalText t neg ip fp ↔ ∃ body, splitSign t = (neg, body) ∧ splitParts body = (ip, fp) ∧
      body.countP isSeparator ≤ 1 ∧ fp ≠ some [] ∧ ip ≠ [] ∧ AllDigits ip ∧ AllDigits (fp.getD []) := by
  constructor
  · rintro ⟨hip, hdigits, hfp, sg, tl, rfl, hsg, htl⟩
    refine ⟨ip ++ tl, splitSign_sign_append hip hdigits hsg, ?_⟩
    cases fp with
    | none =>
      obtain rfl : tl = [] := htl
      rw [List.append_nil]
      exact ⟨splitParts_of_allDigits hdigits, (countP_isSeparator_eq_zero hdigits).le.trans zero_le_one, nofun, hip,
        hdigits, allDigits_nil⟩
    | some x =>
      obtain ⟨c, hc, rfl⟩ := htl
      obtain ⟨hx, hxdigits⟩ := hfp x rfl
      refine ⟨splitParts_of_separator hdigits hc, ?_, fun h => hx (Option.some_inj.1 h), hip, hdigits, hxdigits⟩
      rw [List.countP_append, countP_isSeparator_eq_zero hdigits, List.countP_cons_of_pos hc,
        countP_isSeparator_eq_zero hxdigits]
  · rintro ⟨body, hsign, hparts, -, hfp, hip, hdigits, hfpdigits⟩
    obtain ⟨sg, rfl, hsg⟩ := eq_sign_append_of_splitSign hsign
    obtain ⟨rfl, rfl⟩ | ⟨x, c, rfl, hc, rfl⟩ := eq_parts_of_splitParts hparts
    · exact ⟨hip, hdigits, nofun, sg, [], by rw [List.append_nil], hsg, rfl⟩
    · refine ⟨hip, hdigits, ?_, sg, c :: x, (List.append_assoc ..).symm, hsg, c, hc, rfl⟩
      rintro _ ⟨⟩
      exact ⟨fun h => hfp (congrArg some h), hfpdigits⟩

/-! ### The parser -/

/-- The last line of `parse` (R212): the scaled integer part and the fraction, under the one sign. -/
def parsedValue (f : Nat) (neg : Bool) (ip : List Byte) (fp : Option (List Byte)) : Word :=
  if neg then subRaw (negRaw (fromIntRaw f (s32 (digitsValue ip : Int)))) (fractionValue f (fp.getD []))
  else addRaw (fromIntRaw f (s32 (digitsValue ip : Int))) (fractionValue f (fp.getD []))

/-- A check that passes leaves the result to what follows it. -/
theorem check_then_eq_ok_iff {c : Prop} [Decidable c] {k : ErrorKind} {x : Except ErrorKind Word} {v : Word} :
    (if c then .error k else x) = .ok v ↔ ¬ c ∧ x = .ok v := by
  by_cases hc : c
  · rw [if_pos hc]
    exact ⟨nofun, fun h => absurd hc h.1⟩
  · rw [if_neg hc]
    exact (and_iff_right hc).symm

/-- The parser answers a value exactly where none of the five causes of R213 stands. -/
theorem parseText_eq_ok_iff_checks {f : Nat} {t : List Byte} {v : Word} :
    parseText f t = .ok v ↔
      (splitSign t).2.countP isSeparator ≤ 1 ∧ (splitParts (splitSign t).2).2 ≠ some [] ∧
      (splitParts (splitSign t).2).1 ≠ [] ∧
      (AllDigits (splitParts (splitSign t).2).1 ∧ AllDigits ((splitParts (splitSign t).2).2.getD [])) ∧
      digitsValue (splitParts (splitSign t).2).1 ≤ 2 ^ (31 - f) - 1 ∧
      parsedValue f (splitSign t).1 (splitParts (splitSign t).2).1 (splitParts (splitSign t).2).2 = v := by
  simp only [parseText, check_then_eq_ok_iff, all_isDigit_iff, decimalValue_eq_digitsValue, not_lt, not_not,
    Except.ok.injEq, ne_eq, parsedValue]

/-- PARSE's function answers a value exactly for the decimal texts whose integer part is in range (R212, R213). -/
theorem parseText_eq_ok_iff {f : Nat} {t : List Byte} {v : Word} :
    parseText f t = .ok v ↔ ∃ neg ip fp, IsDecimalText t neg ip fp ∧ digitsValue ip ≤ 2 ^ (31 - f) - 1 ∧
      parsedValue f neg ip fp = v := by
  rw [parseText_eq_ok_iff_checks]
  constructor
  · rintro ⟨hcount, hfp, hip, ⟨hdigits, hfpdigits⟩, hrange, hv⟩
    exact ⟨_, _, _, isDecimalText_iff.2 ⟨_, rfl, rfl, hcount, hfp, hip, hdigits, hfpdigits⟩, hrange, hv⟩
  · rintro ⟨neg, ip, fp, htext, hrange, hv⟩
    obtain ⟨body, hsign, hparts, hcount, hfp, hip, hdigits, hfpdigits⟩ := isDecimalText_iff.1 htext
    simp only [hsign, hparts]
    exact ⟨hcount, hfp, hip, ⟨hdigits, hfpdigits⟩, hrange, hv⟩

/-- On every text but those PARSE's function answers FormatError (R213). -/
theorem parseText_eq_formatError {f : Nat} {t : List Byte}
    (h : ∀ neg ip fp, IsDecimalText t neg ip fp → 2 ^ (31 - f) - 1 < digitsValue ip) :
    parseText f t = .error .formatError := by
  cases hparse : parseText f t with
  | error k => rw [parseText_eq_error hparse]
  | ok v =>
    obtain ⟨neg, ip, fp, htext, hrange, -⟩ := parseText_eq_ok_iff.1 hparse
    exact absurd hrange (Nat.not_le_of_lt (h neg ip fp htext))

end Sys2Proof.Machine
end

