-- ==== Sys2Proof/Proofs/ParseValue.lean ====
section
/-! The value PARSE leaves (R212, R214, R215): the fraction is rounded once and stays below ONE, and nothing wraps. -/

namespace Sys2Proof.Machine

/-! ### The fraction -/

/-- The fraction of kept digits `k`, rounded to nearest with ties up (R215). -/
def roundedFraction (f : Nat) (k : List Byte) : Nat :=
  (2 * (digitsValue k * 2 ^ f) + 10 ^ k.length) / (2 * 10 ^ k.length)

/-- No more fraction digits are kept than the raw store resolves, and their scaled power of ten is a raw store (R10,
R214). -/
theorem ten_pow_fracDigits_bounds :
    ∀ f ≤ 16, 10 ^ Config.fracDigits f ≤ 2 ^ f ∧ 10 ^ Config.fracDigits f * 2 ^ f ≤ 2147483647 := by decide

/-- The kept digits' power of ten. -/
theorem ten_pow_length_bounds {f : Nat} (hf : f ≤ 16) {k : List Byte} (hk : k.length ≤ Config.fracDigits f) :
    10 ^ k.length ≤ 2 ^ f ∧ 10 ^ k.length * 2 ^ f ≤ 2147483647 := by
  obtain ⟨hone, hmax⟩ := ten_pow_fracDigits_bounds f hf
  have hpow : 10 ^ k.length ≤ 10 ^ Config.fracDigits f := Nat.pow_le_pow_right (by norm_num) hk
  exact ⟨hpow.trans hone, (Nat.mul_le_mul_right _ hpow).trans hmax⟩

/-- The rounded fraction is below ONE, since the kept digits are below their power of ten (R214). -/
theorem roundedFraction_lt {f : Nat} (hf : f ≤ 16) {k : List Byte} (hdigits : AllDigits k)
    (hk : k.length ≤ Config.fracDigits f) : roundedFraction f k < 2 ^ f := by
  obtain ⟨hone, -⟩ := ten_pow_length_bounds hf hk
  have hlt : digitsValue k + 1 ≤ 10 ^ k.length := digitsValue_lt hdigits
  have hscaled : (digitsValue k + 1) * 2 ^ f ≤ 10 ^ k.length * 2 ^ f := Nat.mul_le_mul_right _ hlt
  have hpos : 0 < 2 ^ f := Nat.two_pow_pos f
  rw [roundedFraction, Nat.div_lt_iff_lt_mul (by positivity)]
  calc 2 * (digitsValue k * 2 ^ f) + 10 ^ k.length
      < 2 * ((digitsValue k + 1) * 2 ^ f) := by rw [Nat.add_mul]; omega
    _ ≤ 2 ^ f * (2 * 10 ^ k.length) := by linarith

/-- A whole number in range is scaled without a wrap (R122). -/
theorem toInt_fromIntRaw_s32 {f n : Nat} (h : n * 2 ^ f ≤ 2147483647) :
    (fromIntRaw f (s32 (n : Int))).toInt = (n * 2 ^ f : Nat) := by
  have hn : n ≤ n * 2 ^ f := Nat.le_mul_of_pos_right n (Nat.two_pow_pos f)
  have hword : (s32 (n : Int)).toInt = n := toInt_s32_of_range (by omega)
  rw [fromIntRaw, sext32_eq, hword]
  exact_mod_cast toInt_s32_of_range (v := ((n * 2 ^ f : Nat) : Int)) (by omega)

/-- In the division of two scaled whole numbers the scale cancels (R215). -/
theorem toInt_quotient_fromIntRaw {f : Nat} {k : List Byte} (hf : f ≤ 16) (hdigits : AllDigits k)
    (hk : k.length ≤ Config.fracDigits f) :
    (quotient f (fromIntRaw f (s32 (digitsValue k : Int))) (fromIntRaw f (s32 (10 ^ k.length : Int)))).toInt =
      roundedFraction f k := by
  obtain ⟨hone, hmax⟩ := ten_pow_length_bounds hf hk
  have hlt := digitsValue_lt hdigits
  have hnum := toInt_fromIntRaw_s32 ((Nat.mul_le_mul_right _ hlt.le).trans hmax)
  have hden := toInt_fromIntRaw_s32 hmax
  rw [Nat.cast_pow, Nat.cast_ofNat] at hden
  generalize fromIntRaw f (s32 (digitsValue k : Int)) = a at hnum
  generalize fromIntRaw f (s32 (10 ^ k.length : Int)) = b at hden
  have hpos : 0 < 10 ^ k.length * 2 ^ f := by positivity
  have hb : b ≠ 0 := fun hzero => by
    have hint : b.toInt = 0 := congrArg BitVec.toInt hzero
    omega
  have hsame : (isNeg a != isNeg b) = false := by
    rw [Bool.eq_false_iff, ne_eq, bne_isNeg_iff]
    omega
  have hrounded : roundedMagnitude f a b = roundedFraction f k := by
    rw [roundedMagnitude_eq f a hb, hnum, hden, Int.natAbs_natCast, Int.natAbs_natCast, roundedFraction,
      ← Nat.mul_div_mul_right _ (2 * 10 ^ k.length) (Nat.two_pow_pos f)]
    congr 1 <;> ring
  have hfits := roundedFraction_lt hf hdigits hk
  have hpow : 2 ^ f ≤ 2 ^ 16 := Nat.pow_le_pow_right (by norm_num) hf
  rw [quotient_eq, hsame, hrounded, toInt_signedOrSaturated _ (by omega)]
  rfl

/-- The parser's fraction is the first D digits, rounded once (R212, R215); with no digit kept both are 0. -/
theorem toInt_fractionValue {f : Nat} (hf : f ≤ 16) {fp : List Byte} (hdigits : AllDigits fp) :
    (fractionValue f fp).toInt = roundedFraction f (fp.take (Config.fracDigits f)) := by
  have hlen : (fp.take (Config.fracDigits f)).length ≤ Config.fracDigits f := List.length_take_le _ _
  have hkept := hdigits.take (Config.fracDigits f)
  rw [fractionValue]
  generalize fp.take (Config.fracDigits f) = k at hlen hkept
  cases k with
  | nil => simp [roundedFraction]
  | cons c k =>
    rw [decimalValue_eq_digitsValue]
    exact toInt_quotient_fromIntRaw hf hkept hlen

theorem fractionValue_range {f : Nat} (hf : f ≤ 16) {fp : List Byte} (hdigits : AllDigits fp) :
    0 ≤ (fractionValue f fp).toInt ∧ (fractionValue f fp).toInt < 2 ^ f := by
  have hlt := roundedFraction_lt hf (hdigits.take _) (List.length_take_le (Config.fracDigits f) fp)
  rw [toInt_fractionValue hf hdigits]
  exact ⟨Int.natCast_nonneg _, by exact_mod_cast hlt⟩

/-! ### The whole value -/

/-- The magnitude PARSE gives a reading (R212). -/
def parsedMagnitude (f : Nat) (ip : List Byte) (fp : Option (List Byte)) : Nat :=
  digitsValue ip * 2 ^ f + roundedFraction f ((fp.getD []).take (Config.fracDigits f))

/-- An integer part in range and a fraction below ONE make at most MAX (R214). -/
theorem parsedMagnitude_le {f : Nat} (hf : f ≤ 16) {ip : List Byte} {fp : Option (List Byte)}
    (hdigits : AllDigits (fp.getD [])) (hrange : digitsValue ip ≤ 2 ^ (31 - f) - 1) :
    parsedMagnitude f ip fp ≤ 2147483647 := by
  have hfraction := roundedFraction_lt hf (hdigits.take _) (List.length_take_le (Config.fracDigits f) _)
  have hint : (digitsValue ip + 1) * 2 ^ f ≤ 2 ^ (31 - f) * 2 ^ f :=
    Nat.mul_le_mul_right _ (by have := Nat.two_pow_pos (31 - f); omega)
  rw [← Nat.pow_add, Nat.sub_add_cancel (by omega), Nat.add_mul] at hint
  rw [parsedMagnitude]
  omega

/-- Neither the sum nor the difference of R212 wraps (R214). -/
theorem toInt_parsedValue {f : Nat} (hf : f ≤ 16) {neg : Bool} {ip : List Byte} {fp : Option (List Byte)}
    (hdigits : AllDigits (fp.getD [])) (hrange : digitsValue ip ≤ 2 ^ (31 - f) - 1) :
    (parsedValue f neg ip fp).toInt =
      if neg then -(parsedMagnitude f ip fp : Int) else parsedMagnitude f ip fp := by
  have hmax := parsedMagnitude_le hf hdigits hrange
  have hfraction := toInt_fractionValue hf hdigits
  rw [parsedMagnitude] at hmax ⊢
  have hint := toInt_fromIntRaw_s32 (f := f) (n := digitsValue ip) (by omega)
  cases neg with
  | true =>
    have hneg := toInt_negRaw_of_range (a := fromIntRaw f (s32 (digitsValue ip : Int))) (by omega)
    rw [parsedValue, if_pos rfl, if_pos rfl, toInt_subRaw_of_range] <;> rw [hneg, hint, hfraction] <;> omega
  | false =>
    rw [parsedValue, if_neg Bool.false_ne_true, if_neg Bool.false_ne_true, toInt_addRaw_of_range] <;>
      rw [hint, hfraction] <;> omega

theorem allDigits_getD {t ip : List Byte} {neg : Bool} {fp : Option (List Byte)} (h : IsDecimalText t neg ip fp) :
    AllDigits (fp.getD []) := by
  obtain ⟨-, -, -, -, -, -, -, hdigits⟩ := isDecimalText_iff.1 h
  exact hdigits

/-- No text is parsed to MIN (R214). -/
theorem toInt_of_parseText {f : Nat} (hf : f ≤ 16) {t : List Byte} {v : Word} (h : parseText f t = .ok v) :
    -2147483647 ≤ v.toInt := by
  obtain ⟨neg, ip, fp, htext, hrange, rfl⟩ := parseText_eq_ok_iff.1 h
  have hmax := parsedMagnitude_le hf (allDigits_getD htext) hrange
  rw [toInt_parsedValue hf (allDigits_getD htext) hrange]
  split <;> omega

/-! ### The command -/

/-- PARSE completes only with what its function answers for the text (R211). -/
theorem parseText_of_completes {s : State} {v : Word} (h : Completes .parse s v) :
    ∃ t, s.text = some t ∧ parseText Config.F t = .ok v := by
  cases htext : s.text with
  | none =>
    rw [Completes, exec_parse_of_no_text htext] at h
    cases h
  | some t =>
    refine ⟨t, rfl, ?_⟩
    rw [Completes, exec_parse_of_text htext] at h
    obtain ⟨w, hw, hfinish⟩ | ⟨k, -, hfinish⟩ := s.finish_cases (parseText Config.F t)
    · rw [hfinish, Host.Outcome.next.injEq] at h
      exact hw.trans (congrArg Except.ok (congrArg State.r h))
    · rw [hfinish, Host.Outcome.next.injEq] at h
      cases congrArg State.err h

/-- Settles O40. -/
theorem parseNeverLeavesMin : Obligations.ParseNeverLeavesMin := by
  refine ⟨fun f hf => ⟨fun fp => fractionValue_range (le_of_legalFracBits hf),
    fun t v => toInt_of_parseText (le_of_legalFracBits hf)⟩, ?_⟩
  rintro s v h rfl
  obtain ⟨t, -, hparse⟩ := parseText_of_completes h
  exact absurd (toInt_of_parseText (by decide) hparse) (by decide)

/-- PARSE completes with the value of a reading in range (R212). -/
theorem completes_parse_of_isDecimalText {s : State} {t ip : List Byte} {neg : Bool} {fp : Option (List Byte)}
    (hs : s.text = some t) (htext : IsDecimalText t neg ip fp) (hrange : digitsValue ip ≤ 2097151) :
    Completes .parse s (parsedValue Config.F neg ip fp) :=
  completes_of_exec_finish (exec_parse_of_text hs) (parseText_eq_ok_iff.2 ⟨neg, ip, fp, htext, hrange, rfl⟩)

/-- Settles O39. -/
theorem parseReadsExactlyTheDecimalTexts : Obligations.ParseReadsExactlyTheDecimalTexts := by
  refine ⟨decodesTo_of_getElem? 31 rfl, fun s t hs => ⟨fun neg ip fp htext hrange => ?_, fun hnone => ?_⟩⟩
  · exact ⟨_, completes_parse_of_isDecimalText hs htext hrange,
      toInt_parsedValue (f := 10) (by norm_num) (allDigits_getD htext) hrange⟩
  · exact raises_of_exec_finish (exec_parse_of_text hs) (parseText_eq_formatError hnone)

end Sys2Proof.Machine
end

