-- ==== Sys2Proof/Proofs/RoundTrip.lean ====
section
/-! TOSTR and then PARSE (R218): a raw store whose expansion has at most three fraction digits is read back, except
MIN. -/

namespace Sys2Proof.Machine

/-- The fraction part of TOSTR's text as the parser cuts it. -/
def fractionPart (a : Word) : Option (List Byte) :=
  if a.toInt.natAbs % 1024 = 0 then none else some (fractionText a)

/-- TOSTR writes a decimal text (R212, R216). -/
theorem isDecimalText_textOf_F (a : Word) :
    IsDecimalText (textOf Config.F a) (decide (a.toInt < 0)) (integerText a) (fractionPart a) := by
  refine ⟨integerText_ne_nil a, allDigits_integerText a, ?_, signText a, fractionTail a, textOf_F a, ?_, ?_⟩
  · intro x hx
    rw [fractionPart, Option.ite_none_left_eq_some] at hx
    obtain ⟨hfr, hx⟩ := hx
    cases hx
    refine ⟨fun hnil => ?_, allDigits_fractionText a⟩
    have hlast := getLast?_fractionText hfr
    rw [hnil] at hlast
    cases hlast
  · by_cases hneg : a.toInt < 0 <;> simp [signText, hneg]
  · by_cases hwhole : a.toInt.natAbs % 1024 = 0
    · simp [fractionPart, fractionTail, hwhole]
    · simp only [fractionPart, fractionTail, if_neg hwhole]
      exact ⟨charPoint, rfl, rfl⟩

/-- A multiple of 128 has at most three fraction digits (R218). -/
theorem length_fractionText_le {a : Word} (h : a.toInt % 128 = 0) : (fractionText a).length ≤ 3 := by
  have hdvd : 128 ∣ a.toInt.natAbs % 1024 := by omega
  exact length_fractionDigits_le_of_dvd (k := 3) (fractionPart_lt a) (Nat.mul_dvd_mul_right hdvd 8) 10

/-- Digits that write m / 2^F exactly are read back as m: the rounded division is exact (R218). -/
theorem roundedFraction_of_exact {f m : Nat} {k : List Byte} (h : digitsValue k * 2 ^ f = m * 10 ^ k.length) :
    roundedFraction f k = m := by
  have hpos : 0 < 10 ^ k.length := by positivity
  rw [roundedFraction, h]
  generalize 10 ^ k.length = p at hpos
  rw [show 2 * (m * p) + p = p + m * (2 * p) by ring, Nat.add_mul_div_right _ _ (by omega),
    Nat.div_eq_of_lt (by omega), Nat.zero_add]

/-- The three digits the parser keeps are all the digits of the fraction, and give it back. -/
theorem roundedFraction_fractionPart {a : Word} (h : a.toInt % 128 = 0) :
    roundedFraction 10 (((fractionPart a).getD []).take 3) = a.toInt.natAbs % 1024 := by
  by_cases hwhole : a.toInt.natAbs % 1024 = 0
  · rw [fractionPart, if_pos hwhole, hwhole]
    rfl
  · rw [fractionPart, if_neg hwhole, Option.getD_some, List.take_of_length_le (length_fractionText_le h)]
    exact roundedFraction_of_exact (digitsValue_fractionText a)

/-- The text of a multiple of 128 is parsed to the magnitude it was written from. -/
theorem parsedMagnitude_textOf_F {a : Word} (h : a.toInt % 128 = 0) :
    parsedMagnitude Config.F (integerText a) (fractionPart a) = a.toInt.natAbs := by
  have hmagnitude : parsedMagnitude Config.F (integerText a) (fractionPart a) =
      digitsValue (integerText a) * 1024 + roundedFraction 10 (((fractionPart a).getD []).take 3) := rfl
  rw [hmagnitude, digitsValue_integerText, roundedFraction_fractionPart h, Nat.div_add_mod']

/-- The text of a multiple of 128 but MIN is read as the value it was written from. -/
theorem parsedValue_textOf_F {a : Word} (h : a.toInt % 128 = 0) (hrange : digitsValue (integerText a) ≤ 2097151) :
    parsedValue Config.F (decide (a.toInt < 0)) (integerText a) (fractionPart a) = a := by
  apply word_ext
  rw [toInt_parsedValue (f := Config.F) (by decide) (allDigits_getD (isDecimalText_textOf_F a)) hrange,
    parsedMagnitude_textOf_F h]
  by_cases hneg : a.toInt < 0
  · rw [if_pos (decide_eq_true hneg)]
    omega
  · rw [if_neg (by simpa using hneg)]
    omega

/-- Only the integer part of MIN is out of the parser's range (R214). -/
theorem digitsValue_integerText_le {a : Word} (h : a ≠ 0x80000000) : digitsValue (integerText a) ≤ 2097151 := by
  have hrange := toInt_range a
  have hmin : a.toInt ≠ -2147483648 := fun hint => h (word_ext (hint.trans rfl))
  rw [digitsValue_integerText]
  omega

/-- The text `-2097152` of MIN has no reading in range: its one integer part is 2097152. -/
theorem parseText_textOf_min : parseText Config.F (textOf Config.F 0x80000000) = .error .formatError := rfl

/-- Settles O43. -/
theorem tostrThenParseReturnsTheValue : Obligations.TostrThenParseReturnsTheValue := by
  refine fun s hs => ⟨fun a hmultiple hmin => ⟨_, exec_tostr a s, ?_⟩, _, exec_tostr _ s, ?_⟩
  · have hrange := digitsValue_integerText_le hmin
    have hcompletes := completes_parse_of_isDecimalText (text_after_tostr hs a) (isDecimalText_textOf_F a) hrange
    rwa [parsedValue_textOf_F hmultiple hrange] at hcompletes
  · exact raises_of_exec_finish (exec_parse_of_text (text_after_tostr hs _)) parseText_textOf_min

end Sys2Proof.Machine
end

section
/-! What SIN and TAN read back of their ROMs (R230, R231): on the table's own angles 0 .. PIO2 neither reduction folds, so
the index is the angle. The checksums of the two listings are computations of the kernel, one per listing. -/

namespace Sys2Proof.Machine

set_option Elab.async false

/-- A small natural number keeps its value as a word. -/
theorem toInt_ofNat_of_le {n : Nat} (hn : n ≤ 2147483647) : (BitVec.ofNat 32 n).toInt = n := by
  rw [← BitVec.ofInt_natCast]
  exact toInt_s32_of_range (by omega)

/-- A word with the value of a ROM number is that number's word. -/
theorem eq_ofNat_of_toInt {x : Word} {n : Nat} (hn : n ≤ 2147483647) (hx : x.toInt = n) : x = BitVec.ofNat 32 n :=
  word_ext (hx.trans (toInt_ofNat_of_le hn).symm)

/-! ### The table's own angles -/

/-- In the first quarter of the period SIN's reduction is the identity (R186). -/
theorem sineIndex_of_quarter {a : Word} (hmin : 0 ≤ a.toInt) (hmax : a.toInt ≤ 1608) : sineIndex a = a.toInt := by
  have hphase : a.toInt % 6434 = a.toInt := Int.emod_eq_of_lt hmin (by omega)
  have hhalf : (sineHalfPhase a).toInt = a.toInt := by
    rw [toInt_sineHalfPhase, hphase, if_neg (by omega)]
  rw [sineIndex, hhalf, if_neg (by omega)]

theorem natCast_tmod_pi {i : Nat} (hi : i ≤ 1608) : (i : Int).tmod 3216 = i :=
  Int.tmod_eq_of_lt (Int.natCast_nonneg i) (by omega)

/-- Up to PIO2 TAN's reduction is the identity (R189). -/
theorem tangentIndex_natCast {i : Nat} (hi : i ≤ 1608) : tangentIndex i = i := by
  rw [tangentIndex, natCast_tmod_pi hi, Int.natAbs_natCast, if_neg (by omega)]

/-- SIN reads word `i` back, with no sign flip (R230). -/
theorem sinRaw_ofNat {i : Nat} (hi : i ≤ 1608) :
    sinRaw buildF10 (BitVec.ofNat 32 i) = BitVec.ofNat 32 (sinRomNumbers.getD i 0) := by
  have hangle : (BitVec.ofNat 32 i).toInt = i := toInt_ofNat_of_le (by omega)
  have hindex : sineIndex (BitVec.ofNat 32 i) = i := by
    rw [sineIndex_of_quarter (by omega) (by omega), hangle]
  have hword := getD_le sinRomNumbers_le i
  refine eq_ofNat_of_toInt (by omega) ?_
  rw [toInt_sinRaw, hindex, hangle, if_neg (by omega), Int.toNat_natCast]

/-- TAN reads word `i` back, with no sign flip (R231). -/
theorem tanRaw_ofNat {i : Nat} (hi : i ≤ 1608) :
    tanRaw buildF10 (BitVec.ofNat 32 i) = BitVec.ofNat 32 (tanRomNumbers.getD i 0) := by
  have hangle : (BitVec.ofNat 32 i).toInt = i := toInt_ofNat_of_le (by omega)
  have hunfolded : (i : Int).tmod 3216 < 0 ↔ 1608 < ((i : Int).tmod 3216).natAbs := by
    rw [natCast_tmod_pi hi]
    omega
  refine eq_ofNat_of_toInt (getD_le tanRomNumbers_le i) ?_
  rw [toInt_tanRaw, hangle, tangentIndex_natCast hi, if_pos hunfolded]

/-- Settles O31. -/
theorem sinAndTanReadBackTheRoms : Obligations.SinAndTanReadBackTheRoms := by
  intro i s hi
  rw [← sinRaw_ofNat hi, ← tanRaw_ofNat hi]
  exact ⟨completes_sin _ s, completes_tan _ s⟩

/-! ### The checksums of the listings -/

theorem sum_sinRomNumbers : sinRomNumbers.foldl (· + ·) 0 = 1047947 := by decide +kernel

theorem xor_sinRomNumbers : sinRomNumbers.foldl (fun x y => x ^^^ y) 0 = 0x44D := by decide +kernel

theorem isChain_sinRomNumbers : sinRomNumbers.IsChain (· ≤ ·) := by decide +kernel

theorem getLast?_sinRomNumbers : sinRomNumbers.getLast? = some 1024 := by decide +kernel

theorem sum_tanRomNumbers : tanRomNumbers.foldl (· + ·) 0 = 2155353562 := by decide +kernel

theorem xor_tanRomNumbers : tanRomNumbers.foldl (fun x y => x ^^^ y) 0 = 0x7FF21C10 := by decide +kernel

theorem isChain_tanRomNumbers : tanRomNumbers.IsChain (· ≤ ·) := by decide +kernel

theorem getLast?_tanRomNumbers : tanRomNumbers.getLast? = some 0x7FFFFFFF := by decide +kernel

/-- Settles O32. -/
theorem romListingsMeetTheirChecksums : Obligations.RomListingsMeetTheirChecksums :=
  ⟨length_sinRomNumbers, sum_sinRomNumbers, xor_sinRomNumbers, isChain_sinRomNumbers, getLast?_sinRomNumbers,
    length_tanRomNumbers, sum_tanRomNumbers, xor_tanRomNumbers, isChain_tanRomNumbers, getLast?_tanRomNumbers⟩

end Sys2Proof.Machine
end

section
/-! The error kinds (R242, R243, R247): the condition under which each command's function answers an error kind, as an
equivalence, and from it which commands raise and which never do. -/

namespace Sys2Proof.Machine

/-! ### When a command's function answers an error kind -/

/-- A function that checks for one error kind before it gives its value answers exactly that kind, exactly under the
check (R247). -/
theorem check_eq_error_iff {c : Prop} [Decidable c] {j k : ErrorKind} {v : Word} :
    (if c then .error j else .ok v : Except ErrorKind Word) = .error k ↔ c ∧ k = j := by
  by_cases hc : c
  · rw [if_pos hc, Except.error.injEq]
    exact ⟨fun hjk => ⟨hc, hjk.symm⟩, fun ⟨_, hkj⟩ => hkj.symm⟩
  · rw [if_neg hc]
    exact ⟨nofun, fun ⟨htrue, _⟩ => absurd htrue hc⟩

theorem modRaw_eq_error_iff {a b : Word} {k : ErrorKind} :
    modRaw a b = .error k ↔ b = 0 ∧ k = .divideByZero := check_eq_error_iff

theorem modSafe_eq_error_iff {a b : Word} {k : ErrorKind} :
    modSafe a b = .error k ↔ b = 0 ∧ k = .divideByZero := by
  rw [modSafe_eq_modRaw, modRaw_eq_error_iff]

theorem divRaw_eq_error_iff {f : Nat} {a b : Word} {k : ErrorKind} :
    divRaw f a b = .error k ↔ b = 0 ∧ k = .divideByZero := check_eq_error_iff

theorem divSafe_eq_error_iff {f : Nat} {a b : Word} {k : ErrorKind} :
    divSafe f a b = .error k ↔ b = 0 ∧ k = .divideByZero := divRaw_eq_error_iff

theorem sqrtRaw_eq_error_iff {f : Nat} {a : Word} {k : ErrorKind} :
    sqrtRaw f a = .error k ↔ a.toInt < 0 ∧ k = .domainError := check_eq_error_iff

theorem loadConst_eq_error_iff {bd : Config.Build} {a : Word} {k : ErrorKind} :
    loadConst bd a = .error k ↔ 11 < a.toNat ∧ k = .illegalCommand := check_eq_error_iff

/-! ### The commands that raise -/

/-- With TXT_LEN = 0 the current text is empty (R25). -/
theorem State.text_of_txtLen_eq_zero {s : State} (h : s.txtLen = 0) : s.text = some [] := by
  have hlen : s.txtLen.toNat = 0 := by rw [h]; rfl
  rw [State.text_eq (by omega), hlen]
  rfl

/-- The empty text has no integer part (R213). -/
theorem parseText_nil (f : Nat) : parseText f [] = .error .formatError := rfl

theorem raises_parse_of_txtLen_eq_zero {s : State} (h : s.txtLen = 0) : Raises .parse s .formatError :=
  raises_of_exec_finish (exec_parse_of_text (State.text_of_txtLen_eq_zero h)) (parseText_nil Config.F)

/-- Settles O44. -/
theorem eachErrorKindIsRaised : Obligations.EachErrorKindIsRaised := fun a s =>
  ⟨raises_of_exec_finish (exec_div a 0 s) (divRaw_eq_error_iff.2 ⟨rfl, rfl⟩),
    raises_of_exec_finish (exec_sdiv a 0 s) (divSafe_eq_error_iff.2 ⟨rfl, rfl⟩),
    raises_of_exec_finish (exec_mod a 0 s) (modRaw_eq_error_iff.2 ⟨rfl, rfl⟩),
    raises_of_exec_finish (exec_smod a 0 s) (modSafe_eq_error_iff.2 ⟨rfl, rfl⟩),
    fun hneg => raises_of_exec_finish (exec_sqrt a s) (sqrtRaw_eq_error_iff.2 ⟨hneg, rfl⟩),
    raises_parse_of_txtLen_eq_zero,
    fun hindex => raises_of_exec_finish (exec_ldc a s) (loadConst_eq_error_iff.2 ⟨hindex, rfl⟩)⟩

/-! ### Nothing else raises -/

/-- PARSE raises FormatError alone (R213). -/
theorem exec_parse_raised {s t : State} {k : ErrorKind} (h : exec .parse s = .next t) (hk : t.err = .raised k) :
    k = .formatError := by
  cases htext : s.text with
  | some text =>
    rw [exec_parse_of_text htext] at h
    exact parseText_eq_error (State.finish_raised h hk)
  | none =>
    rw [exec_parse_of_no_text htext] at h
    cases h

/-- TOSTR never raises (R216). -/
theorem exec_tostr_not_raised {a : Word} {s t : State} {k : ErrorKind} (h : exec (.tostr a) s = .next t) :
    t.err ≠ .raised k := by
  rw [exec_tostr] at h
  cases h
  rw [State.completeText_err]
  exact Err.noConfusion

/-- Settles O45: each command that ends through a check raises under that check alone; every other command always
completes. -/
theorem nothingElseRaises : Obligations.NothingElseRaises := by
  intro i s t k h hk
  cases i with
  | div a b =>
    obtain ⟨rfl, rfl⟩ := divRaw_eq_error_iff.1 (State.finish_raised h hk)
    exact .inl ⟨rfl, a, .inl rfl⟩
  | sdiv a b =>
    obtain ⟨rfl, rfl⟩ := divSafe_eq_error_iff.1 (State.finish_raised h hk)
    exact .inl ⟨rfl, a, .inr (.inl rfl)⟩
  | mod a b =>
    obtain ⟨rfl, rfl⟩ := modRaw_eq_error_iff.1 (State.finish_raised h hk)
    exact .inl ⟨rfl, a, .inr (.inr (.inl rfl))⟩
  | smod a b =>
    obtain ⟨rfl, rfl⟩ := modSafe_eq_error_iff.1 (State.finish_raised h hk)
    exact .inl ⟨rfl, a, .inr (.inr (.inr rfl))⟩
  | sqrt a =>
    obtain ⟨hneg, rfl⟩ := sqrtRaw_eq_error_iff.1 (State.finish_raised h hk)
    exact .inr (.inl ⟨rfl, a, rfl, hneg⟩)
  | parse => exact .inr (.inr (.inl ⟨exec_parse_raised h hk, rfl⟩))
  | ldc a =>
    obtain ⟨hindex, rfl⟩ := loadConst_eq_error_iff.1 (State.finish_raised h hk)
    exact .inr (.inr (.inr ⟨rfl, a, rfl, hindex⟩))
  | tostr a => exact absurd hk (exec_tostr_not_raised h)
  | _ => exact absurd hk (State.complete_not_raised h)

end Sys2Proof.Machine
end

section
/-! Reset (R260, R261), and the answer of every step (R265, R270): from a legal state every command, every service of
a host action and so every step ends in a next state, and an accepted command leaves one response more. -/

namespace Sys2Proof.Machine

/-! ### Reset -/

/-- Settles O56. -/
theorem resetInputClearsErrAndLength : Obligations.ResetInputClearsErrAndLength := by
  intro s rest hinbox
  exact ⟨_, step_of_inbox_cons hinbox, State.assertReset_err _, State.assertReset_txtLen _, State.assertReset_rom _,
    State.assertReset_inbox _, State.assertReset_replies _⟩

/-- Settles O57. -/
theorem resetStateHasOkAndEmptyText : Obligations.ResetStateHasOkAndEmptyText :=
  ⟨rfl, rfl, rfl, raises_parse_of_txtLen_eq_zero rfl⟩

/-! ### Every step completes -/

/-- With TXT_LEN inside the buffer every command ends in a next state; PARSE alone needs the bound (R55). -/
theorem exec_next {s : State} (hs : s.txtLen.toNat ≤ Config.txtCap) (i : Instr) : ∃ t, exec i s = .next t := by
  cases i with
  | parse => exact ⟨_, exec_parse_of_text (State.text_eq hs)⟩
  | _ => exact ⟨_, rfl⟩

/-- The response holds ERR and R alone, so presenting it does not change what it is (R73). -/
theorem State.respond_response (s : State) : s.respond.response = s.response := rfl

theorem State.respond_replies (s : State) : s.respond.replies = .response s.respond.response :: s.replies := by
  rw [State.respond_response, State.respond_eq, State.reply_replies]

theorem State.respond_inbox (s : State) : s.respond.inbox = s.inbox := by
  rw [State.respond_eq, State.reply_inbox]

/-- An accepted command word, reserved or not, ends in a next state with exactly one response more, that of the state
it leaves (R265, R243). -/
theorem serveCommand_responds {s : State} (hs : s.txtLen.toNat ≤ Config.txtCap) (w : Command) :
    ∃ t, serveCommand w s = .next t ∧ t.inbox = s.inbox ∧ t.replies = .response t.response :: s.replies := by
  cases hw : decode w with
  | error e =>
    refine ⟨_, serveCommand_of_decode_error hw s, ?_, ?_⟩
    · rw [State.respond_inbox, State.raise_inbox]
    · rw [State.respond_replies, State.raise_replies]
  | ok i =>
    obtain ⟨u, hu⟩ := exec_next hs i
    obtain ⟨-, hinbox, hreplies⟩ := exec_rom_inbox_replies hu
    refine ⟨u.respond, ?_, ?_, ?_⟩
    · rw [serveCommand_of_decode hw, hu]
      rfl
    · rw [State.respond_inbox, hinbox]
    · rw [State.respond_replies, hreplies]

/-- Every action of the host is served to a next state, a command word to its one response. -/
theorem serve_next {s : State} (hs : s.txtLen.toNat ≤ Config.txtCap) (x : HostAction) :
    ∃ t, serve x s = .next t ∧
      ∀ w, x = .command w → t.inbox = s.inbox ∧ t.replies = .response t.response :: s.replies := by
  cases x with
  | command w =>
    obtain ⟨t, ht, hresponse⟩ := serveCommand_responds hs w
    exact ⟨t, ht, fun _ _ => hresponse⟩
  | _ => exact ⟨_, rfl, nofun⟩

/-- Settles O60: an idle step holds the state, and every other step is the service of one host action. -/
theorem everyCommandEndsWithOneResponse : Obligations.EveryCommandEndsWithOneResponse := by
  rintro s ⟨-, hlen⟩
  cases hinbox : s.inbox with
  | nil => exact ⟨s, step_of_inbox_nil hinbox, nofun⟩
  | cons x rest =>
    rw [step_of_inbox_cons hinbox]
    obtain ⟨t, ht, hresponse⟩ := serve_next (s := { s with inbox := rest }) hlen x
    refine ⟨t, ht, fun w rest' h => ?_⟩
    obtain ⟨hcommand, rfl⟩ := List.cons.inj h
    exact hresponse w hcommand

end Sys2Proof.Machine
end
